-- ==== Sys2Proof/Word.lean ====
section
/-! DEFINITION. The machine's word and address types and their plainest readings
(spec/00_scope.md R10, R12, R13). -/

namespace Sys2Proof

/-- A Word: a 16-bit two's-complement value (00_scope.md R10, R13). -/
abbrev Word := BitVec 16

/-- An Address: an 11-bit unsigned word address, 0..2047 (00_scope.md R10, R13). -/
abbrev Address := BitVec 11

/-- The number of words of the memory array (00_scope.md R10). -/
abbrev memorySize : Nat := 2048

/-- The sign bit w[15] of a Word (00_scope.md R13). -/
def sign (w : Word) : Bool := w.msb

/-- The signed reading s16(w) of a Word (00_scope.md R13). -/
def s16 (w : Word) : Int := w.toInt

/-- mask16(v): v mod 65536, as a Word, of any integer (00_scope.md R13). -/
def mask16 (v : Int) : Word := BitVec.ofInt 16 v

/-- mask11(v): v mod 2048, as an Address, of any integer (00_scope.md R13). -/
def mask11 (v : Int) : Address := BitVec.ofInt 11 v

/-- mask11 of a Word read as a number: its low eleven bits (20_memory.md R68, 46_float_vector.md R162). -/
def lowAddress (w : Word) : Address := w.setWidth 11

end Sys2Proof
end

