-- ==== Sys2Proof/Config.lean ====
section
/-! DEFINITION. The model parameters of spec/00_scope.md R11 and spec/92_eei_decisions.md as types, and the
two that have no default as opaque constants. The default of each of the others is one definition of
Machine/Params.lean (and of Decode.lean for the two that decoding reads). -/

namespace Sys2Proof

/-- `HLT_MATCH` (30_encoding.md R92, D4): which words with opcode 0 are HLT. -/
inductive HltMatch where
  | opcode
  | wholeWord
deriving DecidableEq, Repr

/-- `TRR_EQUAL_MODE` (44_register_register.md R147, D10): what TRR does to EQUAL on inequality. -/
inductive TrrEqualMode where
  | setOnly
  | assign
deriving DecidableEq, Repr

/-- `SRC_ARITH_LEFT` (45_shift_rotate.md R153, D19): what an arithmetic left shift does. -/
inductive SrcArithLeft where
  | sameAsLogical
  | refuse
deriving DecidableEq, Repr

/-- `FP_EXP_ORDER` (46_float_vector.md R156, D21): how the 7-bit exponent field is read. -/
inductive FpExpOrder where
  | unsigned
  | signMagnitude
  | twosComplement
deriving DecidableEq, Repr

/-- `VEC_ELEM_OP` (46_float_vector.md R163, R164, D23): the element operation of VADD and VSUB. -/
inductive VecElemOp where
  | int16Wrap
  | fp
  | refuse
deriving DecidableEq, Repr

/-- `MARMBR_POLICY` (20_memory.md R40 to R42, D30): which accesses latch MAR and MBR. -/
inductive MarMbrPolicy where
  | everyAccess
  | panelOnly
deriving DecidableEq, Repr

/-- `CNVRT_TO_FIXED` (46_float_vector.md R161, D22): a total function of the source word alone that the
spec leaves uninterpreted. A free value: nothing in Lean can evaluate it (log 16). -/
opaque Config.cnvrtToFixed : Word → Word

/-- `CNVRT_TO_FLOAT` (46_float_vector.md R161, D22): as `Config.cnvrtToFixed`, fixed to float (log 16). -/
opaque Config.cnvrtToFloat : Word → Word

end Sys2Proof
end

