-- ==== Sys2Proof/Machine/Params.lean ====
section
/-! DEFINITION. The default of each model parameter that a meaning reads (spec/00_scope.md R11,
spec/92_eei_decisions.md). The meanings pass these to shared operations that cover every value of the
parameter. -/

namespace Sys2Proof.Machine

/-- `LDX_EA_INDEXED` (41_transfer.md R117, D9; log 10). -/
def ldxEaIndexed : Bool := true

/-- `TRR_EQUAL_MODE` (44_register_register.md R147, D10; log 11). -/
def trrEqualMode : TrrEqualMode := .setOnly

/-- `MLT_SIGNED` (44_register_register.md R145, D17; log 12). -/
def mltSigned : Bool := true

/-- `SRC_ARITH_LEFT` (45_shift_rotate.md R153, D19; log 13). -/
def srcArithLeft : SrcArithLeft := .sameAsLogical

/-- `RRC_CARRY_AL`: the A/L bit that selects rotation through Carry (45_shift_rotate.md R154, D20; log 14). -/
def rrcCarryAl : Bool := false

/-- `FP_EXP_ORDER` (46_float_vector.md R156, D21; log 15). -/
def fpExpOrder : FpExpOrder := .unsigned

/-- `VEC_ELEM_OP` (46_float_vector.md R163, R164, D23; log 17). -/
def vecElemOp : VecElemOp := .int16Wrap

/-- `MARMBR_POLICY` (20_memory.md R40 to R42, D30; log 18). -/
def marMbrPolicy : MarMbrPolicy := .everyAccess

end Sys2Proof.Machine
end

