-- ==== Sys2Proof/Machine/State.lean ====
section
/-! DEFINITION. The machine's state as plain data: every piece of state spec/10_state.md, 20_memory.md and
43_branches.md name, the reasons an instruction can be cut short, and the states after Reset and at
power-on. -/

namespace Sys2Proof.Machine

/-- The error kinds that abort an instruction (60_exceptions.md R176). The meanings raise them through
`State.takeFault`, which records the kind in `faults` and halts the machine as 40_execution_cycle.md R108
describes: the outcome is a NEXT state, so no meaning and no step answers `Host.Outcome.fault` (log 3). -/
inductive Fault where
  /-- Code 1. Raised by effective-address resolution, fetch, RFS, VADD, VSUB and ConsoleSubmit on an address
  above 2047. Recorded as the spec says: safe. -/
  | addressOutOfRange
  /-- Code 2. Raised by effective-address resolution, VADD, VSUB and ConsoleSubmit on an address 0..5. Recorded
  as the spec says: safe. -/
  | illegalReservedAccess
  /-- Code 3. Raised by MLT, DVD (a selector not 0 or 2) and by FADD, FSUB, VADD, VSUB, LDFR, STFR (a selector not
  0 or 1). Recorded as the spec says: safe. -/
  | badRegisterSelector
  /-- Code 4. Raised by LDX and STX with IX = 0. Recorded as the spec says: safe. -/
  | badIndexRegister
  /-- Code 5. Raised by DVD with divisor 0, after CC.DIVZERO is set. Recorded as the spec says: safe. -/
  | divisionByZero
  /-- Code 6. Raised by a fetch with the PC unset. Recorded as the spec says: safe. -/
  | pcUnset
deriving DecidableEq, Repr

/-- The numeric code of a fault (60_exceptions.md R176). -/
def Fault.code : Fault → Nat
  | .addressOutOfRange => 1
  | .illegalReservedAccess => 2
  | .badRegisterSelector => 3
  | .badIndexRegister => 4
  | .divisionByZero => 5
  | .pcUnset => 6

/-- The reasons of the spec's `refuse(reason)`. Apart from `notModelled` they are taken through
`State.takeRefusal`, which sets `refused` and halts the machine as 40_execution_cycle.md R110 describes: the
outcome is a NEXT state (log 4). -/
inductive Refusal where
  /-- An instruction without a meaning, refused in `exec`'s arm by name. No arm uses it: safe. -/
  | notModelled (mnemonic : String)
  /-- Raised by FADD and FSUB, and by VADD and VSUB under `VEC_ELEM_OP = fp`, in the cases of
  46_float_vector.md R157. Unsafe for a claim that reads such a state without the premise `refused = false`. -/
  | floatingPointCorner
  /-- Raised by IN with a device other than 0 (47_io_control.md R168). Unsafe in the same way. -/
  | inputDevice
  /-- Raised by OUT with a device other than 1 (47_io_control.md R172). Unsafe in the same way. -/
  | outputDevice
  /-- Raised by IN while PendingInput is present (47_io_control.md R168). Unsafe in the same way. -/
  | inputPending
  /-- Raised by SRC under `SRC_ARITH_LEFT = refuse` (45_shift_rotate.md R153), not the default. Unsafe in the
  same way. -/
  | arithmeticLeftShift
  /-- Raised by VADD and VSUB under `VEC_ELEM_OP = refuse` (46_float_vector.md R163, R164), not the default. Unsafe
  in the same way. -/
  | vectorElement
deriving DecidableEq, Repr

/-- The run state (10_state.md R27). -/
inductive RunState where
  | running
  | waitingForInput
  | halted
deriving DecidableEq, Repr

/-- The record of an IN waiting for its input (10_state.md R28). -/
structure PendingInput where
  dest : BitVec 2
  base : Word
  count : Nat
  resumeRun : Bool
deriving DecidableEq, Repr

/-- One entry of `faults`: error kind, instruction address, instruction word; the last two may be unset
(10_state.md R30, 40_execution_cycle.md R108). -/
structure FaultRecord where
  error : Fault
  address : Option Nat
  word : Option Word
deriving DecidableEq, Repr

/-- The status messages that the rules say the observer port receives (47_io_control.md R172, R175; log 20). -/
inductive StatusMessage where
  /-- OUT's guidance message on GPR[0] (base) and GPR[3] (count) (R172). -/
  | guidance (base count : Word)
  /-- The message logging an inert word (R175). -/
  | inert (word : Word)
deriving DecidableEq, Repr

/-- The condition-code bank (10_state.md R22). -/
structure CondCodes where
  overflow : Bool
  underflow : Bool
  divZero : Bool
  equal : Bool
deriving DecidableEq, Repr

/-- The index registers (10_state.md R20): there is no IXR[0]. -/
structure IndexFile where
  x1 : Word
  x2 : Word
  x3 : Word
deriving DecidableEq, Repr

/-- The floating-point registers (10_state.md R21). -/
structure FloatFile where
  f0 : Word
  f1 : Word
deriving DecidableEq, Repr

/-- One memory cell: a word address and the word at it (log 1). -/
abbrev MemCell := Nat × Word

/-- The memory array (20_memory.md R39) as the cells that hold a nonzero word, addresses strictly rising; an
address that is not listed holds 0, the reset contents (10_state.md R37, R38). `Memory.wf` of
Machine/Memory.lean says the form. -/
abbrev Memory := List MemCell

/-- A cache line (10_state.md R32). -/
structure CacheLine where
  tag : BitVec 8
  valid : Bool
  data : Vector Word 8
deriving DecidableEq, Repr

/-- The cache: 16 lines and their recency order, head LRU, tail MRU (10_state.md R32). -/
structure Cache where
  lines : Vector CacheLine 16
  order : List (Fin 16)
deriving DecidableEq, Repr

/-- The state of the whole block (10_state.md). `none` in `pc`, `ir`, `mar`, `mbr` is the spec's own value
"unset" (R25, R31, R37). -/
structure State where
  /-- GPR[0..3] (R17). -/
  gprs : Vector Word 4
  /-- IXR[1..3] (R20). -/
  ixrs : IndexFile
  /-- FR[0..1] (R21). -/
  frs : FloatFile
  /-- CC[0..3] (R22). -/
  cc : CondCodes
  /-- Carry (R24). -/
  carry : Bool
  /-- PC: unset or 0..2048 (R25; log 25). -/
  pc : Option Nat
  /-- IR (R26). -/
  ir : Option Word
  /-- MAR (R31). -/
  mar : Option Address
  /-- MBR (R31). -/
  mbr : Option Word
  /-- Mem[0..2047] (R31). -/
  mem : Memory
  /-- The cache lines and recency order (R32). -/
  cache : Cache
  /-- BHT[0..127] (R33). -/
  bht : Vector (BitVec 2) 128
  /-- The count of predictions (R33). -/
  predictions : Nat
  /-- The count of correct predictions (R33). -/
  correct : Nat
  /-- The run state (R27). -/
  runState : RunState
  /-- PendingInput (R28). -/
  pending : Option PendingInput
  /-- The completed-instruction count (R29). -/
  icount : Nat
  /-- The fault log, oldest first (R30). -/
  faults : List FaultRecord
  /-- The refusal mark (R30). -/
  refused : Bool
  /-- The model's own field: status messages sent to the observer port, oldest first (log 20). -/
  status : List StatusMessage
deriving DecidableEq, Repr

/-- An invalid line with tag 0 and data 0 (10_state.md R37, R38). -/
def CacheLine.empty : CacheLine :=
  { tag := 0, valid := false, data := Vector.replicate 8 0 }

/-- All lines invalid, order [0, 1, ..., 15] (10_state.md R37, R38). -/
def Cache.empty : Cache :=
  { lines := Vector.replicate 16 CacheLine.empty, order := List.finRange 16 }

/-- The state after the `Reset` command (10_state.md R38; log 2). -/
def State.reset : State where
  gprs := Vector.replicate 4 0
  ixrs := { x1 := 0, x2 := 0, x3 := 0 }
  frs := { f0 := 0, f1 := 0 }
  cc := { overflow := false, underflow := false, divZero := false, equal := false }
  carry := false
  pc := some 0
  ir := some 0
  mar := some 0
  mbr := some 0
  mem := []
  cache := Cache.empty
  bht := Vector.replicate 128 1
  predictions := 0
  correct := 0
  runState := .halted
  pending := none
  icount := 0
  faults := []
  refused := false
  status := []

/-- The state at power-on: as after Reset, with PC, IR, MAR and MBR unset (10_state.md R37). -/
def State.powerOn : State :=
  { State.reset with pc := none, ir := none, mar := none, mbr := none }

/-- What a meaning and a step answer. -/
abbrev Result := Host.Outcome State Fault Refusal

end Sys2Proof.Machine
end

