-- ==== Sys2Proof/Machine/Memory.lean ====
section
/-! DEFINITION. The memory array and its MAR/MBR latches (spec/20_memory.md R39 to R42). -/

namespace Sys2Proof.Machine

/-! ## The array as a list of cells in one canonical form (log 1) -/

/-- The word at an address; an address not listed holds 0. -/
def Memory.read (a : Nat) : Memory → Word
  | [] => 0
  | (b, x) :: m => if a = b then x else Memory.read a m

/-- The array with `w` at address `a`; writing 0 removes the cell. -/
def Memory.write (a : Nat) (w : Word) : Memory → Memory
  | [] => if w = 0 then [] else [(a, w)]
  | (b, x) :: m =>
    if a < b then (if w = 0 then (b, x) :: m else (a, w) :: (b, x) :: m)
    else if a = b then (if w = 0 then m else (a, w) :: m)
    else (b, x) :: Memory.write a w m

/-- Addresses from `lo` on, strictly rising, below 2048, and no zero word. -/
def Memory.wfFrom (lo : Nat) : Memory → Bool
  | [] => true
  | (a, w) :: m => decide (lo ≤ a) && decide (a < memorySize) && (w != 0) && Memory.wfFrom (a + 1) m

/-- The canonical form: equal arrays are equal lists. -/
def Memory.wf (m : Memory) : Bool := Memory.wfFrom 0 m

/-! ## Array accesses -/

/-- The latch effect of an array access under a policy (R40 to R42). -/
def latchUnder (policy : MarMbrPolicy) (a : Address) (w : Word) (s : State) : State :=
  match policy with
  | .everyAccess => { s with mar := some a, mbr := some w }
  | .panelOnly => s

/-- The latch effect of an array access (R40, R41; log 18). -/
def State.latch (a : Address) (w : Word) (s : State) : State := latchUnder marMbrPolicy a w s

/-- Mem[a]. -/
def State.word (s : State) (a : Address) : Word := s.mem.read a.toNat

/-- `ArrayRead(a)`: the state it leaves; its value is `s.word a` (R40). -/
def State.arrayRead (a : Address) (s : State) : State := s.latch a (s.word a)

/-- `ArrayWrite(a, v)` (R41). -/
def State.arrayWrite (a : Address) (v : Word) (s : State) : State :=
  State.latch a v { s with mem := s.mem.write a.toNat v }

end Sys2Proof.Machine
end

