-- ==== Sys2Proof/Machine/Cache.lean ====
section
/-! DEFINITION. The cache controller (spec/20_memory.md R49 to R57): 16 lines of 8 words, fully associative,
LRU, write-through, write-allocate. -/

namespace Sys2Proof.Machine

/-- `tag(a) = a[10:3]` (R50). -/
def blockTag (a : Address) : BitVec 8 := a.extractLsb' 3 8

/-- `off(a) = a[2:0]` (R50). -/
def blockOffset (a : Address) : Fin 8 := (a.extractLsb' 0 3).toFin

/-- The address of word `k` of block `t`: `t*8 + k` (R50). -/
def blockWord (t : BitVec 8) (k : Fin 8) : Address := t ++ BitVec.ofFin (w := 3) k

/-- Line `i` holds block `t` and is valid (R51). -/
def Cache.holds (c : Cache) (t : BitVec 8) (i : Fin 16) : Bool :=
  c.lines[i].valid && c.lines[i].tag == t

/-- The hitting line of an address, if any (R51). -/
def Cache.lookup (c : Cache) (a : Address) : Option (Fin 16) :=
  (List.finRange 16).find? (c.holds (blockTag a))

/-- `Promote(i)` (R52). -/
def Cache.promote (c : Cache) (i : Fin 16) : Cache :=
  { c with order := c.order.erase i ++ [i] }

/-- `Victim()`: the first invalid line in recency order, else the LRU line (R53). An empty order, which no run
reaches, gives line 0 (log 19). -/
def Cache.victim (c : Cache) : Fin 16 :=
  match c.order.find? (fun i => !c.lines[i].valid) with
  | some i => i
  | none => c.order.headD 0

/-- Line `i` with the word at offset `k` replaced. -/
def Cache.setWord (c : Cache) (i : Fin 16) (k : Fin 8) (v : Word) : Cache :=
  { c with lines := c.lines.set i { c.lines[i] with data := c.lines[i].data.set k v } }

/-- The words of block `t` in the array. -/
def State.block (s : State) (t : BitVec 8) : Vector Word 8 :=
  #v[s.word (blockWord t 0), s.word (blockWord t 1), s.word (blockWord t 2), s.word (blockWord t 3),
     s.word (blockWord t 4), s.word (blockWord t 5), s.word (blockWord t 6), s.word (blockWord t 7)]

/-- `Fill(i, t)`: line `i` takes block `t`. Of the eight ascending array reads only the last is left in MAR and
MBR (R54; log 23). -/
def State.fill (i : Fin 16) (t : BitVec 8) (s : State) : State :=
  State.arrayRead (blockWord t 7)
    { s with cache := { s.cache with lines := s.cache.lines.set i { tag := t, valid := true, data := s.block t } } }

/-- The line an access to `a` uses, and the state once it holds `a`'s block: the hitting line, or the victim
after its fill (R55, R56). -/
def State.allocate (a : Address) (s : State) : Fin 16 × State :=
  match s.cache.lookup a with
  | some i => (i, s)
  | none => (s.cache.victim, s.fill s.cache.victim (blockTag a))

/-- Promotion of line `i` as a step of the state. -/
def State.promote (i : Fin 16) (s : State) : State := { s with cache := s.cache.promote i }

/-- `CacheLoad(a)`: the value and the state it leaves (R55). -/
def State.cacheLoad (a : Address) (s : State) : Word × State :=
  let p := s.allocate a
  (p.2.cache.lines[p.1].data[blockOffset a], p.2.promote p.1)

/-- `CacheStore(a, v)`: write-allocate, update the line, write through, promote (R56). -/
def State.cacheStore (a : Address) (v : Word) (s : State) : State :=
  let p := s.allocate a
  let cached := { p.2 with cache := p.2.cache.setWord p.1 (blockOffset a) v }
  (cached.arrayWrite a v).promote p.1

/-- The cache with a resident copy of word `a`, if there is one, set to `v`: no promotion, no allocation
(R49). -/
def Cache.refresh (c : Cache) (a : Address) (v : Word) : Cache :=
  match c.lookup a with
  | some i => c.setWord i (blockOffset a) v
  | none => c

/-- `DirectWrite(a, v)`: the write path of the front panel and the load file (R49). -/
def State.directWrite (a : Address) (v : Word) (s : State) : State :=
  State.arrayWrite a v { s with cache := s.cache.refresh a v }

end Sys2Proof.Machine
end

