-- ==== Sys2Proof/Machine/Ops.lean ====
section
/-! DEFINITION. The named operations of the meanings: register access, data access, completing an
instruction, taking a fault and taking a refusal (spec/10_state.md, 40_execution_cycle.md). -/

namespace Sys2Proof.Machine

/-! ## Registers (10_state.md R17 to R25) -/

/-- GPR[r] (R17). -/
def State.gpr (s : State) (r : BitVec 2) : Word := s.gprs[r.toFin]

/-- `GPR[r] <- v` (R17). -/
def State.setGpr (r : BitVec 2) (v : Word) (s : State) : State := { s with gprs := s.gprs.set r.toFin v }

/-- The index registers that exist (R20). -/
inductive IndexReg where
  | x1
  | x2
  | x3
deriving DecidableEq, Repr

/-- The index register a selector names; selector 0 names none (R20). -/
def IndexReg.ofSelector (ix : BitVec 2) : Option IndexReg :=
  if ix = 0 then none else if ix = 1 then some .x1 else if ix = 2 then some .x2 else some .x3

/-- IXR[x] (R20). -/
def State.ixr (s : State) (x : IndexReg) : Word :=
  match x with
  | .x1 => s.ixrs.x1
  | .x2 => s.ixrs.x2
  | .x3 => s.ixrs.x3

/-- `IXR[x] <- v` (R20). -/
def State.setIxr (x : IndexReg) (v : Word) (s : State) : State :=
  match x with
  | .x1 => { s with ixrs := { s.ixrs with x1 := v } }
  | .x2 => { s with ixrs := { s.ixrs with x2 := v } }
  | .x3 => { s with ixrs := { s.ixrs with x3 := v } }

/-- The floating-point registers that exist (R21). -/
inductive FloatReg where
  | f0
  | f1
deriving DecidableEq, Repr

/-- The floating-point register a selector names; 2 and 3 name none (30_encoding.md R80). -/
def FloatReg.ofSelector (r : BitVec 2) : Option FloatReg :=
  if r = 0 then some .f0 else if r = 1 then some .f1 else none

/-- FR[f] (R21). -/
def State.fr (s : State) (f : FloatReg) : Word :=
  match f with
  | .f0 => s.frs.f0
  | .f1 => s.frs.f1

/-- `FR[f] <- v` (R21). -/
def State.setFr (f : FloatReg) (v : Word) (s : State) : State :=
  match f with
  | .f0 => { s with frs := { s.frs with f0 := v } }
  | .f1 => { s with frs := { s.frs with f1 := v } }

/-- CC[k], in the order OVERFLOW, UNDERFLOW, DIVZERO, EQUAL (R22). -/
def State.ccBit (s : State) (k : BitVec 2) : Bool :=
  if k = 0 then s.cc.overflow else if k = 1 then s.cc.underflow else if k = 2 then s.cc.divZero else s.cc.equal

/-- The advanced PC, that is `pc` of 00_scope.md R15: the address of the instruction plus 1. A PC that is unset,
which no executing instruction sees, reads as 0 (log 19). -/
def State.nextPc (s : State) : Nat := s.pc.getD 0

/-- `ia`, the address the executing instruction was fetched from (00_scope.md R15). -/
def State.instrAddr (s : State) : Nat := s.nextPc - 1

/-! ## Data access: always through the cache (00_scope.md R6, R14) -/

/-- `MemRead(a)`: the value and the state it leaves (20_memory.md R55). -/
def State.memRead (a : Address) (s : State) : Word × State := s.cacheLoad a

/-- `MemWrite(a, v)` (20_memory.md R56). -/
def State.memWrite (a : Address) (v : Word) (s : State) : State := s.cacheStore a v

/-! ## How an instruction ends -/

/-- `icount <- icount + 1` (40_execution_cycle.md R104). -/
def State.counted (s : State) : State := { s with icount := s.icount + 1 }

/-- The instruction completes: icount counts it (40_execution_cycle.md R104). -/
def State.completed (s : State) : Result := .next s.counted

/-- A fault record appended and the machine halted; everything else stays as committed
(40_execution_cycle.md R108). -/
def State.recordFault (e : Fault) (address : Option Nat) (s : State) : State :=
  { s with
    faults := s.faults ++ [{ error := e, address := address, word := s.ir }]
    runState := .halted }

/-- Taking a fault inside an instruction: the record holds ia and the IR (40_execution_cycle.md R108). There is no
vector, no saved register and no return instruction: a later Run or Step continues at ia + 1
(60_exceptions.md R181, R182). -/
def State.takeFault (e : Fault) (s : State) : State := s.recordFault e (s.pc.map (· - 1))

/-- `raise E`: the instruction is aborted and the machine goes on as R108 says (40_execution_cycle.md R108). -/
def State.raise (e : Fault) (s : State) : Result := .next (s.takeFault e)

/-- Taking a refusal: the mark is set and the machine halted, nothing else changes; the reason is not recorded
(40_execution_cycle.md R110; log 4). -/
def State.takeRefusal (_reason : Refusal) (s : State) : State :=
  { s with refused := true, runState := .halted }

/-- `refuse(reason)` (40_execution_cycle.md R110). -/
def State.refuse (reason : Refusal) (s : State) : Result := .next (s.takeRefusal reason)

end Sys2Proof.Machine
end

