-- ==== Sys2Proof/Machine/Flags.lean ====
section
/-! DEFINITION. The condition codes and Carry: when each is written and with what (spec/10_state.md R23, R24). -/

namespace Sys2Proof.Machine

/-- AMR's overflow: the operands share a sign and the result's differs (42_arithmetic.md R121). -/
def addOverflows (a b res : Word) : Bool := sign a == sign b && sign res != sign a

/-- SMR's and SIR's underflow: the operands differ in sign and the result's differs from the minuend's
(42_arithmetic.md R122, R124). -/
def subUnderflows (a b res : Word) : Bool := sign a != sign b && sign res != sign a

/-- OVERFLOW set when the condition holds, else left as it is (42_arithmetic.md R120). -/
def State.noteOverflow (cond : Bool) (s : State) : State :=
  { s with cc := { s.cc with overflow := s.cc.overflow || cond } }

/-- UNDERFLOW set when the condition holds, else left as it is (42_arithmetic.md R120). -/
def State.noteUnderflow (cond : Bool) (s : State) : State :=
  { s with cc := { s.cc with underflow := s.cc.underflow || cond } }

/-- `CC.DIVZERO <- 1` (44_register_register.md R146). -/
def State.setDivZero (s : State) : State := { s with cc := { s.cc with divZero := true } }

/-- `CC.EQUAL <- v` (45_shift_rotate.md R153). -/
def State.assignEqual (v : Bool) (s : State) : State := { s with cc := { s.cc with equal := v } }

/-- `Carry <- v` (45_shift_rotate.md R153, R154). -/
def State.assignCarry (v : Bool) (s : State) : State := { s with carry := v }

/-- The new EQUAL of TRR from the old one and whether the operands are equal (44_register_register.md R147). -/
def trrEqual (mode : TrrEqualMode) (old eq : Bool) : Bool :=
  match mode with
  | .setOnly => old || eq
  | .assign => eq

end Sys2Proof.Machine
end

