-- ==== Sys2Proof/Machine/Operands.lean ====
section
/-! DEFINITION. Operand forms: address validation, effective-address resolution and the selector checks
(spec/20_memory.md R66 to R70, spec/30_encoding.md R94). -/

namespace Sys2Proof.Machine

/-- `CheckAddr(a)`: the bounds test, then the protected-region test (20_memory.md R67). -/
def checkAddr (a : Nat) : Except Fault Address :=
  if memorySize ≤ a then .error .addressOutOfRange
  else if a ≤ 5 then .error .illegalReservedAccess
  else .ok (BitVec.ofNat 11 a)

/-- The direct field plus the selected index register, read as unsigned and not masked (20_memory.md R68). -/
def State.indexedAddress (s : State) (ix : BitVec 2) (addr : BitVec 5) : Nat :=
  match IndexReg.ofSelector ix with
  | none => addr.toNat
  | some x => addr.toNat + (s.ixr x).toNat

/-- `EA(R, IX, I, ADDR)`: the address or the error, and the state the pointer read leaves
(20_memory.md R68, R69). R plays no part. -/
def State.resolveEA (ix : BitVec 2) (ind : Bool) (addr : BitVec 5) (s : State) : Except Fault Address × State :=
  match checkAddr (s.indexedAddress ix addr) with
  | .error e => (.error e, s)
  | .ok a =>
    if ind then (checkAddr (lowAddress (s.memRead a).1).toNat, (s.memRead a).2)
    else (.ok a, s)

/-- The rest of an instruction after EA resolution; an error is raised with the state resolution leaves. -/
def withEA (ix : BitVec 2) (ind : Bool) (addr : BitVec 5) (s : State) (k : Address → State → Result) : Result :=
  match s.resolveEA ix ind addr with
  | (.ok ea, t) => k ea t
  | (.error e, t) => t.raise e

/-- The rest of an instruction after the FR selector check (30_encoding.md R94). -/
def withFloatReg (r : BitVec 2) (s : State) (k : FloatReg → Result) : Result :=
  match FloatReg.ofSelector r with
  | some f => k f
  | none => s.raise .badRegisterSelector

/-- The rest of an instruction after the index-target check of LDX and STX (30_encoding.md R94). -/
def withIndexReg (ix : BitVec 2) (s : State) (k : IndexReg → Result) : Result :=
  match IndexReg.ofSelector ix with
  | some x => k x
  | none => s.raise .badIndexRegister

/-- RX and RY both name the even register of a pair (30_encoding.md R94). -/
def pairSelectors (rx ry : BitVec 2) : Bool := (rx == 0 || rx == 2) && (ry == 0 || ry == 2)

/-- The rest of MLT or DVD after the pair check (30_encoding.md R94). -/
def withPairs (rx ry : BitVec 2) (s : State) (k : Result) : Result :=
  if pairSelectors rx ry then k else s.raise .badRegisterSelector

/-- The index selector that LDX and STX give to EA resolution: the target's own under
`LDX_EA_INDEXED = true`, none under `false` (41_transfer.md R117, R118). -/
def transferIndex (indexed : Bool) (ix : BitVec 2) : BitVec 2 := if indexed then ix else 0

end Sys2Proof.Machine
end

