-- ==== Sys2Proof/Machine/Arithmetic.lean ====
section
/-! DEFINITION. Memory and immediate arithmetic (spec/42_arithmetic.md R119 to R124). -/

namespace Sys2Proof.Machine

/-- mask16(a + b) (R119). -/
def sumWord (a b : Word) : Word := a + b

/-- mask16(a - b) (R119). -/
def differenceWord (a b : Word) : Word := a - b

/-- A 5-bit immediate as a Word, zero-extended (30_encoding.md R86). -/
def immediateWord (immed : BitVec 5) : Word := immed.setWidth 16

/-- AMR: the sum replaces GPR[R]; OVERFLOW is set if it overflows (R121). -/
def execAmr (r ix : BitVec 2) (ind : Bool) (addr : BitVec 5) (s : State) : Result :=
  withEA ix ind addr s fun ea s =>
    let a := s.gpr r
    let m := s.memRead ea
    let res := sumWord a m.1
    ((m.2.setGpr r res).noteOverflow (addOverflows a m.1 res)).completed

/-- SMR: the difference replaces GPR[R]; UNDERFLOW is set if it underflows (R122). -/
def execSmr (r ix : BitVec 2) (ind : Bool) (addr : BitVec 5) (s : State) : Result :=
  withEA ix ind addr s fun ea s =>
    let a := s.gpr r
    let m := s.memRead ea
    let res := differenceWord a m.1
    ((m.2.setGpr r res).noteUnderflow (subUnderflows a m.1 res)).completed

/-- AIR: adds the immediate; 0 is a no-op; no flag (R123). -/
def execAir (r : BitVec 2) (immed : BitVec 5) (s : State) : Result :=
  if immed = 0 then s.completed
  else (s.setGpr r (sumWord (s.gpr r) (immediateWord immed))).completed

/-- SIR: subtracts the immediate; 0 is a no-op; UNDERFLOW by the SMR rule (R124). -/
def execSir (r : BitVec 2) (immed : BitVec 5) (s : State) : Result :=
  if immed = 0 then s.completed
  else
    let a := s.gpr r
    let b := immediateWord immed
    let res := differenceWord a b
    ((s.setGpr r res).noteUnderflow (subUnderflows a b res)).completed

end Sys2Proof.Machine
end

