-- ==== Sys2Proof/Machine/Predictor.lean ====
section
/-! DEFINITION. The branch predictor (spec/43_branches.md R136 to R143). -/

namespace Sys2Proof.Machine

/-- The entry of a branch address: `branch_address & 0x7F` (R136). -/
def bhtIndex (a : Nat) : Fin 128 := Fin.ofNat 128 a

/-- `BHT[a & 0x7F]` (R136). -/
def State.counter (s : State) (a : Nat) : BitVec 2 := s.bht[bhtIndex a]

/-- `Predict(a)`: the counter's high bit (R137). -/
def State.predict (s : State) (a : Nat) : Bool := (s.counter a).msb

/-- A 2-bit counter moved one towards taken or not taken, saturating at 3 and 0 (R138). -/
def saturate (taken : Bool) (c : BitVec 2) : BitVec 2 :=
  if taken then (if c = 3 then 3 else c + 1) else (if c = 0 then 0 else c - 1)

/-- `Update(a, taken)` (R138). -/
def State.updateCounter (a : Nat) (taken : Bool) (s : State) : State :=
  { s with bht := s.bht.set (bhtIndex a) (saturate taken (s.counter a)) }

/-- `Record(correct)` (R139). -/
def State.recordPrediction (hit : Bool) (s : State) : State :=
  { s with predictions := s.predictions + 1, correct := s.correct + hit.toNat }

/-- `PredictorProtocol(ia, taken, target, actual)`: predict, record whether the predicted next PC is the actual
one, update (R143). -/
def State.predictorProtocol (ia : Nat) (taken : Bool) (target actual : Nat) (s : State) : State :=
  let predicted := if s.predict ia then target else ia + 1
  (s.recordPrediction (decide (predicted = actual))).updateCounter ia taken

end Sys2Proof.Machine
end

