-- ==== Sys2Proof/Machine/Branch.lean ====
section
/-! DEFINITION. The branch instructions (spec/43_branches.md R125 to R135). -/

namespace Sys2Proof.Machine

/-- `Commit(ia, taken, target)`: the predictor protocol, then the actual next PC (R127); the branch completes. -/
def commit (taken : Bool) (target : Nat) (s : State) : Result :=
  let actual := if taken then target else s.nextPc
  State.completed { s.predictorProtocol s.instrAddr taken target actual with pc := some actual }

/-- JZ: taken when GPR[R] = 0 (R128). -/
def execJz (r ix : BitVec 2) (ind : Bool) (addr : BitVec 5) (s : State) : Result :=
  withEA ix ind addr s fun ea s => commit (s.gpr r == 0) ea.toNat s

/-- JNE: taken when GPR[R] ≠ 0 (R129). -/
def execJne (r ix : BitVec 2) (ind : Bool) (addr : BitVec 5) (s : State) : Result :=
  withEA ix ind addr s fun ea s => commit (s.gpr r != 0) ea.toNat s

/-- JCC: taken when CC[R] = 1 (R130). -/
def execJcc (cc ix : BitVec 2) (ind : Bool) (addr : BitVec 5) (s : State) : Result :=
  withEA ix ind addr s fun ea s => commit (s.ccBit cc) ea.toNat s

/-- JMA: always taken (R131). -/
def execJma (ix : BitVec 2) (ind : Bool) (addr : BitVec 5) (s : State) : Result :=
  withEA ix ind addr s fun ea s => commit true ea.toNat s

/-- JSR: GPR[3] takes the advanced PC; always taken (R132). -/
def execJsr (ix : BitVec 2) (ind : Bool) (addr : BitVec 5) (s : State) : Result :=
  withEA ix ind addr s fun ea s => commit true ea.toNat (s.setGpr 3 (mask16 s.nextPc))

/-- RFS: returns to GPR[3] if it is an address, with GPR[0] the immediate (R133). -/
def execRfs (immed : BitVec 5) (s : State) : Result :=
  let t := (s.gpr 3).toNat
  if memorySize ≤ t then s.raise .addressOutOfRange
  else commit true t (s.setGpr 0 (immed.setWidth 16))

/-- SOB: decrements GPR[R]; taken when the result is positive as a signed word (R134). -/
def execSob (r ix : BitVec 2) (ind : Bool) (addr : BitVec 5) (s : State) : Result :=
  withEA ix ind addr s fun ea s =>
    let v := s.gpr r - 1
    commit (decide (0 < s16 v)) ea.toNat (s.setGpr r v)

/-- JGE: taken when GPR[R] ≥ 0 as a signed word (R135). -/
def execJge (r ix : BitVec 2) (ind : Bool) (addr : BitVec 5) (s : State) : Result :=
  withEA ix ind addr s fun ea s => commit (decide (0 ≤ s16 (s.gpr r))) ea.toNat s

end Sys2Proof.Machine
end

