-- ==== Sys2Proof/Machine/FloatVector.lean ====
section
/-! DEFINITION. Floating point and vectors (spec/46_float_vector.md R155 to R166). -/

namespace Sys2Proof.Machine

/-! ## The format (R155, R156; log 15) -/

/-- The exponent field e = w[14:8] (R155). -/
def exponentField (w : Word) : BitVec 7 := w.extractLsb' 8 7

/-- The significand M = 256 + w[7:0], in 256..511 (R155). -/
def significand (w : Word) : Nat := 256 + (w.extractLsb' 0 8).toNat

/-- The integer X(e) an exponent field stands for (R156). -/
def exponentValue (order : FpExpOrder) (e : BitVec 7) : Int :=
  match order with
  | .unsigned => e.toNat
  | .signMagnitude => if e.msb then -((e.extractLsb' 0 6).toNat : Int) else ((e.extractLsb' 0 6).toNat : Int)
  | .twosComplement => e.toInt

/-- Whether an exponent is in the legal range (R156). -/
def exponentLegal (order : FpExpOrder) (x : Int) : Bool :=
  match order with
  | .unsigned => decide (0 ≤ x) && decide (x ≤ 127)
  | .signMagnitude => decide (-63 ≤ x) && decide (x ≤ 63)
  | .twosComplement => decide (-64 ≤ x) && decide (x ≤ 63)

/-- The exponent field enc(X) of a legal exponent (R156). -/
def exponentEncode (order : FpExpOrder) (x : Int) : BitVec 7 :=
  match order with
  | .unsigned => BitVec.ofInt 7 x
  | .signMagnitude => if x < 0 then BitVec.ofInt 7 (64 - x) else BitVec.ofInt 7 x
  | .twosComplement => BitVec.ofInt 7 x

/-- Bits [14:0] are all 0: an operand or a result the source gives no meaning (R157 (a), (d)). -/
def isFloatZero (w : Word) : Bool := w.extractLsb' 0 15 == 0

/-! ## Addition and subtraction (R158) -/

/-- "while M > 511: M <- floor(M / 2); E <- E + 1" with fuel; one turn is enough for a sum of two aligned
significands. -/
def renormDown : Nat → Nat → Int → Nat × Int
  | 0, m, e => (m, e)
  | fuel + 1, m, e => if 511 < m then renormDown fuel (m / 2) (e + 1) else (m, e)

/-- "while M < 256: M <- M * 2; E <- E - 1" with fuel; eight turns are enough for M ≥ 1. -/
def renormUp : Nat → Nat → Int → Nat × Int
  | 0, m, e => (m, e)
  | fuel + 1, m, e => if m < 256 then renormUp fuel (m * 2) (e - 1) else (m, e)

/-- Renormalisation into 256..511 (R158). -/
def renormalise (m : Nat) (e : Int) : Nat × Int :=
  let d := renormDown 1 m e
  renormUp 8 d.1 d.2

/-- The exact signed sum of the aligned significands, and their common exponent (R158). -/
def alignedSum (order : FpExpOrder) (a b : Word) (negateB : Bool) : Int × Int :=
  let ea := exponentValue order (exponentField a)
  let eb := exponentValue order (exponentField b)
  let ma := if eb ≤ ea then significand a else significand a / 2 ^ (eb - ea).toNat
  let mb := if eb ≤ ea then significand b / 2 ^ (ea - eb).toNat else significand b
  let sa : Int := if sign a then -(ma : Int) else ma
  let sb : Int := if sign b != negateB then -(mb : Int) else mb
  (sa + sb, if eb ≤ ea then ea else eb)

/-- The word of sign `neg`, exponent `e` and significand `m` in 256..511 (R158). -/
def floatWord (order : FpExpOrder) (neg : Bool) (e : Int) (m : Nat) : Word :=
  BitVec.ofBool neg ++ exponentEncode order e ++ BitVec.ofNat 8 (m - 256)

/-- `FPAddCore(a, b, negate_b)` (R158), refused in the four cases of R157. -/
def fpAddCore (order : FpExpOrder) (a b : Word) (negateB : Bool) : Except Refusal Word :=
  if isFloatZero a || isFloatZero b then .error .floatingPointCorner
  else
    let sum := alignedSum order a b negateB
    if sum.1 = 0 then .error .floatingPointCorner
    else
      let n := renormalise sum.1.natAbs sum.2
      if !exponentLegal order n.2 then .error .floatingPointCorner
      else if exponentEncode order n.2 = 0 ∧ n.1 = 256 then .error .floatingPointCorner
      else .ok (floatWord order (decide (sum.1 < 0)) n.2 n.1)

/-- FADD (`negateB` false) and FSUB (true) under an exponent reading (R159, R160). -/
def floatAdd (order : FpExpOrder) (negateB : Bool) (r ix : BitVec 2) (ind : Bool) (addr : BitVec 5) (s : State) :
    Result :=
  withFloatReg r s fun f =>
    withEA ix ind addr s fun ea s =>
      let m := s.memRead ea
      match fpAddCore order (s.fr f) m.1 negateB with
      | .ok w => (m.2.setFr f w).completed
      | .error why => m.2.refuse why

/-- FADD: `FR[R] <- FPAddCore(FR[R], MemRead(ea), false)` (R159). -/
def execFadd (r ix : BitVec 2) (ind : Bool) (addr : BitVec 5) (s : State) : Result :=
  floatAdd fpExpOrder false r ix ind addr s

/-- FSUB: `FR[R] <- FPAddCore(FR[R], MemRead(ea), true)` (R160). -/
def execFsub (r ix : BitVec 2) (ind : Bool) (addr : BitVec 5) (s : State) : Result :=
  floatAdd fpExpOrder true r ix ind addr s

/-- CNVRT: GPR[R] = 0 converts the word at EA to fixed into GPR[R], otherwise to float into FR[0]; the
conversions are free (R161; log 16). -/
def execCnvrt (r ix : BitVec 2) (ind : Bool) (addr : BitVec 5) (s : State) : Result :=
  withEA ix ind addr s fun ea s =>
    let m := s.memRead ea
    if s.gpr r = 0 then (m.2.setGpr r (Config.cnvrtToFixed m.1)).completed
    else (m.2.setFr .f0 (Config.cnvrtToFloat m.1)).completed

/-! ## Vectors (R162 to R164) -/

/-- The element operation of VADD (`negateB` false) and VSUB (true) (R163, R164). -/
def elementOp (elem : VecElemOp) (order : FpExpOrder) (negateB : Bool) (x y : Word) : Except Refusal Word :=
  match elem with
  | .int16Wrap => .ok (if negateB then x - y else x + y)
  | .fp => fpAddCore order x y negateB
  | .refuse => .error .vectorElement

/-- Elements `i` to `i + n - 1`, in ascending order, each read after the previous write (R162); the vectors start
at `p1` and `p2`. -/
def vectorLoop (op : Word → Word → Except Refusal Word) (p1 p2 : Nat) : Nat → Nat → State → Result
  | 0, _, s => s.completed
  | n + 1, i, s =>
    match checkAddr (p1 + i), checkAddr (p2 + i) with
    | .error e, _ => s.raise e
    | .ok _, .error e => s.raise e
    | .ok a1, .ok a2 =>
      let x := s.memRead a1
      let y := x.2.memRead a2
      match op x.1 y.1 with
      | .error why => y.2.refuse why
      | .ok v => vectorLoop op p1 p2 n (i + 1) (y.2.memWrite a1 v)

/-- `VecOp` under an element operation (R162); `VEC_ELEM_OP = refuse` refuses a vector that has an element, before
any element is touched (R163, R164; log 17). -/
def vectorOp (elem : VecElemOp) (order : FpExpOrder) (negateB : Bool) (r ix : BitVec 2) (ind : Bool)
    (addr : BitVec 5) (s : State) : Result :=
  withFloatReg r s fun f =>
    withEA ix ind addr s fun ea s =>
      match checkAddr (ea.toNat + 1) with
      | .error e => s.raise e
      | .ok ea1 =>
        let p1 := s.memRead ea
        let p2 := p1.2.memRead ea1
        let n := (s.fr f).toNat
        if elem = .refuse ∧ 0 < n then p2.2.refuse .vectorElement
        else
          vectorLoop (elementOp elem order negateB) (lowAddress p1.1).toNat (lowAddress p2.1).toNat n 0 p2.2

/-- VADD (R163). -/
def execVadd (r ix : BitVec 2) (ind : Bool) (addr : BitVec 5) (s : State) : Result :=
  vectorOp vecElemOp fpExpOrder false r ix ind addr s

/-- VSUB (R164). -/
def execVsub (r ix : BitVec 2) (ind : Bool) (addr : BitVec 5) (s : State) : Result :=
  vectorOp vecElemOp fpExpOrder true r ix ind addr s

/-! ## Transfers (R165, R166) -/

/-- LDFR: `FR[R] <- MemRead(ea)` (R165). -/
def execLdfr (r ix : BitVec 2) (ind : Bool) (addr : BitVec 5) (s : State) : Result :=
  withFloatReg r s fun f =>
    withEA ix ind addr s fun ea s =>
      let m := s.memRead ea
      (m.2.setFr f m.1).completed

/-- STFR: `MemWrite(ea, FR[R])` (R166). -/
def execStfr (r ix : BitVec 2) (ind : Bool) (addr : BitVec 5) (s : State) : Result :=
  withFloatReg r s fun f =>
    withEA ix ind addr s fun ea s => (s.memWrite ea (s.fr f)).completed

end Sys2Proof.Machine
end

