-- ==== Sys2Proof/Machine/InOut.lean ====
section
/-! DEFINITION. Console input and output, halt, inert words (spec/47_io_control.md R167 to R175). -/

namespace Sys2Proof.Machine

/-- The count of values an IN asks for: GPR[3] when it is positive as a signed word, else 20 (R168). -/
def inputCount (k : Word) : Nat := if s16 k ≤ 0 then 20 else (s16 k).toNat

/-- IN: records a PendingInput and waits; another device or a pending input is refused (R168). -/
def execInp (r : BitVec 2) (devid : BitVec 5) (s : State) : Result :=
  if devid ≠ 0 then s.refuse .inputDevice
  else if s.pending.isSome then s.refuse .inputPending
  else
    State.completed
      { s with
        pending := some { dest := r, base := s.gpr r, count := inputCount (s.gpr 3), resumeRun := decide (s.runState = .running) }
        runState := .waitingForInput }

/-- OUT: sends the guidance message on GPR[0] and GPR[3]; GPR[R] is not read; another device is refused
(R172). -/
def execOut (_r : BitVec 2) (devid : BitVec 5) (s : State) : Result :=
  if devid ≠ 1 then s.refuse .outputDevice
  else State.completed { s with status := s.status ++ [.guidance (s.gpr 0) (s.gpr 3)] }

/-- HLT: the run state becomes Halted (R174). -/
def execHlt (s : State) : Result := State.completed { s with runState := .halted }

/-- An inert word: logged, nothing else happens, the instruction counts (R175). -/
def execInert (w : Word) (s : State) : Result := State.completed { s with status := s.status ++ [.inert w] }

end Sys2Proof.Machine
end

