-- ==== Sys2Proof/Machine/RegReg.lean ====
section
/-! DEFINITION. The register-register instructions (spec/44_register_register.md R144 to R150). Operands are
read before any register is written (R144). -/

namespace Sys2Proof.Machine

/-- The odd register of the pair whose even register is `rx`. -/
def oddOf (rx : BitVec 2) : BitVec 2 := rx + 1

/-- The 32-bit product of two words, signed or unsigned (R145). -/
def product (signed : Bool) (a b : Word) : BitVec 32 :=
  if signed then BitVec.ofInt 32 (s16 a * s16 b) else BitVec.ofNat 32 (a.toNat * b.toNat)

/-- Bits [31:16] (R145). -/
def highWord (p : BitVec 32) : Word := p.extractLsb' 16 16

/-- Bits [15:0] (R145). -/
def lowWord (p : BitVec 32) : Word := p.extractLsb' 0 16

/-- MLT under either value of `MLT_SIGNED` (R145). -/
def multiply (signed : Bool) (rx ry : BitVec 2) (s : State) : Result :=
  withPairs rx ry s <|
    let p := product signed (s.gpr rx) (s.gpr ry)
    ((s.setGpr rx (highWord p)).setGpr (oddOf rx) (lowWord p)).completed

/-- MLT: the product in the pair RX, RX+1, high word first (R145). -/
def execMlt (rx ry : BitVec 2) (s : State) : Result := multiply mltSigned rx ry s

/-- The quotient truncated toward zero, as a Word (R146). -/
def quotient (a b : Word) : Word := mask16 ((s16 a).tdiv (s16 b))

/-- The remainder a - q*b, with the dividend's sign, as a Word (R146). -/
def remainder (a b : Word) : Word := mask16 (s16 a - (s16 a).tdiv (s16 b) * s16 b)

/-- DVD: quotient and remainder in the pair RX, RX+1; a zero divisor sets DIVZERO and raises
DivisionByZero (R146). -/
def execDvd (rx ry : BitVec 2) (s : State) : Result :=
  withPairs rx ry s <|
    let a := s.gpr rx
    let b := s.gpr ry
    if b = 0 then s.setDivZero.raise .divisionByZero
    else ((s.setGpr rx (quotient a b)).setGpr (oddOf rx) (remainder a b)).completed

/-- TRR under either value of `TRR_EQUAL_MODE` (R147). -/
def testEqual (mode : TrrEqualMode) (rx ry : BitVec 2) (s : State) : Result :=
  (s.assignEqual (trrEqual mode s.cc.equal (s.gpr rx == s.gpr ry))).completed

/-- TRR: sets EQUAL when the registers are equal (R147). -/
def execTrr (rx ry : BitVec 2) (s : State) : Result := testEqual trrEqualMode rx ry s

/-- AND: bitwise and into GPR[RX] (R148). -/
def execAnd (rx ry : BitVec 2) (s : State) : Result := (s.setGpr rx (s.gpr rx &&& s.gpr ry)).completed

/-- ORR: bitwise or into GPR[RX] (R149). -/
def execOrr (rx ry : BitVec 2) (s : State) : Result := (s.setGpr rx (s.gpr rx ||| s.gpr ry)).completed

/-- NOT: bitwise complement of GPR[RX] (R150). -/
def execNot (rx : BitVec 2) (s : State) : Result := (s.setGpr rx (~~~ (s.gpr rx))).completed

end Sys2Proof.Machine
end

