-- ==== Sys2Proof/Machine/Shift.lean ====
section
/-! DEFINITION. Shift and rotate (spec/45_shift_rotate.md R151 to R154). `al` is A/L (true logical), `lr` is
L/R (true left). -/

namespace Sys2Proof.Machine

/-- The shifted word, for a count 1..15 (R153). -/
def shiftResult (al lr : Bool) (n : Nat) (v : Word) : Word :=
  if lr then v <<< n else if al then v >>> n else v.sshiftRight n

/-- The last bit shifted out, for a count 1..15 (R153). -/
def shiftedOut (lr : Bool) (n : Nat) (v : Word) : Bool :=
  if lr then v.getLsbD (16 - n) else v.getLsbD (n - 1)

/-- SRC under either value of `SRC_ARITH_LEFT` (R153). -/
def shiftRegister (policy : SrcArithLeft) (r : BitVec 2) (al lr : Bool) (count : BitVec 4) (s : State) : Result :=
  let n := count.toNat
  if n = 0 then s.completed
  else if lr && !al && policy == .refuse then s.refuse .arithmeticLeftShift
  else
    let v := s.gpr r
    let res := shiftResult al lr n v
    (((s.setGpr r res).assignCarry (shiftedOut lr n v)).assignEqual (res == 0)).completed

/-- SRC: shift by count, Carry the last bit out, EQUAL from a zero result; count 0 is a no-op (R153). -/
def execSrc (r : BitVec 2) (al lr : Bool) (count : BitVec 4) (s : State) : Result :=
  shiftRegister srcArithLeft r al lr count s

/-- The plain 16-bit rotate (R154). -/
def rotateWord (lr : Bool) (n : Nat) (v : Word) : Word := if lr then v.rotateLeft n else v.rotateRight n

/-- The 17-bit ring Carry:v rotated (R154). -/
def rotateRing (lr : Bool) (n : Nat) (c : Bool) (v : Word) : BitVec 17 :=
  let ring : BitVec 17 := BitVec.ofBool c ++ v
  if lr then ring.rotateLeft n else ring.rotateRight n

/-- RRC under either value of `RRC_CARRY_AL` (R154). -/
def rotateRegister (carryAl : Bool) (r : BitVec 2) (al lr : Bool) (count : BitVec 4) (s : State) : Result :=
  let n := count.toNat
  let v := s.gpr r
  if n = 0 then s.completed
  else if al != carryAl then (s.setGpr r (rotateWord lr n v)).completed
  else
    let ring := rotateRing lr n s.carry v
    ((s.setGpr r (ring.setWidth 16)).assignCarry ring.msb).completed

/-- RRC: plain rotate, or rotate through Carry when A/L selects it; count 0 is a no-op (R154). -/
def execRrc (r : BitVec 2) (al lr : Bool) (count : BitVec 4) (s : State) : Result :=
  rotateRegister rrcCarryAl r al lr count s

end Sys2Proof.Machine
end

