-- ==== Sys2Proof/Machine/Transfer.lean ====
section
/-! DEFINITION. The transfer instructions (spec/41_transfer.md R113 to R118). -/

namespace Sys2Proof.Machine

/-- LDR: `GPR[R] <- MemRead(ea)` (R114). -/
def execLdr (r ix : BitVec 2) (ind : Bool) (addr : BitVec 5) (s : State) : Result :=
  withEA ix ind addr s fun ea s =>
    let m := s.memRead ea
    (m.2.setGpr r m.1).completed

/-- STR: `MemWrite(ea, GPR[R])` (R115). -/
def execStr (r ix : BitVec 2) (ind : Bool) (addr : BitVec 5) (s : State) : Result :=
  withEA ix ind addr s fun ea s => (s.memWrite ea (s.gpr r)).completed

/-- LDA: `GPR[R] <- ea`, zero-extended (R116). -/
def execLda (r ix : BitVec 2) (ind : Bool) (addr : BitVec 5) (s : State) : Result :=
  withEA ix ind addr s fun ea s => (s.setGpr r (ea.setWidth 16)).completed

/-- LDX under either reading of `LDX_EA_INDEXED` (R117). -/
def loadIndex (indexed : Bool) (ix : BitVec 2) (ind : Bool) (addr : BitVec 5) (s : State) : Result :=
  withIndexReg ix s fun x =>
    withEA (transferIndex indexed ix) ind addr s fun ea s =>
      let m := s.memRead ea
      (m.2.setIxr x m.1).completed

/-- LDX: `IXR[IX] <- MemRead(ea)` (R117). -/
def execLdx (ix : BitVec 2) (ind : Bool) (addr : BitVec 5) (s : State) : Result :=
  loadIndex ldxEaIndexed ix ind addr s

/-- STX under either reading of `LDX_EA_INDEXED` (R118). -/
def storeIndex (indexed : Bool) (ix : BitVec 2) (ind : Bool) (addr : BitVec 5) (s : State) : Result :=
  withIndexReg ix s fun x =>
    withEA (transferIndex indexed ix) ind addr s fun ea s => (s.memWrite ea (s.ixr x)).completed

/-- STX: `MemWrite(ea, IXR[IX])` (R118). -/
def execStx (ix : BitVec 2) (ind : Bool) (addr : BitVec 5) (s : State) : Result :=
  storeIndex ldxEaIndexed ix ind addr s

end Sys2Proof.Machine
end

