-- ==== Sys2Proof/Syntax.lean ====
section
/-! DEFINITION. The instruction syntax: one constructor per row of spec/opcode_table.json, with the
fields spec/30_encoding.md R78 to R87 give it, at the width the encoding gives each. A bit that a format
ignores is no field (R91). Selector constraints are checked when an instruction executes, not here (R94). -/

namespace Sys2Proof

/-- The 35 mnemonics of spec/opcode_table.json, in the order of 30_encoding.md R88. -/
inductive Mnemonic where
  | hlt | ldr | str | lda | amr | smr | air | sir
  | jz | jne | jcc | jma | jsr | rfs | sob | jge
  | mlt | dvd | trr | and | orr | not
  | src | rrc
  | fadd | fsub | vadd | vsub | cnvrt
  | ldx | stx | ldfr | stfr
  | inp | out
deriving DecidableEq, Repr

/-- Every mnemonic once, in the order of 30_encoding.md R88. -/
def Mnemonic.all : List Mnemonic :=
  [.hlt, .ldr, .str, .lda, .amr, .smr, .air, .sir,
   .jz, .jne, .jcc, .jma, .jsr, .rfs, .sob, .jge,
   .mlt, .dvd, .trr, .and, .orr, .not, .src, .rrc,
   .fadd, .fsub, .vadd, .vsub, .cnvrt, .ldx, .stx, .ldfr, .stfr, .inp, .out]

/-- The instructions. `r` selects a register (a condition-code bit in `jcc`), `ix` an index register,
`ind` is the indirect flag I, `addr` the direct field ADDR (30_encoding.md R86, R87). -/
inductive Instr where
  | hlt
  | ldr (r ix : BitVec 2) (ind : Bool) (addr : BitVec 5)
  | str (r ix : BitVec 2) (ind : Bool) (addr : BitVec 5)
  | lda (r ix : BitVec 2) (ind : Bool) (addr : BitVec 5)
  | amr (r ix : BitVec 2) (ind : Bool) (addr : BitVec 5)
  | smr (r ix : BitVec 2) (ind : Bool) (addr : BitVec 5)
  | air (r : BitVec 2) (immed : BitVec 5)
  | sir (r : BitVec 2) (immed : BitVec 5)
  | jz (r ix : BitVec 2) (ind : Bool) (addr : BitVec 5)
  | jne (r ix : BitVec 2) (ind : Bool) (addr : BitVec 5)
  | jcc (cc ix : BitVec 2) (ind : Bool) (addr : BitVec 5)
  | jma (ix : BitVec 2) (ind : Bool) (addr : BitVec 5)
  | jsr (ix : BitVec 2) (ind : Bool) (addr : BitVec 5)
  | rfs (immed : BitVec 5)
  | sob (r ix : BitVec 2) (ind : Bool) (addr : BitVec 5)
  | jge (r ix : BitVec 2) (ind : Bool) (addr : BitVec 5)
  | mlt (rx ry : BitVec 2)
  | dvd (rx ry : BitVec 2)
  | trr (rx ry : BitVec 2)
  | and (rx ry : BitVec 2)
  | orr (rx ry : BitVec 2)
  | not (rx : BitVec 2)
  | src (r : BitVec 2) (al lr : Bool) (count : BitVec 4)
  | rrc (r : BitVec 2) (al lr : Bool) (count : BitVec 4)
  | fadd (r ix : BitVec 2) (ind : Bool) (addr : BitVec 5)
  | fsub (r ix : BitVec 2) (ind : Bool) (addr : BitVec 5)
  | vadd (r ix : BitVec 2) (ind : Bool) (addr : BitVec 5)
  | vsub (r ix : BitVec 2) (ind : Bool) (addr : BitVec 5)
  | cnvrt (r ix : BitVec 2) (ind : Bool) (addr : BitVec 5)
  | ldx (ix : BitVec 2) (ind : Bool) (addr : BitVec 5)
  | stx (ix : BitVec 2) (ind : Bool) (addr : BitVec 5)
  | ldfr (r ix : BitVec 2) (ind : Bool) (addr : BitVec 5)
  | stfr (r ix : BitVec 2) (ind : Bool) (addr : BitVec 5)
  | inp (r : BitVec 2) (devid : BitVec 5)
  | out (r : BitVec 2) (devid : BitVec 5)
deriving DecidableEq, Repr

/-- The mnemonic an instruction is written with. -/
def Instr.mnemonic : Instr → Mnemonic
  | .hlt => .hlt
  | .ldr _ _ _ _ => .ldr
  | .str _ _ _ _ => .str
  | .lda _ _ _ _ => .lda
  | .amr _ _ _ _ => .amr
  | .smr _ _ _ _ => .smr
  | .air _ _ => .air
  | .sir _ _ => .sir
  | .jz _ _ _ _ => .jz
  | .jne _ _ _ _ => .jne
  | .jcc _ _ _ _ => .jcc
  | .jma _ _ _ => .jma
  | .jsr _ _ _ => .jsr
  | .rfs _ => .rfs
  | .sob _ _ _ _ => .sob
  | .jge _ _ _ _ => .jge
  | .mlt _ _ => .mlt
  | .dvd _ _ => .dvd
  | .trr _ _ => .trr
  | .and _ _ => .and
  | .orr _ _ => .orr
  | .not _ => .not
  | .src _ _ _ _ => .src
  | .rrc _ _ _ _ => .rrc
  | .fadd _ _ _ _ => .fadd
  | .fsub _ _ _ _ => .fsub
  | .vadd _ _ _ _ => .vadd
  | .vsub _ _ _ _ => .vsub
  | .cnvrt _ _ _ _ => .cnvrt
  | .ldx _ _ _ => .ldx
  | .stx _ _ _ => .stx
  | .ldfr _ _ _ _ => .ldfr
  | .stfr _ _ _ _ => .stfr
  | .inp _ _ => .inp
  | .out _ _ => .out

end Sys2Proof
end

