-- ==== Sys2Proof/Machine/Dispatch.lean ====
section
/-! DEFINITION. Dispatch: one arm per instruction (spec/40_execution_cycle.md R107). -/

namespace Sys2Proof.Machine

def exec (i : Instr) (s : State) : Host.Outcome State Fault Refusal :=
  match i with
  | .hlt => Sys2Proof.Machine.execHlt s
  | .ldr r ix ind addr => Sys2Proof.Machine.execLdr r ix ind addr s
  | .str r ix ind addr => Sys2Proof.Machine.execStr r ix ind addr s
  | .lda r ix ind addr => Sys2Proof.Machine.execLda r ix ind addr s
  | .amr r ix ind addr => Sys2Proof.Machine.execAmr r ix ind addr s
  | .smr r ix ind addr => Sys2Proof.Machine.execSmr r ix ind addr s
  | .air r immed => Sys2Proof.Machine.execAir r immed s
  | .sir r immed => Sys2Proof.Machine.execSir r immed s
  | .jz r ix ind addr => Sys2Proof.Machine.execJz r ix ind addr s
  | .jne r ix ind addr => Sys2Proof.Machine.execJne r ix ind addr s
  | .jcc cc ix ind addr => Sys2Proof.Machine.execJcc cc ix ind addr s
  | .jma ix ind addr => Sys2Proof.Machine.execJma ix ind addr s
  | .jsr ix ind addr => Sys2Proof.Machine.execJsr ix ind addr s
  | .rfs immed => Sys2Proof.Machine.execRfs immed s
  | .sob r ix ind addr => Sys2Proof.Machine.execSob r ix ind addr s
  | .jge r ix ind addr => Sys2Proof.Machine.execJge r ix ind addr s
  | .mlt rx ry => Sys2Proof.Machine.execMlt rx ry s
  | .dvd rx ry => Sys2Proof.Machine.execDvd rx ry s
  | .trr rx ry => Sys2Proof.Machine.execTrr rx ry s
  | .and rx ry => Sys2Proof.Machine.execAnd rx ry s
  | .orr rx ry => Sys2Proof.Machine.execOrr rx ry s
  | .not rx => Sys2Proof.Machine.execNot rx s
  | .src r al lr count => Sys2Proof.Machine.execSrc r al lr count s
  | .rrc r al lr count => Sys2Proof.Machine.execRrc r al lr count s
  | .fadd r ix ind addr => Sys2Proof.Machine.execFadd r ix ind addr s
  | .fsub r ix ind addr => Sys2Proof.Machine.execFsub r ix ind addr s
  | .vadd r ix ind addr => Sys2Proof.Machine.execVadd r ix ind addr s
  | .vsub r ix ind addr => Sys2Proof.Machine.execVsub r ix ind addr s
  | .cnvrt r ix ind addr => Sys2Proof.Machine.execCnvrt r ix ind addr s
  | .ldx ix ind addr => Sys2Proof.Machine.execLdx ix ind addr s
  | .stx ix ind addr => Sys2Proof.Machine.execStx ix ind addr s
  | .ldfr r ix ind addr => Sys2Proof.Machine.execLdfr r ix ind addr s
  | .stfr r ix ind addr => Sys2Proof.Machine.execStfr r ix ind addr s
  | .inp r devid => Sys2Proof.Machine.execInp r devid s
  | .out r devid => Sys2Proof.Machine.execOut r devid s

end Sys2Proof.Machine
end

