-- ==== Sys2Proof/Decode.lean ====
section
/-! DEFINITION. Decoding and encoding (spec/30_encoding.md). Every instruction is one 16-bit word (R76); the
opcode is its top six bits (R77); an opcode that selects no instruction is inert (R90, R93). Opcode numbers
are the parameter OPCODE_MAP (R89), whose default is the course table of R88 (log 7). -/

namespace Sys2Proof

/-! ## Fields of an instruction word (R77 to R86; positions: log 8) -/

/-- Bits [15:10] (R77). -/
def opcodeField (w : Word) : BitVec 6 := w.extractLsb' 10 6

/-- Bits [9:8]: R, or RX (R78, R82). -/
def rField (w : Word) : BitVec 2 := w.extractLsb' 8 2

/-- Bits [7:6]: IX, or RY (R78, R82). -/
def ixField (w : Word) : BitVec 2 := w.extractLsb' 6 2

/-- Bit 5: I (R78). -/
def iField (w : Word) : Bool := w.getLsbD 5

/-- Bits [4:0]: ADDR, IMMED or DEVID (R78, R81, R84). -/
def lowField (w : Word) : BitVec 5 := w.extractLsb' 0 5

/-- Bit 7: A/L, 1 logical (R83). -/
def alField (w : Word) : Bool := w.getLsbD 7

/-- Bit 6: L/R, 1 left (R83). -/
def lrField (w : Word) : Bool := w.getLsbD 6

/-- Bits [3:0]: the shift count; bit 4 of the count field is ignored (R83). -/
def countField (w : Word) : BitVec 4 := w.extractLsb' 0 4

/-! ## Opcode map -/

/-- `OPCODE_MAP`: a 6-bit opcode for each mnemonic (R89). -/
abbrev OpcodeMap := Mnemonic → BitVec 6

/-- The default `OPCODE_MAP`: the CS6461 course table (R88; log 7). -/
def courseOpcode : OpcodeMap
  | .hlt => 0
  | .ldr => 1
  | .str => 2
  | .lda => 3
  | .amr => 4
  | .smr => 5
  | .air => 6
  | .sir => 7
  | .jz => 8
  | .jne => 9
  | .jcc => 10
  | .jma => 11
  | .jsr => 12
  | .rfs => 13
  | .sob => 14
  | .jge => 15
  | .mlt => 16
  | .dvd => 17
  | .trr => 18
  | .and => 19
  | .orr => 20
  | .not => 21
  | .src => 25
  | .rrc => 26
  | .fadd => 27
  | .fsub => 28
  | .vadd => 29
  | .vsub => 30
  | .cnvrt => 31
  | .ldx => 33
  | .stx => 34
  | .ldfr => 40
  | .stfr => 41
  | .inp => 49
  | .out => 50

/-- The default of `HLT_MATCH` (R92; log 9). -/
def defaultHltMatch : HltMatch := .opcode

/-- The mnemonic an opcode selects under a map, if any (R77, R90). -/
def selectMnemonic (map : OpcodeMap) (op : BitVec 6) : Option Mnemonic :=
  Mnemonic.all.find? fun m => map m == op

/-! ## Decoding -/

/-- What a word decodes to: an instruction, or an inert opcode rejected by its number (R90, R93). -/
inductive Decoded where
  | instr (i : Instr)
  | inert (opcode : BitVec 6)
deriving DecidableEq, Repr

/-- The instruction a mnemonic's format reads from a word (R86, R87). -/
def instrOf (m : Mnemonic) (w : Word) : Instr :=
  match m with
  | .hlt => .hlt
  | .ldr => .ldr (rField w) (ixField w) (iField w) (lowField w)
  | .str => .str (rField w) (ixField w) (iField w) (lowField w)
  | .lda => .lda (rField w) (ixField w) (iField w) (lowField w)
  | .amr => .amr (rField w) (ixField w) (iField w) (lowField w)
  | .smr => .smr (rField w) (ixField w) (iField w) (lowField w)
  | .air => .air (rField w) (lowField w)
  | .sir => .sir (rField w) (lowField w)
  | .jz => .jz (rField w) (ixField w) (iField w) (lowField w)
  | .jne => .jne (rField w) (ixField w) (iField w) (lowField w)
  | .jcc => .jcc (rField w) (ixField w) (iField w) (lowField w)
  | .jma => .jma (ixField w) (iField w) (lowField w)
  | .jsr => .jsr (ixField w) (iField w) (lowField w)
  | .rfs => .rfs (lowField w)
  | .sob => .sob (rField w) (ixField w) (iField w) (lowField w)
  | .jge => .jge (rField w) (ixField w) (iField w) (lowField w)
  | .mlt => .mlt (rField w) (ixField w)
  | .dvd => .dvd (rField w) (ixField w)
  | .trr => .trr (rField w) (ixField w)
  | .and => .and (rField w) (ixField w)
  | .orr => .orr (rField w) (ixField w)
  | .not => .not (rField w)
  | .src => .src (rField w) (alField w) (lrField w) (countField w)
  | .rrc => .rrc (rField w) (alField w) (lrField w) (countField w)
  | .fadd => .fadd (rField w) (ixField w) (iField w) (lowField w)
  | .fsub => .fsub (rField w) (ixField w) (iField w) (lowField w)
  | .vadd => .vadd (rField w) (ixField w) (iField w) (lowField w)
  | .vsub => .vsub (rField w) (ixField w) (iField w) (lowField w)
  | .cnvrt => .cnvrt (rField w) (ixField w) (iField w) (lowField w)
  | .ldx => .ldx (ixField w) (iField w) (lowField w)
  | .stx => .stx (ixField w) (iField w) (lowField w)
  | .ldfr => .ldfr (rField w) (ixField w) (iField w) (lowField w)
  | .stfr => .stfr (rField w) (ixField w) (iField w) (lowField w)
  | .inp => .inp (rField w) (lowField w)
  | .out => .out (rField w) (lowField w)

/-- HLT recognition (R92): under `wholeWord` only the word 0x0000 is HLT and every other word with HLT's
opcode is inert. -/
def decodeHlt (hlt : HltMatch) (w : Word) : Decoded :=
  match hlt with
  | .opcode => .instr .hlt
  | .wholeWord => if w = 0 then .instr .hlt else .inert (opcodeField w)

/-- `decode(w)` under an opcode map and an HLT reading (R90): total on every word. -/
def decodeWith (map : OpcodeMap) (hlt : HltMatch) (w : Word) : Decoded :=
  match selectMnemonic map (opcodeField w) with
  | none => .inert (opcodeField w)
  | some m => if m = .hlt then decodeHlt hlt w else .instr (instrOf m w)

/-- `decode(w)` under the default parameters (R90). -/
def decode (w : Word) : Decoded := decodeWith courseOpcode defaultHltMatch w

/-! ## Encoding (R98): ignored bits are written as 0 -/

/-- Formats L, LX and F (R78 to R80): opcode, R, IX, I, ADDR. -/
def formatL (op : BitVec 6) (r ix : BitVec 2) (ind : Bool) (addr : BitVec 5) : Word :=
  op ++ r ++ ix ++ BitVec.ofBool ind ++ addr

/-- Formats I and IO (R81, R84): opcode, R, three ignored bits, IMMED or DEVID. -/
def formatI (op : BitVec 6) (r : BitVec 2) (low : BitVec 5) : Word :=
  op ++ r ++ (0 : BitVec 3) ++ low

/-- Format RR (R82): opcode, RX, RY, six ignored bits. -/
def formatRR (op : BitVec 6) (rx ry : BitVec 2) : Word :=
  op ++ rx ++ ry ++ (0 : BitVec 6)

/-- Format S (R83): opcode, R, A/L, L/R, an ignored bit, the count field with its ignored top bit. -/
def formatS (op : BitVec 6) (r : BitVec 2) (al lr : Bool) (count : BitVec 4) : Word :=
  op ++ r ++ BitVec.ofBool al ++ BitVec.ofBool lr ++ (0 : BitVec 2) ++ count

/-- Format N (R85): the opcode alone. -/
def formatN (op : BitVec 6) : Word := op ++ (0 : BitVec 10)

/-- The word of an instruction under an opcode map (R98). -/
def encodeWith (map : OpcodeMap) (i : Instr) : Word :=
  match i with
  | .hlt => formatN (map .hlt)
  | .ldr r ix ind addr => formatL (map .ldr) r ix ind addr
  | .str r ix ind addr => formatL (map .str) r ix ind addr
  | .lda r ix ind addr => formatL (map .lda) r ix ind addr
  | .amr r ix ind addr => formatL (map .amr) r ix ind addr
  | .smr r ix ind addr => formatL (map .smr) r ix ind addr
  | .air r immed => formatI (map .air) r immed
  | .sir r immed => formatI (map .sir) r immed
  | .jz r ix ind addr => formatL (map .jz) r ix ind addr
  | .jne r ix ind addr => formatL (map .jne) r ix ind addr
  | .jcc cc ix ind addr => formatL (map .jcc) cc ix ind addr
  | .jma ix ind addr => formatL (map .jma) 0 ix ind addr
  | .jsr ix ind addr => formatL (map .jsr) 0 ix ind addr
  | .rfs immed => formatI (map .rfs) 0 immed
  | .sob r ix ind addr => formatL (map .sob) r ix ind addr
  | .jge r ix ind addr => formatL (map .jge) r ix ind addr
  | .mlt rx ry => formatRR (map .mlt) rx ry
  | .dvd rx ry => formatRR (map .dvd) rx ry
  | .trr rx ry => formatRR (map .trr) rx ry
  | .and rx ry => formatRR (map .and) rx ry
  | .orr rx ry => formatRR (map .orr) rx ry
  | .not rx => formatRR (map .not) rx 0
  | .src r al lr count => formatS (map .src) r al lr count
  | .rrc r al lr count => formatS (map .rrc) r al lr count
  | .fadd r ix ind addr => formatL (map .fadd) r ix ind addr
  | .fsub r ix ind addr => formatL (map .fsub) r ix ind addr
  | .vadd r ix ind addr => formatL (map .vadd) r ix ind addr
  | .vsub r ix ind addr => formatL (map .vsub) r ix ind addr
  | .cnvrt r ix ind addr => formatL (map .cnvrt) r ix ind addr
  | .ldx ix ind addr => formatL (map .ldx) 0 ix ind addr
  | .stx ix ind addr => formatL (map .stx) 0 ix ind addr
  | .ldfr r ix ind addr => formatL (map .ldfr) r ix ind addr
  | .stfr r ix ind addr => formatL (map .stfr) r ix ind addr
  | .inp r devid => formatI (map .inp) r devid
  | .out r devid => formatI (map .out) r devid

/-- The word of an instruction under the course table (R88, R98). -/
def encode (i : Instr) : Word := encodeWith courseOpcode i

/-- The host's question on a row of spec/opcode_table.json: the instruction the decoder reads from the word
whose low `nbits` bits are `w`, every bit above them 0. One word, one 16-bit unit (R61, R76). -/
def decodeTableWord (nbits w : Nat) : Option Instr :=
  match decode (BitVec.ofNat 16 (w % 2 ^ nbits)) with
  | .instr i => some i
  | .inert _ => none

end Sys2Proof
end

