-- ==== Sys2Proof/Machine/Fetch.lean ====
section
/-! DEFINITION. Fetch, PC advance and decode (spec/40_execution_cycle.md R99, R104 to R106, spec/20_memory.md
R65). -/

namespace Sys2Proof.Machine

/-- The checks of `Fetch(a)` on the PC: unset, then out of range; the protected region does not apply
(20_memory.md R65). -/
def fetchAddress (pc : Option Nat) : Except Fault Address :=
  match pc with
  | none => .error .pcUnset
  | some a => if memorySize ≤ a then .error .addressOutOfRange else .ok (BitVec.ofNat 11 a)

/-- The state in which an instruction fetched from `a` executes: MAR and MBR latched by the array read, IR the
word, PC advanced without masking (40_execution_cycle.md R104, R106). -/
def State.advance (a : Address) (s : State) : State :=
  { s.arrayRead a with ir := some (s.word a), pc := some (a.toNat + 1) }

/-- What a `Step` does before any meaning runs. -/
inductive Cycle where
  /-- The step is over, in this state: a wait (R99) or a fetch that faults (R105, R108). -/
  | done (s : State)
  /-- Dispatch this instruction in this state (R107). -/
  | execute (i : Instr) (s : State)
  /-- Run this inert word in this state (47_io_control.md R175). -/
  | inert (w : Word) (s : State)
deriving DecidableEq, Repr

/-- `ExecuteOne` up to dispatch (R104). A fetch that raises changes nothing but what R108 says, and its record
holds the PC and the IR as they are (R105). -/
def State.fetchDecode (s : State) : Cycle :=
  match fetchAddress s.pc with
  | .error e => .done (s.recordFault e s.pc)
  | .ok a =>
    match decode (s.word a) with
    | .instr i => .execute i (s.advance a)
    | .inert _ => .inert (s.word a) (s.advance a)

/-- The `Step` command up to dispatch: nothing while the machine waits for input (R99). -/
def State.beginStep (s : State) : Cycle :=
  match s.runState with
  | .waitingForInput => .done s
  | .running => s.fetchDecode
  | .halted => s.fetchDecode

/-- The address the next step fetches from, made fetchable: the PC, or 0 where the PC is unset or out of
range. -/
def State.fetchSlot (s : State) : Address :=
  match fetchAddress s.pc with
  | .ok a => a
  | .error _ => 0

/-- `s` with the word `w` where the next step fetches: in the array, and in the cache's copy if one is resident,
so that the two agree (20_memory.md R49, R57); MAR and MBR are not touched. The PC and the run state change
only where no fetch would happen (log 6). -/
def State.placeWord (w : Word) (s : State) : State :=
  { s with
    mem := s.mem.write s.fetchSlot.toNat w
    cache := s.cache.refresh s.fetchSlot w
    pc := some s.fetchSlot.toNat
    runState := if s.runState = .waitingForInput then .halted else s.runState }

end Sys2Proof.Machine
end

