-- ==== Sys2Proof/Machine/Step.lean ====
section
/-! DEFINITION. One step: the `Step` command (spec/40_execution_cycle.md R99, R104; log 5). -/

namespace Sys2Proof.Machine

/-- The `Step` command: nothing while waiting for input, else one instruction (R99). -/
def step (s : State) : Host.Outcome State Fault Refusal :=
  match s.beginStep with
  | .done t => .next t
  | .execute i t => exec i t
  | .inert w t => execInert w t

/-- `s` with the instruction whose low `nbits` bits are `w` stored where `step` fetches next (log 6). -/
def State.withFetchWord (s : State) (nbits w : Nat) : State :=
  s.placeWord (BitVec.ofNat 16 (w % 2 ^ nbits))

end Sys2Proof.Machine
end

