-- ==== Sys2Proof/Machine/Commands.lean ====
section
/-! DEFINITION. The host's command port (spec/00_scope.md R7): every command, atomic, and what it answers. -/

namespace Sys2Proof.Machine

/-- Why a command is rejected: it fails and changes nothing (60_exceptions.md R177). -/
inductive Rejection where
  /-- `SetIXR(0, v)` (10_state.md R35; BadIndexRegister of 60_exceptions.md R176). -/
  | badIndexRegister
  /-- Malformed console text, or fewer values than asked for (47_io_control.md R169, R170). -/
  | malformedConsoleInput
  /-- A malformed load-file line (20_memory.md R47, R48). -/
  | malformedLoadFile
  /-- A panel command that needs a latch that is unset (20_memory.md R44, R45). -/
  | latchUnset
  /-- A console submission with no PendingInput (47_io_control.md R170). -/
  | noPendingInput
deriving DecidableEq, Repr

/-- The error code of a rejection (60_exceptions.md R176). The rejections of a panel command with an unset latch (20_memory.md
R44, R45) and of a submission that nothing waits for (47_io_control.md R170) name no error: they have no code. -/
def Rejection.code : Rejection → Option Nat
  | .badIndexRegister => some 4
  | .malformedConsoleInput => some 7
  | .malformedLoadFile => some 8
  | .latchUnset => none
  | .noPendingInput => none

/-- What a command answers: a rejection, or the outcome it ran to. -/
inductive Reply where
  | ran (o : Result)
  | rejected (why : Rejection)

/-- The commands (00_scope.md R7). -/
inductive Command where
  | setGpr (i : BitVec 2) (v : Int)
  | setIxr (i : BitVec 2) (v : Int)
  | setPc (v : Int)
  | setMar (v : Int)
  | setMbr (v : Int)
  | step
  | run
  | tick
  | halt
  | reset
  | panelLoad
  | panelStore
  | panelLoadPlus
  | panelStorePlus
  | loadWord (a w : Nat)
  | consoleSubmit (values : List Int)
deriving DecidableEq, Repr

/-- A command that succeeds in a state. -/
def accept (s : State) : Reply := .ran (.next s)

/-! ## Register writes (10_state.md R35, 20_memory.md R43) -/

/-- `SetIXR(i, v)`; `i = 0` is rejected (R35). -/
def commandSetIxr (i : BitVec 2) (v : Int) (s : State) : Reply :=
  match IndexReg.ofSelector i with
  | some x => accept (s.setIxr x (mask16 v))
  | none => .rejected .badIndexRegister

/-- `SetPC(v)` (R35). -/
def commandSetPc (v : Int) (s : State) : Reply := accept { s with pc := some (mask11 v).toNat }

/-- `SetMAR(v)` (R43). -/
def commandSetMar (v : Int) (s : State) : Reply := accept { s with mar := some (mask11 v) }

/-- `SetMBR(v)` (R43). -/
def commandSetMbr (v : Int) (s : State) : Reply := accept { s with mbr := some (mask16 v) }

/-! ## Run state (40_execution_cycle.md R99 to R103) -/

/-- `Run` (R100). -/
def commandRun (s : State) : State :=
  match s.runState with
  | .halted => { s with runState := .running }
  | .running => s
  | .waitingForInput => { s with pending := s.pending.map fun p => { p with resumeRun := true } }

/-- `Tick`: one step while Running, else nothing (R101). -/
def commandTick (s : State) : Result :=
  match s.runState with
  | .running => step s
  | .waitingForInput => .next s
  | .halted => .next s

/-- `Halt`: Halted from any state; a PendingInput stays, with resumeRun false (R102). -/
def commandHalt (s : State) : State :=
  { s with runState := .halted, pending := s.pending.map fun p => { p with resumeRun := false } }

/-- The step driver: at most `n` ticks, stopping when the run state leaves Running (R103, R111). -/
def driver : Nat → State → Result
  | 0, s => .next s
  | n + 1, s =>
    match s.runState with
    | .running =>
      match step s with
      | .next t => driver n t
      | .fault e => .fault e
      | .refused r => .refused r
    | .waitingForInput => .next s
    | .halted => .next s

/-! ## Front panel and load file (20_memory.md R44 to R49) -/

/-- MAR + 1 modulo 2048 (R46). -/
def State.incrementMar (s : State) : State := { s with mar := s.mar.map (· + 1) }

/-- `PanelLoad` with what follows it: the array word at MAR into MBR (R44). -/
def panelLoadThen (k : State → State) (s : State) : Reply :=
  match s.mar with
  | none => .rejected .latchUnset
  | some a => accept (k { s with mbr := some (s.word a) })

/-- `PanelStore` with what follows it: `DirectWrite(MAR, MBR)` (R45). -/
def panelStoreThen (k : State → State) (s : State) : Reply :=
  match s.mar, s.mbr with
  | some a, some v => accept (k (s.directWrite a v))
  | none, _ => .rejected .latchUnset
  | some _, none => .rejected .latchUnset

/-- `LoadWord(a, w)` (R47). -/
def commandLoadWord (a w : Nat) (s : State) : Reply :=
  if memorySize ≤ a ∨ 65535 < w then .rejected .malformedLoadFile
  else accept (s.directWrite (BitVec.ofNat 11 a) (BitVec.ofNat 16 w))

/-! ## Console submission (47_io_control.md R170, R171) -/

/-- The first address error of a console destination, ascending (R170). -/
def destinationError : Nat → Nat → Option Fault
  | _, 0 => none
  | a, n + 1 =>
    match checkAddr a with
    | .error e => some e
    | .ok _ => destinationError (a + 1) n

/-- The values written to memory through the cache, ascending from `a` (R170). -/
def writeValues : Nat → List Int → State → State
  | _, [], s => s
  | a, v :: vs, s => writeValues (a + 1) vs (s.memWrite (BitVec.ofNat 11 a) (mask16 v))

/-- The first value in the destination register (R170). A count of 0, which no IN asks for, writes none
(log 19). -/
def writeFirst (dest : BitVec 2) (values : List Int) (s : State) : State :=
  match values with
  | [] => s
  | v :: _ => s.setGpr dest (mask16 v)

/-- `ConsoleSubmit(values)` (R170). An address fault records the PC and IR current at the submission and
destroys PendingInput; a rejection changes nothing (R171). -/
def commandConsoleSubmit (values : List Int) (s : State) : Reply :=
  match s.pending with
  | none => .rejected .noPendingInput
  | some p =>
    if values.length < p.count then .rejected .malformedConsoleInput
    else
      match destinationError p.base.toNat p.count with
      | some e => accept { s.recordFault e s.pc with pending := none }
      | none =>
        let v := values.take p.count
        accept
          { writeValues p.base.toNat v (writeFirst p.dest v s) with
            pending := none
            runState := if p.resumeRun then .running else .halted }

/-! ## The port -/

/-- One command (00_scope.md R7). -/
def command (c : Command) (s : State) : Reply :=
  match c with
  | .setGpr i v => accept (s.setGpr i (mask16 v))
  | .setIxr i v => commandSetIxr i v s
  | .setPc v => commandSetPc v s
  | .setMar v => commandSetMar v s
  | .setMbr v => commandSetMbr v s
  | .step => .ran (step s)
  | .run => accept (commandRun s)
  | .tick => .ran (commandTick s)
  | .halt => accept (commandHalt s)
  | .reset => accept State.reset
  | .panelLoad => panelLoadThen id s
  | .panelStore => panelStoreThen id s
  | .panelLoadPlus => panelLoadThen State.incrementMar s
  | .panelStorePlus => panelStoreThen State.incrementMar s
  | .loadWord a w => commandLoadWord a w s
  | .consoleSubmit values => commandConsoleSubmit values s

end Sys2Proof.Machine
end

