-- ==== Sys2Proof/WellFormed.lean ====
section
/-! DEFINITION. The selector constraints of spec/30_encoding.md R87 and R94: an instruction that meets them
raises no BadRegisterSelector or BadIndexRegister and names a device the machine has. Every instruction of
`Instr`, well formed or not, is encodable and executes: an ill-formed one raises the error or makes the
refusal R94 names. -/

namespace Sys2Proof

/-- MLT and DVD take the register pairs (0,1) and (2,3) only (30_encoding.md R94). -/
def pairSelector (r : BitVec 2) : Bool := r == 0 || r == 2

/-- Only FR[0] and FR[1] exist (30_encoding.md R94). -/
def floatSelector (r : BitVec 2) : Bool := r == 0 || r == 1

/-- LDX and STX take the index registers 1..3 only (30_encoding.md R94). -/
def indexTarget (ix : BitVec 2) : Bool := ix != 0

/-- The checks of 30_encoding.md R94; no other selector value is illegal. -/
def WellFormed : Instr → Bool
  | .hlt => true
  | .ldr _ _ _ _ => true
  | .str _ _ _ _ => true
  | .lda _ _ _ _ => true
  | .amr _ _ _ _ => true
  | .smr _ _ _ _ => true
  | .air _ _ => true
  | .sir _ _ => true
  | .jz _ _ _ _ => true
  | .jne _ _ _ _ => true
  | .jcc _ _ _ _ => true
  | .jma _ _ _ => true
  | .jsr _ _ _ => true
  | .rfs _ => true
  | .sob _ _ _ _ => true
  | .jge _ _ _ _ => true
  | .mlt rx ry => pairSelector rx && pairSelector ry
  | .dvd rx ry => pairSelector rx && pairSelector ry
  | .trr _ _ => true
  | .and _ _ => true
  | .orr _ _ => true
  | .not _ => true
  | .src _ _ _ _ => true
  | .rrc _ _ _ _ => true
  | .fadd r _ _ _ => floatSelector r
  | .fsub r _ _ _ => floatSelector r
  | .vadd r _ _ _ => floatSelector r
  | .vsub r _ _ _ => floatSelector r
  | .cnvrt _ _ _ _ => true
  | .ldx ix _ _ => indexTarget ix
  | .stx ix _ _ => indexTarget ix
  | .ldfr r _ _ _ => floatSelector r
  | .stfr r _ _ _ => floatSelector r
  | .inp _ devid => devid == 0
  | .out _ devid => devid == 1

end Sys2Proof
end

