-- ==== Sys2Proof/Safety.lean ====
section
/-! DEFINITION. The terms claims use: the machine's invariants (spec/20_memory.md R57, spec/10_state.md R25,
R28), a clean state and the normal end of a run (spec/40_execution_cycle.md R110, R111), and which parts of
the state an instruction leaves alone. -/

namespace Sys2Proof.Machine

/-! ## Invariants -/

/-- A valid line's words are the memory words it caches (20_memory.md R57 (a)). -/
abbrev State.Coherent (s : State) : Prop :=
  ∀ i : Fin 16, s.cache.lines[i].valid = true →
    ∀ k : Fin 8, s.cache.lines[i].data[k] = s.word (blockWord s.cache.lines[i].tag k)

/-- No two valid lines have the same tag (20_memory.md R57 (b)). -/
abbrev Cache.DistinctTags (c : Cache) : Prop :=
  ∀ i j : Fin 16, c.lines[i].valid = true → c.lines[j].valid = true → c.lines[i].tag = c.lines[j].tag → i = j

/-- The recency order is a permutation of 0..15 (20_memory.md R57 (c)). -/
abbrev Cache.OrderPermutes (c : Cache) : Prop := c.order.Perm (List.finRange 16)

/-- The three cache invariants (20_memory.md R57). -/
abbrev State.CacheInv (s : State) : Prop :=
  s.Coherent ∧ s.cache.DistinctTags ∧ s.cache.OrderPermutes

/-- The PC is unset or 0..2048 (10_state.md R25). -/
abbrev State.PcInDomain (s : State) : Prop := ∀ a ∈ s.pc, a ≤ 2048

/-- PendingInput asks for at least one value and at most 65535 (10_state.md R28), is present while the machine
waits, and remembers to resume only while the machine waits (40_execution_cycle.md R100, R102). -/
abbrev State.PendingInv (s : State) : Prop :=
  (∀ p ∈ s.pending, 1 ≤ p.count ∧ p.count ≤ 65535 ∧ (s.runState ≠ .waitingForInput → p.resumeRun = false)) ∧
    (s.runState = .waitingForInput → s.pending.isSome = true)

/-- The invariant of every reachable state. -/
abbrev State.Inv (s : State) : Prop :=
  s.mem.wf = true ∧ s.CacheInv ∧ s.PcInDomain ∧ s.PendingInv ∧ s.correct ≤ s.predictions

/-! ## Runs -/

/-- No fault recorded and no refusal made: the premise of a claim about the hardware (40_execution_cycle.md
R110). -/
def State.Clean (s : State) : Prop := s.faults = [] ∧ s.refused = false

/-- A run from `s` ended normally in `t` (40_execution_cycle.md R111). -/
def EndedNormally (s t : State) : Prop := t.runState = .halted ∧ t.faults = s.faults ∧ t.refused = false

/-! ## What an instruction leaves alone -/

/-- The parts that only branches, IN, OUT, HLT, faults and refusals touch, and the IR. -/
structure SameControl (s t : State) : Prop where
  bht : t.bht = s.bht
  predictions : t.predictions = s.predictions
  correct : t.correct = s.correct
  runState : t.runState = s.runState
  pending : t.pending = s.pending
  faults : t.faults = s.faults
  refused : t.refused = s.refused
  status : t.status = s.status
  ir : t.ir = s.ir

/-- `t` is `s` after an instruction that completed (40_execution_cycle.md R104) and is no branch and no
control instruction: icount counts it, the PC keeps its advance. -/
structure CompletesInPlace (s t : State) : Prop extends SameControl s t where
  pc : t.pc = s.pc
  icount : t.icount = s.icount + 1

/-- The array, the cache and the latches are as they were. -/
structure SameMemorySide (s t : State) : Prop where
  mem : t.mem = s.mem
  cache : t.cache = s.cache
  mar : t.mar = s.mar
  mbr : t.mbr = s.mbr

/-- Every word of memory reads as it did. -/
def SameMemory (s t : State) : Prop := ∀ a : Nat, t.mem.read a = s.mem.read a

/-- Every word of memory but that at `a` reads as it did. -/
def SameMemoryBut (a : Address) (s t : State) : Prop := ∀ b : Nat, b ≠ a.toNat → t.mem.read b = s.mem.read b

/-- Every general register but `r` is as it was. -/
def SameGprsBut (r : BitVec 2) (s t : State) : Prop := ∀ q : BitVec 2, q ≠ r → t.gpr q = s.gpr q

/-- Index registers, FR, CC and Carry are as they were. -/
structure SameOtherRegs (s t : State) : Prop where
  ixrs : t.ixrs = s.ixrs
  frs : t.frs = s.frs
  cc : t.cc = s.cc
  carry : t.carry = s.carry

/-- `t` is `s` after an instruction that raised `e` without having written anything but what its reads left
in the cache and the latches (40_execution_cycle.md R108, R109). -/
structure Aborted (e : Fault) (s t : State) : Prop extends SameOtherRegs s t where
  gprs : t.gprs = s.gprs
  memory : SameMemory s t
  pc : t.pc = s.pc
  ir : t.ir = s.ir
  bht : t.bht = s.bht
  predictions : t.predictions = s.predictions
  correct : t.correct = s.correct
  pending : t.pending = s.pending
  refused : t.refused = s.refused
  status : t.status = s.status
  icount : t.icount = s.icount
  runState : t.runState = .halted
  faults : t.faults = s.faults ++ [{ error := e, address := s.pc.map (· - 1), word := s.ir }]

/-- `t` is `s` after a branch fetched from `ia` ended with outcome `taken` and target `target`: the next PC and
the predictor protocol in the words of 43_branches.md R127 and R136 to R143; nothing else but icount. -/
structure Branched (ia : Nat) (taken : Bool) (target : Nat) (s t : State) : Prop where
  pc : t.pc = some (if taken then target else ia + 1)
  predictions : t.predictions = s.predictions + 1
  correct : t.correct = s.correct +
    if (if 2 ≤ (s.counter ia).toNat then target else ia + 1) = (if taken then target else ia + 1) then 1 else 0
  counter : ∀ k : Nat, k < 128 → (t.counter k).toNat =
    if k = ia % 128 then (if taken then min ((s.counter k).toNat + 1) 3 else (s.counter k).toNat - 1)
    else (s.counter k).toNat
  runState : t.runState = s.runState
  pending : t.pending = s.pending
  faults : t.faults = s.faults
  refused : t.refused = s.refused
  status : t.status = s.status
  ir : t.ir = s.ir
  icount : t.icount = s.icount + 1
  memory : SameMemory s t

/-! ## Instructions by their operands -/

/-- IX, I and ADDR of an instruction that resolves an effective address (20_memory.md R71), with the index
selector that LDX and STX give to the resolution under the default `LDX_EA_INDEXED`. -/
def eaOperands : Instr → Option (BitVec 2 × Bool × BitVec 5)
  | .hlt => none
  | .ldr _ ix ind addr => some (ix, ind, addr)
  | .str _ ix ind addr => some (ix, ind, addr)
  | .lda _ ix ind addr => some (ix, ind, addr)
  | .amr _ ix ind addr => some (ix, ind, addr)
  | .smr _ ix ind addr => some (ix, ind, addr)
  | .air _ _ => none
  | .sir _ _ => none
  | .jz _ ix ind addr => some (ix, ind, addr)
  | .jne _ ix ind addr => some (ix, ind, addr)
  | .jcc _ ix ind addr => some (ix, ind, addr)
  | .jma ix ind addr => some (ix, ind, addr)
  | .jsr ix ind addr => some (ix, ind, addr)
  | .rfs _ => none
  | .sob _ ix ind addr => some (ix, ind, addr)
  | .jge _ ix ind addr => some (ix, ind, addr)
  | .mlt _ _ => none
  | .dvd _ _ => none
  | .trr _ _ => none
  | .and _ _ => none
  | .orr _ _ => none
  | .not _ => none
  | .src _ _ _ _ => none
  | .rrc _ _ _ _ => none
  | .fadd _ ix ind addr => some (ix, ind, addr)
  | .fsub _ ix ind addr => some (ix, ind, addr)
  | .vadd _ ix ind addr => some (ix, ind, addr)
  | .vsub _ ix ind addr => some (ix, ind, addr)
  | .cnvrt _ ix ind addr => some (ix, ind, addr)
  | .ldx ix ind addr => some (ix, ind, addr)
  | .stx ix ind addr => some (ix, ind, addr)
  | .ldfr _ ix ind addr => some (ix, ind, addr)
  | .stfr _ ix ind addr => some (ix, ind, addr)
  | .inp _ _ => none
  | .out _ _ => none

/-- The bits of a word that an instruction reads, from the encoding column of spec/opcode_table.json: the
opcode and the named fields (30_encoding.md R91). -/
def usedBits : Mnemonic → Word
  | .hlt => 0xFC00
  | .ldr | .str | .lda | .amr | .smr | .jz | .jne | .jcc | .sob | .jge => 0xFFFF
  | .fadd | .fsub | .vadd | .vsub | .cnvrt | .ldfr | .stfr => 0xFFFF
  | .jma | .jsr | .ldx | .stx => 0xFCFF
  | .air | .sir | .inp | .out => 0xFF1F
  | .rfs => 0xFC1F
  | .mlt | .dvd | .trr | .and | .orr => 0xFFC0
  | .not => 0xFF00
  | .src | .rrc => 0xFFCF

/-! ## Views of a state -/

/-- The state with the branch predictor forgotten (43_branches.md R142). -/
def State.forgetPredictor (s : State) : State :=
  { s with bht := Vector.replicate 128 1, predictions := 0, correct := 0 }

/-- The state with the cache and the latches forgotten (20_memory.md R42, R58). -/
def State.forgetCache (s : State) : State := { s with cache := Cache.empty, mar := none, mbr := none }

end Sys2Proof.Machine
end

