-- ==== Sys2Proof/Certificates/Slice0/Obligations.lean ====
section
/-! DEFINITION. The statements for the provers, each a numbered rule of the spec (basis 'stated') or a consequence of
its text (basis 'derived'). OBLIGATIONS.json lists them. -/

open Sys2Proof Sys2Proof.Machine

/-! ## Encoding -/

/-- For every injective opcode map with HLT at 0, either reading of `HLT_MATCH` and every instruction, decoding the
encoded word gives the instruction back. The course map is the default (log 7); the field positions are the spec's
decision D3 (log 8). -/
def Obligations.DecodeInvertsEncode : Prop :=
  ∀ (map : OpcodeMap), Function.Injective map → map .hlt = 0 →
    ∀ (hlt : HltMatch) (i : Instr), decodeWith map hlt (encodeWith map i) = .instr i

/-- The encoding function (30_encoding.md section 4): the four field layouts as numbers, and the word of each of the 35
instructions under any opcode map, 0 in every bit the instruction ignores: R of JMA, JSR, LDX, STX and RFS, RY of NOT, all
below HLT's opcode. The bit positions are the spec's decision D3, the course layout (log 8). -/
def Obligations.EncodedWordFollowsFormula : Prop :=
  (∀ (op : BitVec 6) (r ix : BitVec 2) (ind : Bool) (addr : BitVec 5),
    (formatL op r ix ind addr).toNat =
      op.toNat * 1024 + r.toNat * 256 + ix.toNat * 64 + ind.toNat * 32 + addr.toNat) ∧
  (∀ (op : BitVec 6) (r : BitVec 2) (low : BitVec 5),
    (formatI op r low).toNat = op.toNat * 1024 + r.toNat * 256 + low.toNat) ∧
  (∀ (op : BitVec 6) (rx ry : BitVec 2),
    (formatRR op rx ry).toNat = op.toNat * 1024 + rx.toNat * 256 + ry.toNat * 64) ∧
  (∀ (op : BitVec 6) (r : BitVec 2) (al lr : Bool) (count : BitVec 4),
    (formatS op r al lr count).toNat =
      op.toNat * 1024 + r.toNat * 256 + al.toNat * 128 + lr.toNat * 64 + count.toNat) ∧
  ∀ (map : OpcodeMap) (r ix : BitVec 2) (ind al lr : Bool) (low : BitVec 5) (count : BitVec 4),
    (∀ p ∈ [(Mnemonic.ldr, Instr.ldr), (Mnemonic.str, Instr.str), (Mnemonic.lda, Instr.lda), (Mnemonic.amr, Instr.amr),
      (Mnemonic.smr, Instr.smr), (Mnemonic.jz, Instr.jz), (Mnemonic.jne, Instr.jne), (Mnemonic.jcc, Instr.jcc),
      (Mnemonic.sob, Instr.sob), (Mnemonic.jge, Instr.jge), (Mnemonic.fadd, Instr.fadd),
      (Mnemonic.fsub, Instr.fsub), (Mnemonic.vadd, Instr.vadd), (Mnemonic.vsub, Instr.vsub),
      (Mnemonic.cnvrt, Instr.cnvrt), (Mnemonic.ldfr, Instr.ldfr), (Mnemonic.stfr, Instr.stfr)],
      (encodeWith map (p.2 r ix ind low)).toNat =
        (map p.1).toNat * 1024 + r.toNat * 256 + ix.toNat * 64 + ind.toNat * 32 + low.toNat) ∧
    (∀ p ∈ [(Mnemonic.jma, Instr.jma), (Mnemonic.jsr, Instr.jsr), (Mnemonic.ldx, Instr.ldx), (Mnemonic.stx, Instr.stx)],
      (encodeWith map (p.2 ix ind low)).toNat = (map p.1).toNat * 1024 + ix.toNat * 64 + ind.toNat * 32 + low.toNat) ∧
    (∀ p ∈ [(Mnemonic.air, Instr.air), (Mnemonic.sir, Instr.sir), (Mnemonic.inp, Instr.inp), (Mnemonic.out, Instr.out)],
      (encodeWith map (p.2 r low)).toNat = (map p.1).toNat * 1024 + r.toNat * 256 + low.toNat) ∧
    (encodeWith map (.rfs low)).toNat = (map .rfs).toNat * 1024 + low.toNat ∧
    (∀ p ∈ [(Mnemonic.mlt, Instr.mlt), (Mnemonic.dvd, Instr.dvd), (Mnemonic.trr, Instr.trr), (Mnemonic.and, Instr.and),
      (Mnemonic.orr, Instr.orr)],
      (encodeWith map (p.2 r ix)).toNat = (map p.1).toNat * 1024 + r.toNat * 256 + ix.toNat * 64) ∧
    (encodeWith map (.not r)).toNat = (map .not).toNat * 1024 + r.toNat * 256 ∧
    (∀ p ∈ [(Mnemonic.src, Instr.src), (Mnemonic.rrc, Instr.rrc)],
      (encodeWith map (p.2 r al lr count)).toNat =
        (map p.1).toNat * 1024 + r.toNat * 256 + al.toNat * 128 + lr.toNat * 64 + count.toNat) ∧
    (encodeWith map .hlt).toNat = (map .hlt).toNat * 1024

/-- Decoding is total and by opcode alone: under an injective map the mnemonic whose opcode the word holds gives the
instruction with that word's fields, HLT by the `HLT_MATCH` reading, and an opcode of no mnemonic is inert. -/
def Obligations.DecodeSelectsByOpcode : Prop :=
  ∀ (map : OpcodeMap), Function.Injective map → ∀ (hlt : HltMatch) (w : Word),
    (∀ m, map m = opcodeField w → m ≠ .hlt → decodeWith map hlt w = .instr (instrOf m w)) ∧
    (map .hlt = opcodeField w →
      decodeWith map .opcode w = .instr .hlt ∧
      decodeWith map .wholeWord w = if w = 0 then .instr .hlt else .inert (opcodeField w)) ∧
    ((∀ m, map m ≠ opcodeField w) → decodeWith map hlt w = .inert (opcodeField w))

/-- A bit that an instruction's encoding does not name is never read: two words that agree on the opcode and the named
fields decode to the same instruction (30_encoding.md section 3, "no encoding made illegal by a nonzero ignored bit",
decision D3, log 8; the mask is the table's encoding column). That HLT reads its opcode alone holds by the model's choice
of the default `HLT_MATCH = opcode` (decision D4, log 9). -/
def Obligations.UnusedBitsNeverMatter : Prop :=
  ∀ (m : Mnemonic) (v w : Word), opcodeField v = courseOpcode m → v &&& usedBits m = w &&& usedBits m →
    decode v = decode w

/-- Words the spec writes out decode to the instruction it writes beside them (95_test_vectors.md, E8 of section 1 for
0x67C6, sections 2.1 to 2.7 for the others). That 0x0123 is HLT holds by the model's choice of the default
`HLT_MATCH = opcode` (vector H2, log 9); the opcode numbers and field positions are those of logs 7 and 8. -/
def Obligations.SpecWordsDecode : Prop :=
  decode 0x050A = .instr (.ldr 1 0 false 10) ∧
  decode 0x0432 = .instr (.ldr 0 0 true 18) ∧
  decode 0x884A = .instr (.stx 1 false 10) ∧
  decode 0x1E06 = .instr (.sir 2 6) ∧
  decode 0x2B17 = .instr (.jcc 3 0 false 23) ∧
  decode 0x3405 = .instr (.rfs 5) ∧
  decode 0x4600 = .instr (.dvd 2 0) ∧
  decode 0x67C6 = .instr (.src 3 true true 6) ∧
  decode 0x64D0 = .instr (.src 0 true true 0) ∧
  decode 0x7114 = .instr (.fsub 1 0 false 20) ∧
  decode 0xC600 = .instr (.inp 2 0) ∧
  decode 0x0123 = .instr .hlt ∧
  decode 0x5800 = .inert 0o26

/-! ## Reset, steps and commands -/

/-- `Reset` in any state gives every element the value 70_reset_and_hazards.md R191 lists. -/
def Obligations.ResetAssignsEveryElement : Prop :=
  ∀ s : State, ∃ t : State, command .reset s = .ran (.next t) ∧
    (∀ r, t.gpr r = 0) ∧ (∀ x, t.ixr x = 0) ∧ (∀ f, t.fr f = 0) ∧ (∀ k, t.ccBit k = false) ∧ t.carry = false ∧
    t.pc = some 0 ∧ t.ir = some 0 ∧ t.mar = some 0 ∧ t.mbr = some 0 ∧
    (∀ a : Address, t.word a = 0) ∧
    (∀ i : Fin 16, t.cache.lines[i].valid = false ∧ t.cache.lines[i].tag = 0 ∧
      ∀ k : Fin 8, t.cache.lines[i].data[k] = 0) ∧
    t.cache.order = [0, 1, 2, 3, 4, 5, 6, 7, 8, 9, 10, 11, 12, 13, 14, 15] ∧
    (∀ a : Nat, t.counter a = 1) ∧ t.predictions = 0 ∧ t.correct = 0 ∧
    t.pending = none ∧ t.runState = .halted ∧ t.icount = 0 ∧ t.faults = [] ∧ t.refused = false

/-- The machine's invariant holds after Reset and at power-on. -/
def Obligations.InvariantHoldsInitially : Prop := State.reset.Inv ∧ State.powerOn.Inv

/-- A step of a machine that is not waiting, whose PC is an address holding an instruction's word, runs that
instruction in the state that the fetch leaves: IR the word, PC advanced, MAR and MBR latched by the array read (the
default `MARMBR_POLICY`, log 18), all else as it was. -/
def Obligations.StepRunsDecodedInstruction : Prop :=
  ∀ (s : State) (a : Address) (i : Instr), s.runState ≠ .waitingForInput → s.pc = some a.toNat →
    decode (s.word a) = .instr i →
    step s = exec i { s with ir := some (s.word a), pc := some (a.toNat + 1), mar := some a, mbr := some (s.word a) }

/-- A word whose opcode selects no instruction changes no register, flag, memory word or cache state; the PC keeps its
advance, the instruction counts and one status message is sent. -/
def Obligations.InertWordOnlyAdvances : Prop :=
  ∀ (s : State) (a : Address), s.runState ≠ .waitingForInput → s.pc = some a.toNat →
    (∀ m, courseOpcode m ≠ opcodeField (s.word a)) →
    ∃ t, step s = .next t ∧ t.gprs = s.gprs ∧ SameOtherRegs s t ∧ t.mem = s.mem ∧ t.cache = s.cache ∧
      t.pc = some (a.toNat + 1) ∧ t.ir = some (s.word a) ∧ t.icount = s.icount + 1 ∧
      (∃ m, t.status = s.status ++ [m]) ∧ t.runState = s.runState ∧ t.faults = s.faults ∧ t.refused = s.refused ∧
      t.pending = s.pending ∧ t.bht = s.bht ∧ t.predictions = s.predictions ∧ t.correct = s.correct

/-- A step while waiting for input does nothing; a step with the PC unset or past 2047 changes nothing but the fault
log and the run state, and its record holds the PC and the IR as they are (40_execution_cycle.md sections 1 and 2,
decisions D5, D6, D27). -/
def Obligations.StepWithoutFetch : Prop :=
  (∀ s : State, s.runState = .waitingForInput → step s = .next s) ∧
  (∀ s : State, s.runState ≠ .waitingForInput → s.pc = none →
    step s = .next { s with faults := s.faults ++ [⟨.pcUnset, none, s.ir⟩], runState := .halted }) ∧
  (∀ (s : State) (a : Nat), s.runState ≠ .waitingForInput → s.pc = some a → 2048 ≤ a →
    step s = .next { s with faults := s.faults ++ [⟨.addressOutOfRange, some a, s.ir⟩], runState := .halted })

/-- `Tick` performs one step exactly in `Running` and does nothing in the two other run states. -/
def Obligations.TickStepsOnlyWhileRunning : Prop :=
  ∀ s : State,
    (s.runState = .running → command .tick s = .ran (step s)) ∧
    (s.runState = .halted → command .tick s = .ran (.next s)) ∧
    (s.runState = .waitingForInput → command .tick s = .ran (.next s))

/-- The IR is written only by the fetch of a step and by Reset: no meaning writes it; a command leaves it unless it is
Reset or a step or tick that fetches; and a step, or a tick while running, of a machine that is not waiting and whose PC is
an address sets it to the word fetched. -/
def Obligations.InstructionRegisterOnlyFetched : Prop :=
  (∀ (i : Instr) (s t : State), exec i s = .next t → t.ir = s.ir) ∧
  (∀ (c : Command) (s t : State), command c s = .ran (.next t) →
    t.ir = s.ir ∨ c = .reset ∨
      ((c = .step ∨ c = .tick) ∧ ∃ a : Address, s.pc = some a.toNat ∧ t.ir = some (s.word a))) ∧
  (∀ (s : State) (a : Address), s.runState ≠ .waitingForInput → s.pc = some a.toNat →
    ∃ t, step s = .next t ∧ t.ir = some (s.word a) ∧ command .step s = .ran (.next t) ∧
      (s.runState = .running → command .tick s = .ran (.next t)))

/-! ## Cache and predictor -/

/-- An address is its 8-bit block tag and 3-bit offset; the block is the eight words from tag*8 on. -/
def Obligations.AddressSplitsIntoTagAndOffset : Prop :=
  ∀ a : Address,
    (blockTag a).toNat = a.toNat / 8 ∧ (blockOffset a).val = a.toNat % 8 ∧
    ∀ (t : BitVec 8) (k : Fin 8), (blockWord t k).toNat = t.toNat * 8 + k.val ∧ blockTag (blockWord t k) = t ∧
      blockOffset (blockWord t k) = k

/-- An address hits exactly when a valid line has its tag; with distinct tags the hitting line is unique and is the
one looked up. -/
def Obligations.LookupFindsTheHittingLine : Prop :=
  ∀ (c : Cache) (a : Address),
    ((c.lookup a).isSome = true ↔ ∃ i : Fin 16, c.lines[i].valid = true ∧ c.lines[i].tag = blockTag a) ∧
    (c.DistinctTags → ∀ i : Fin 16, c.lines[i].valid = true → c.lines[i].tag = blockTag a → c.lookup a = some i)

/-- Promotion puts a line at the tail of the recency sequence and keeps the relative order of the others. -/
def Obligations.PromoteMovesLineToTail : Prop :=
  ∀ (c : Cache) (i : Fin 16), c.OrderPermutes →
    (c.promote i).order = (c.order.filter fun j => decide (j ≠ i)) ++ [i] ∧ (c.promote i).lines = c.lines ∧
      (c.promote i).OrderPermutes

/-- The victim is the first invalid line from the LRU end, else the LRU line (20_memory.md section 2; "first" in
recency order is decision D33, log 24). -/
def Obligations.VictimIsFirstInvalidElseLru : Prop :=
  ∀ c : Cache, c.OrderPermutes →
    (∃ before after, c.order = before ++ c.victim :: after ∧ c.lines[c.victim].valid = false ∧
      ∀ j ∈ before, c.lines[j].valid = true) ∨
    ((∀ i : Fin 16, c.lines[i].valid = true) ∧ c.order.head? = some c.victim)

/-- A load that hits returns the line's word and only promotes the line; a load that misses fills the victim with the
eight words of the block, marks it valid, promotes it and returns the word. -/
def Obligations.CacheLoadHitAndMiss : Prop :=
  ∀ (s : State) (a : Address),
    (∀ i, s.cache.lookup a = some i →
      (s.cacheLoad a).1 = s.cache.lines[i].data[blockOffset a] ∧
      (s.cacheLoad a).2 = { s with cache := s.cache.promote i }) ∧
    (s.cache.lookup a = none →
      (s.cacheLoad a).1 = s.word a ∧
      (s.cacheLoad a).2.mem = s.mem ∧
      (s.cacheLoad a).2.cache.order = (s.cache.promote s.cache.victim).order ∧
      (s.cacheLoad a).2.cache.lines[s.cache.victim].valid = true ∧
      (s.cacheLoad a).2.cache.lines[s.cache.victim].tag = blockTag a ∧
      (∀ k : Fin 8, (s.cacheLoad a).2.cache.lines[s.cache.victim].data[k] = s.word (blockWord (blockTag a) k)) ∧
      ∀ j : Fin 16, j ≠ s.cache.victim → (s.cacheLoad a).2.cache.lines[j] = s.cache.lines[j])

/-- A store writes the word to memory at once and to the cached copy, which it allocates by a fill on a miss and
promotes on a hit as on a fill; no other word of the line and no other line changes otherwise. -/
def Obligations.CacheStoreWritesThrough : Prop :=
  ∀ (s : State) (a : Address) (v : Word) (i : Fin 16), s.mem.wf = true →
    (s.cache.lookup a = some i ∨ (s.cache.lookup a = none ∧ i = s.cache.victim)) →
    (s.cacheStore a v).word a = v ∧ SameMemoryBut a s (s.cacheStore a v) ∧
    (s.cacheStore a v).cache.order = (s.cache.promote i).order ∧
    (s.cacheStore a v).cache.lines[i].valid = true ∧
    (s.cacheStore a v).cache.lines[i].tag = blockTag a ∧
    (∀ k : Fin 8, (s.cacheStore a v).cache.lines[i].data[k] =
      if k = blockOffset a then v
      else if s.cache.lookup a = none then s.word (blockWord (blockTag a) k) else s.cache.lines[i].data[k]) ∧
    (∀ j : Fin 16, j ≠ i → (s.cacheStore a v).cache.lines[j] = s.cache.lines[j])

/-- No command but Reset invalidates a cache line, and Reset invalidates all: a line that is valid stays so, refilled or
not. -/
def Obligations.LinesStayValid : Prop :=
  (∀ (c : Command) (s t : State) (i : Fin 16), c ≠ .reset → command c s = .ran (.next t) →
    s.cache.lines[i].valid = true → t.cache.lines[i].valid = true) ∧
  (∀ (s t : State) (i : Fin 16), command .reset s = .ran (.next t) → t.cache.lines[i].valid = false)

/-- Prediction is taken exactly for counters 2 and 3 of the entry `a & 0x7F`; an update moves that entry by one,
saturating at 3 and 0, and no other entry. -/
def Obligations.PredictorCounterSaturates : Prop :=
  (∀ (s : State) (a : Nat), s.predict a = true ↔ 2 ≤ (s.bht[a &&& 0x7F]'(by have := Nat.and_le_right (n := a) (m := 0x7F); omega)).toNat) ∧
  (∀ (s : State) (a : Nat) (taken : Bool) (k : Nat) (hk : k < 128),
    ((s.updateCounter a taken).bht[k]).toNat =
      if k = (a &&& 0x7F) then (if taken then min (s.bht[k].toNat + 1) 3 else max ((s.bht[k].toNat : Int) - 1) 0 |>.toNat)
      else s.bht[k].toNat)

/-! ## Effective addresses and selector checks -/

/-- With the cache invariants, EA resolution answers the direct field plus the selected index register (unsigned, not
masked), validated, and with I = 1 the low eleven bits of the memory word there, validated again; it changes nothing
that a program sees, and nothing at all with I = 0 (20_memory.md section 6, decision D8). -/
def Obligations.EffectiveAddressResolution : Prop :=
  ∀ (s : State) (ix : BitVec 2) (ind : Bool) (addr : BitVec 5) (base : Nat), s.CacheInv →
    base = addr.toNat +
      (if ix = 1 then s.ixrs.x1.toNat else if ix = 2 then s.ixrs.x2.toNat else if ix = 3 then s.ixrs.x3.toNat else 0) →
    (2048 ≤ base → s.resolveEA ix ind addr = (.error .addressOutOfRange, s)) ∧
    (base ≤ 5 → s.resolveEA ix ind addr = (.error .illegalReservedAccess, s)) ∧
    (6 ≤ base → base ≤ 2047 → ind = false → s.resolveEA ix ind addr = (.ok (BitVec.ofNat 11 base), s)) ∧
    (6 ≤ base → base ≤ 2047 → ind = true →
      (s.resolveEA ix ind addr).1 =
        (if (s.mem.read base).toNat % 2048 ≤ 5 then .error .illegalReservedAccess
         else .ok (BitVec.ofNat 11 (s.mem.read base).toNat)) ∧
      (s.resolveEA ix ind addr).2.forgetCache = s.forgetCache ∧ (s.resolveEA ix ind addr).2.CacheInv)

/-- Every instruction that resolves an effective address and whose selectors are legal is aborted by an address error,
a branch that would not be taken included: its registers, flags, memory words, PC and predictor stay, the fault is
recorded and the machine halts (decisions D9, D13, D36; log 10 for LDX and STX). -/
def Obligations.AddressErrorAborts : Prop :=
  ∀ (i : Instr) (s : State) (ix : BitVec 2) (ind : Bool) (addr : BitVec 5) (e : Fault),
    WellFormed i = true → eaOperands i = some (ix, ind, addr) → (s.resolveEA ix ind addr).1 = .error e →
    ∃ t, exec i s = .next t ∧ Aborted e s t

/-- An instruction whose selector is illegal changes nothing but what the error or the refusal itself does
(30_encoding.md section 3, decisions D25, D26, D47): MLT, DVD, the FR instructions, LDX, STX, IN, OUT. -/
def Obligations.IllegalSelectorChangesNothingElse : Prop :=
  ∀ (i : Instr) (s : State), WellFormed i = false →
    exec i s =
      match i with
      | .ldx _ _ _ => .next { s with faults := s.faults ++ [⟨.badIndexRegister, s.pc.map (· - 1), s.ir⟩], runState := .halted }
      | .stx _ _ _ => .next { s with faults := s.faults ++ [⟨.badIndexRegister, s.pc.map (· - 1), s.ir⟩], runState := .halted }
      | .inp _ _ => .next { s with refused := true, runState := .halted }
      | .out _ _ => .next { s with refused := true, runState := .halted }
      | _ => .next { s with faults := s.faults ++ [⟨.badRegisterSelector, s.pc.map (· - 1), s.ir⟩], runState := .halted }

/-! ## Transfer -/

/-- LDR (41_transfer.md R114): opcode 0o01; with a legal effective address GPR[R] takes the memory word there and its
block is cached; nothing else a program sees changes. An address error leaves GPR[R]. -/
def Obligations.LdrLoadsWord : Prop :=
  (∀ w, opcodeField w = 0o01 → decode w = .instr (.ldr (rField w) (ixField w) (iField w) (lowField w))) ∧
  ∀ (r ix : BitVec 2) (ind : Bool) (addr : BitVec 5) (s : State),
    (∀ ea, s.CacheInv → (s.resolveEA ix ind addr).1 = .ok ea →
      ∃ t, exec (.ldr r ix ind addr) s = .next t ∧ t.gpr r = s.word ea ∧ (t.cache.lookup ea).isSome = true ∧
        SameGprsBut r s t ∧ SameOtherRegs s t ∧ SameMemory s t ∧ CompletesInPlace s t) ∧
    (∀ e, (s.resolveEA ix ind addr).1 = .error e → ∃ t, exec (.ldr r ix ind addr) s = .next t ∧ Aborted e s t)

/-- STR (41_transfer.md R115): opcode 0o02; the word of GPR[R] is at the effective address and in its cached copy,
every other word and every register as before. An address error leaves memory. -/
def Obligations.StrStoresWord : Prop :=
  (∀ w, opcodeField w = 0o02 → decode w = .instr (.str (rField w) (ixField w) (iField w) (lowField w))) ∧
  ∀ (r ix : BitVec 2) (ind : Bool) (addr : BitVec 5) (s : State),
    (∀ ea, s.CacheInv → s.mem.wf = true → (s.resolveEA ix ind addr).1 = .ok ea →
      ∃ t, exec (.str r ix ind addr) s = .next t ∧ t.word ea = s.gpr r ∧ SameMemoryBut ea s t ∧
        (∃ i, t.cache.lookup ea = some i ∧ t.cache.lines[i].data[blockOffset ea] = s.gpr r) ∧
        t.gprs = s.gprs ∧ SameOtherRegs s t ∧ CompletesInPlace s t) ∧
    (∀ e, (s.resolveEA ix ind addr).1 = .error e → ∃ t, exec (.str r ix ind addr) s = .next t ∧ Aborted e s t)

/-- LDA loads the effective address itself, zero-extended (41_transfer.md section LDA). -/
def Obligations.LdaLoadsAddress : Prop :=
  ∀ (r ix : BitVec 2) (ind : Bool) (addr : BitVec 5) (s : State) (ea : Address),
    (s.resolveEA ix ind addr).1 = .ok ea →
    ∃ t, exec (.lda r ix ind addr) s = .next t ∧ (t.gpr r).toNat = ea.toNat ∧
      SameGprsBut r s t ∧ SameOtherRegs s t ∧ SameMemory s t ∧ CompletesInPlace s t ∧ (ind = false → SameMemorySide s t)

/-- LDX and STX on an index register x: the effective address is indexed by x's old value (the default
`LDX_EA_INDEXED = true`, log 10, decision D9); under the other reading x only names the target. Both instructions complete:
LDX loads x from it and changes no other register and no memory word, STX stores x to it and changes no register and no
other memory word. -/
def Obligations.LdxAndStxMoveIndexRegister : Prop :=
  ∀ (ix : BitVec 2) (x : IndexReg) (ind : Bool) (addr : BitVec 5) (s : State) (ea : Address),
    IndexReg.ofSelector ix = some x → s.CacheInv → s.mem.wf = true →
    (∀ indexed : Bool, (s.resolveEA (if indexed then ix else 0) ind addr).1 = .ok ea →
      (∃ t, loadIndex indexed ix ind addr s = .next t ∧ t.ixr x = s.word ea ∧ (∀ y, y ≠ x → t.ixr y = s.ixr y) ∧
        t.gprs = s.gprs ∧ t.frs = s.frs ∧ t.cc = s.cc ∧ t.carry = s.carry ∧ SameMemory s t ∧ CompletesInPlace s t) ∧
      (∃ t, storeIndex indexed ix ind addr s = .next t ∧ t.word ea = s.ixr x ∧ SameMemoryBut ea s t ∧
        t.gprs = s.gprs ∧ SameOtherRegs s t ∧ CompletesInPlace s t)) ∧
    ((s.resolveEA ix ind addr).1 = .ok ea →
      (∃ t, exec (.ldx ix ind addr) s = .next t ∧ t.ixr x = s.word ea ∧ (∀ y, y ≠ x → t.ixr y = s.ixr y) ∧
        t.gprs = s.gprs ∧ t.frs = s.frs ∧ t.cc = s.cc ∧ t.carry = s.carry ∧ SameMemory s t ∧ CompletesInPlace s t) ∧
      (∃ t, exec (.stx ix ind addr) s = .next t ∧ t.word ea = s.ixr x ∧ SameMemoryBut ea s t ∧
        t.gprs = s.gprs ∧ SameOtherRegs s t ∧ CompletesInPlace s t))

/-! ## Arithmetic -/

/-- AMR (42_arithmetic.md R121): opcode 0o04; GPR[R] takes the sum modulo 65536; OVERFLOW is set when the operands share
a sign and the result's differs, and otherwise stays; no other flag changes. -/
def Obligations.AmrAddsMemory : Prop :=
  (∀ w, opcodeField w = 0o04 → decode w = .instr (.amr (rField w) (ixField w) (iField w) (lowField w))) ∧
  ∀ (r ix : BitVec 2) (ind : Bool) (addr : BitVec 5) (s : State),
    (∀ ea, s.CacheInv → (s.resolveEA ix ind addr).1 = .ok ea →
      ∃ t, exec (.amr r ix ind addr) s = .next t ∧
        (t.gpr r).toNat = ((s.gpr r).toNat + (s.word ea).toNat) % 65536 ∧
        t.cc = { s.cc with
          overflow := if sign (s.gpr r) = sign (s.word ea) ∧ sign (t.gpr r) ≠ sign (s.gpr r) then true else s.cc.overflow } ∧
        SameGprsBut r s t ∧ t.ixrs = s.ixrs ∧ t.frs = s.frs ∧ t.carry = s.carry ∧ SameMemory s t ∧ CompletesInPlace s t) ∧
    (∀ e, (s.resolveEA ix ind addr).1 = .error e → ∃ t, exec (.amr r ix ind addr) s = .next t ∧ Aborted e s t)

/-- SMR (42_arithmetic.md R122): opcode 0o05; GPR[R] takes the difference modulo 65536; UNDERFLOW is set when the operands
differ in sign and the result's differs from the minuend's, and otherwise stays; OVERFLOW is never written. -/
def Obligations.SmrSubtractsMemory : Prop :=
  (∀ w, opcodeField w = 0o05 → decode w = .instr (.smr (rField w) (ixField w) (iField w) (lowField w))) ∧
  ∀ (r ix : BitVec 2) (ind : Bool) (addr : BitVec 5) (s : State),
    (∀ ea, s.CacheInv → (s.resolveEA ix ind addr).1 = .ok ea →
      ∃ t, exec (.smr r ix ind addr) s = .next t ∧
        ((t.gpr r).toNat : Int) = (((s.gpr r).toNat : Int) - (s.word ea).toNat) % 65536 ∧
        t.cc = { s.cc with
          underflow := if sign (s.gpr r) ≠ sign (s.word ea) ∧ sign (t.gpr r) ≠ sign (s.gpr r) then true else s.cc.underflow } ∧
        SameGprsBut r s t ∧ t.ixrs = s.ixrs ∧ t.frs = s.frs ∧ t.carry = s.carry ∧ SameMemory s t ∧ CompletesInPlace s t) ∧
    (∀ e, (s.resolveEA ix ind addr).1 = .error e → ∃ t, exec (.smr r ix ind addr) s = .next t ∧ Aborted e s t)

/-- AIR adds its immediate modulo 65536 and writes no flag; an immediate of 0 changes nothing (42_arithmetic.md section
AIR, decision D11). -/
def Obligations.AirAddsImmediate : Prop :=
  ∀ (r : BitVec 2) (immed : BitVec 5) (s : State),
    ∃ t, exec (.air r immed) s = .next t ∧ (t.gpr r).toNat = ((s.gpr r).toNat + immed.toNat) % 65536 ∧
      SameGprsBut r s t ∧ SameOtherRegs s t ∧ SameMemorySide s t ∧ CompletesInPlace s t

/-- SIR (42_arithmetic.md R124): opcode 0o07; subtracts its immediate modulo 65536; UNDERFLOW is set when GPR[R] is
negative and the result is not, and otherwise stays; an immediate of 0 changes nothing. -/
def Obligations.SirSubtractsImmediate : Prop :=
  (∀ w, opcodeField w = 0o07 → decode w = .instr (.sir (rField w) (lowField w))) ∧
  ∀ (r : BitVec 2) (immed : BitVec 5) (s : State),
    ∃ t, exec (.sir r immed) s = .next t ∧ ((t.gpr r).toNat : Int) = (((s.gpr r).toNat : Int) - immed.toNat) % 65536 ∧
      t.cc = { s.cc with
        underflow := if sign (s.gpr r) = true ∧ sign (t.gpr r) = false then true else s.cc.underflow } ∧
      (immed = 0 → t.gpr r = s.gpr r ∧ t.cc = s.cc) ∧
      SameGprsBut r s t ∧ t.ixrs = s.ixrs ∧ t.frs = s.frs ∧ t.carry = s.carry ∧ SameMemorySide s t ∧ CompletesInPlace s t

/-! ## Branches -/

/-- JZ, JNE, JCC and JMA (43_branches.md R128 to R131): opcodes 0o10 to 0o13; taken on a zero register, a nonzero register,
a set condition code and always; the next PC and the predictor as the protocol says; no register and no flag changes.
An invalid target aborts, taken or not. -/
def Obligations.JumpsBranchOnTheirCondition : Prop :=
  ((∀ w, opcodeField w = 0o10 → decode w = .instr (.jz (rField w) (ixField w) (iField w) (lowField w))) ∧
   (∀ w, opcodeField w = 0o11 → decode w = .instr (.jne (rField w) (ixField w) (iField w) (lowField w))) ∧
   (∀ w, opcodeField w = 0o12 → decode w = .instr (.jcc (rField w) (ixField w) (iField w) (lowField w))) ∧
   (∀ w, opcodeField w = 0o13 → decode w = .instr (.jma (ixField w) (iField w) (lowField w)))) ∧
  ∀ (r ix : BitVec 2) (ind : Bool) (addr : BitVec 5) (s : State) (ia : Nat) (i : Instr) (taken : Bool),
    s.pc = some (ia + 1) →
    ((i = .jz r ix ind addr ∧ taken = decide (s.gpr r = 0)) ∨
     (i = .jne r ix ind addr ∧ taken = decide (s.gpr r ≠ 0)) ∨
     (i = .jcc r ix ind addr ∧ taken =
        (if r = 0 then s.cc.overflow else if r = 1 then s.cc.underflow else if r = 2 then s.cc.divZero else s.cc.equal)) ∨
     (i = .jma ix ind addr ∧ taken = true)) →
    (∀ ea, (s.resolveEA ix ind addr).1 = .ok ea →
      ∃ t, exec i s = .next t ∧ Branched ia taken ea.toNat s t ∧ t.gprs = s.gprs ∧ SameOtherRegs s t) ∧
    (∀ e, (s.resolveEA ix ind addr).1 = .error e → ∃ t, exec i s = .next t ∧ Aborted e s t)

/-- JGE is taken when GPR[R], read as signed, is not negative (43_branches.md section JGE, decision D12). -/
def Obligations.JgeBranchesOnNonNegative : Prop :=
  ∀ (r ix : BitVec 2) (ind : Bool) (addr : BitVec 5) (s : State) (ia : Nat) (ea : Address),
    s.pc = some (ia + 1) → (s.resolveEA ix ind addr).1 = .ok ea →
    ∃ t, exec (.jge r ix ind addr) s = .next t ∧ Branched ia (decide ((s.gpr r).toNat < 32768)) ea.toNat s t ∧
      t.gprs = s.gprs ∧ SameOtherRegs s t

/-- JSR saves the advanced PC in GPR[3] and jumps (43_branches.md section JSR, decisions D13, D16); from address 2047 it
saves 2048. -/
def Obligations.JsrSavesReturnAddress : Prop :=
  ∀ (ix : BitVec 2) (ind : Bool) (addr : BitVec 5) (s : State) (ia : Nat) (ea : Address),
    s.pc = some (ia + 1) → ia ≤ 2047 → (s.resolveEA ix ind addr).1 = .ok ea →
    ∃ t, exec (.jsr ix ind addr) s = .next t ∧ Branched ia true ea.toNat s t ∧ (t.gpr 3).toNat = ia + 1 ∧
      SameGprsBut 3 s t ∧ SameOtherRegs s t

/-- RFS returns to GPR[3] with GPR[0] its immediate when GPR[3] is an address, 0..5 included, and otherwise raises
AddressOutOfRange with GPR[0] unchanged (43_branches.md section RFS, decision D15). -/
def Obligations.RfsReturnsOrFaults : Prop :=
  ∀ (immed : BitVec 5) (s : State) (ia : Nat), s.pc = some (ia + 1) →
    ((s.gpr 3).toNat ≤ 2047 →
      ∃ t, exec (.rfs immed) s = .next t ∧ Branched ia true (s.gpr 3).toNat s t ∧ (t.gpr 0).toNat = immed.toNat ∧
        SameGprsBut 0 s t ∧ SameOtherRegs s t) ∧
    (2048 ≤ (s.gpr 3).toNat → ∃ t, exec (.rfs immed) s = .next t ∧ Aborted .addressOutOfRange s t ∧ SameMemorySide s t)

/-- SOB decrements GPR[R] modulo 65536 and is taken when the signed result is positive; no flag changes
(43_branches.md section SOB, decisions D13, D42). -/
def Obligations.SobDecrementsAndBranches : Prop :=
  ∀ (r ix : BitVec 2) (ind : Bool) (addr : BitVec 5) (s : State) (ia : Nat) (ea : Address),
    s.pc = some (ia + 1) → (s.resolveEA ix ind addr).1 = .ok ea →
    ∃ t, exec (.sob r ix ind addr) s = .next t ∧ (t.gpr r).toNat = ((s.gpr r).toNat + 65535) % 65536 ∧
      Branched ia (decide (1 ≤ (t.gpr r).toNat ∧ (t.gpr r).toNat ≤ 32767)) ea.toNat s t ∧
      SameGprsBut r s t ∧ SameOtherRegs s t

/-! ## Register-register -/

/-- MLT on legal pairs leaves the 32-bit product of the signed readings in GPR[RX] (high word) and GPR[RX+1] (low word)
under the default `MLT_SIGNED = true`, of the unsigned readings under `false`; no flag (44_register_register.md section MLT,
decisions D11, D17; log 12). -/
def Obligations.MltMultiplies : Prop :=
  ∀ (rx ry : BitVec 2) (s : State), (rx = 0 ∨ rx = 2) → (ry = 0 ∨ ry = 2) →
    (∃ t, exec (.mlt rx ry) s = .next t ∧
      (((t.gpr rx).toNat * 65536 + (t.gpr (rx + 1)).toNat : Nat) : Int) = (s16 (s.gpr rx) * s16 (s.gpr ry)) % 2 ^ 32 ∧
      (∀ q, q ≠ rx → q ≠ rx + 1 → t.gpr q = s.gpr q) ∧
      SameOtherRegs s t ∧ SameMemorySide s t ∧ CompletesInPlace s t) ∧
    (∃ t, multiply false rx ry s = .next t ∧
      (t.gpr rx).toNat * 65536 + (t.gpr (rx + 1)).toNat = (s.gpr rx).toNat * (s.gpr ry).toNat ∧
      (∀ q, q ≠ rx → q ≠ rx + 1 → t.gpr q = s.gpr q) ∧
      SameOtherRegs s t ∧ SameMemorySide s t ∧ CompletesInPlace s t)

/-- DVD on legal pairs: a nonzero divisor leaves in GPR[RX] and GPR[RX+1] the quotient and remainder with the dividend
equal to quotient times divisor plus remainder, the remainder smaller than the divisor and of the dividend's sign; a zero
divisor sets DIVZERO, writes nothing else and raises DivisionByZero (44_register_register.md section DVD, decisions D18,
D46). -/
def Obligations.DvdDivides : Prop :=
  ∀ (rx ry : BitVec 2) (s : State), (rx = 0 ∨ rx = 2) → (ry = 0 ∨ ry = 2) →
    (s.gpr ry ≠ 0 →
      ∃ t, ∃ q m : Int, exec (.dvd rx ry) s = .next t ∧
        s16 (s.gpr rx) = q * s16 (s.gpr ry) + m ∧ m.natAbs < (s16 (s.gpr ry)).natAbs ∧ 0 ≤ m * s16 (s.gpr rx) ∧
        t.gpr rx = mask16 q ∧ t.gpr (rx + 1) = mask16 m ∧
        (∀ q, q ≠ rx → q ≠ rx + 1 → t.gpr q = s.gpr q) ∧
        SameOtherRegs s t ∧ SameMemorySide s t ∧ CompletesInPlace s t) ∧
    (s.gpr ry = 0 →
      exec (.dvd rx ry) s = .next
        { s with
          cc := { s.cc with divZero := true }
          faults := s.faults ++ [⟨.divisionByZero, s.pc.map (· - 1), s.ir⟩]
          runState := .halted })

/-- TRR sets EQUAL when the registers are equal; on inequality it leaves EQUAL under the default
`TRR_EQUAL_MODE = set_only` and clears it under `assign` (44_register_register.md section TRR, decision D10; log 11). -/
def Obligations.TrrTestsEquality : Prop :=
  ∀ (rx ry : BitVec 2) (s : State),
    (∃ t, exec (.trr rx ry) s = .next t ∧
      t.cc = { s.cc with equal := if s.gpr rx = s.gpr ry then true else s.cc.equal } ∧
      t.gprs = s.gprs ∧ t.ixrs = s.ixrs ∧ t.frs = s.frs ∧ t.carry = s.carry ∧ SameMemorySide s t ∧ CompletesInPlace s t) ∧
    (∃ t, testEqual .assign rx ry s = .next t ∧
      t.cc = { s.cc with equal := decide (s.gpr rx = s.gpr ry) } ∧
      t.gprs = s.gprs ∧ t.ixrs = s.ixrs ∧ t.frs = s.frs ∧ t.carry = s.carry ∧ SameMemorySide s t ∧ CompletesInPlace s t)

/-- AND, ORR and NOT (44_register_register.md R148 to R150): opcodes 0o23 to 0o25; bit by bit and, or and complement into
GPR[RX]; no flag, no memory, no other register. -/
def Obligations.LogicalOperations : Prop :=
  ((∀ w, opcodeField w = 0o23 → decode w = .instr (.and (rField w) (ixField w))) ∧
   (∀ w, opcodeField w = 0o24 → decode w = .instr (.orr (rField w) (ixField w))) ∧
   (∀ w, opcodeField w = 0o25 → decode w = .instr (.not (rField w)))) ∧
  ∀ (rx ry : BitVec 2) (s : State),
    (∃ t, exec (.and rx ry) s = .next t ∧ (∀ k, (t.gpr rx).getLsbD k = ((s.gpr rx).getLsbD k && (s.gpr ry).getLsbD k)) ∧
      (rx = ry → t.gpr rx = s.gpr rx) ∧
      SameGprsBut rx s t ∧ SameOtherRegs s t ∧ SameMemorySide s t ∧ CompletesInPlace s t) ∧
    (∃ t, exec (.orr rx ry) s = .next t ∧ (∀ k, (t.gpr rx).getLsbD k = ((s.gpr rx).getLsbD k || (s.gpr ry).getLsbD k)) ∧
      (rx = ry → t.gpr rx = s.gpr rx) ∧
      SameGprsBut rx s t ∧ SameOtherRegs s t ∧ SameMemorySide s t ∧ CompletesInPlace s t) ∧
    (∃ t, exec (.not rx) s = .next t ∧ (t.gpr rx).toNat = 65535 - (s.gpr rx).toNat ∧
      SameGprsBut rx s t ∧ SameOtherRegs s t ∧ SameMemorySide s t ∧ CompletesInPlace s t)

/-! ## Shift and rotate -/

/-- SRC: count 0 changes no register and no flag; a count n of 1..15 gives GPR[R] the value times 2^n modulo 65536, or
divided by 2^n and rounded down (as a signed number for an arithmetic shift), Carry the last bit shifted out and EQUAL
whether the result is 0; the arithmetic left shift is the logical one under the default `SRC_ARITH_LEFT`
(45_shift_rotate.md section SRC, decisions D3, D19; log 13) and is refused under `refuse`. -/
def Obligations.SrcShifts : Prop :=
  ∀ (r : BitVec 2) (al lr : Bool) (count : BitVec 4) (s : State),
    (count = 0 → exec (.src r al lr count) s = .next { s with icount := s.icount + 1 }) ∧
    (count ≠ 0 →
      ∃ t, exec (.src r al lr count) s = .next t ∧
        t.gpr r =
          (if lr then mask16 ((s.gpr r).toNat * 2 ^ count.toNat)
           else if al then mask16 ((s.gpr r).toNat / 2 ^ count.toNat)
           else mask16 (s16 (s.gpr r) / 2 ^ count.toNat)) ∧
        t.carry = (if lr then (s.gpr r).getLsbD (16 - count.toNat) else (s.gpr r).getLsbD (count.toNat - 1)) ∧
        t.cc = { s.cc with equal := decide (t.gpr r = 0) } ∧
        SameGprsBut r s t ∧ t.ixrs = s.ixrs ∧ t.frs = s.frs ∧ SameMemorySide s t ∧ CompletesInPlace s t) ∧
    (count ≠ 0 → shiftRegister .refuse r false true count s = .next { s with refused := true, runState := .halted })

/-- RRC: count 0 changes nothing; a count n of 1..15 rotates the 16 bits of GPR[R] with A/L = 1 and the 17-bit ring of
Carry and GPR[R] with A/L = 0 (the default `RRC_CARRY_AL = 0`, log 14, decision D20); CC is never written and Carry only
through the ring (45_shift_rotate.md section RRC). -/
def Obligations.RrcRotates : Prop :=
  ∀ (r : BitVec 2) (al lr : Bool) (count : BitVec 4) (s : State),
    (count = 0 → exec (.rrc r al lr count) s = .next { s with icount := s.icount + 1 }) ∧
    (count ≠ 0 →
      ∃ t, exec (.rrc r al lr count) s = .next t ∧
        (al = true →
          (t.gpr r).toNat =
            (if lr then (s.gpr r).toNat * 2 ^ count.toNat % 65536 + (s.gpr r).toNat / 2 ^ (16 - count.toNat)
             else (s.gpr r).toNat / 2 ^ count.toNat + (s.gpr r).toNat * 2 ^ (16 - count.toNat) % 65536) ∧
          t.carry = s.carry) ∧
        (al = false →
          t.carry.toNat * 65536 + (t.gpr r).toNat =
            (if lr then (s.carry.toNat * 65536 + (s.gpr r).toNat) * 2 ^ count.toNat % 2 ^ 17 +
                (s.carry.toNat * 65536 + (s.gpr r).toNat) / 2 ^ (17 - count.toNat)
             else (s.carry.toNat * 65536 + (s.gpr r).toNat) / 2 ^ count.toNat +
                (s.carry.toNat * 65536 + (s.gpr r).toNat) * 2 ^ (17 - count.toNat) % 2 ^ 17)) ∧
        SameGprsBut r s t ∧ t.ixrs = s.ixrs ∧ t.frs = s.frs ∧ t.cc = s.cc ∧ SameMemorySide s t ∧ CompletesInPlace s t)

/-! ## Floating point and vectors -/

/-- FADD and FSUB with a legal FR selector and effective address: FR[R] takes the sum (FSUB: the difference) of FR[R] and
the memory word when `FPAddCore` under the default `FP_EXP_ORDER` (log 15) answers it, and the refusal is made with FR
unchanged when it does not (46_float_vector.md sections FADD and FSUB, decisions D11, D21; log 4). -/
def Obligations.FaddAndFsubComplete : Prop :=
  ∀ (negateB : Bool) (r ix : BitVec 2) (f : FloatReg) (ind : Bool) (addr : BitVec 5) (s : State) (ea : Address) (i : Instr),
    i = (if negateB then .fsub r ix ind addr else .fadd r ix ind addr) →
    FloatReg.ofSelector r = some f → s.CacheInv → (s.resolveEA ix ind addr).1 = .ok ea →
    (∀ w, fpAddCore .unsigned (s.fr f) (s.word ea) negateB = .ok w →
      ∃ t, exec i s = .next t ∧ t.fr f = w ∧ (∀ g, g ≠ f → t.fr g = s.fr g) ∧
        t.gprs = s.gprs ∧ t.ixrs = s.ixrs ∧ t.cc = s.cc ∧ t.carry = s.carry ∧ SameMemory s t ∧ CompletesInPlace s t) ∧
    (∀ why, fpAddCore .unsigned (s.fr f) (s.word ea) negateB = .error why →
      ∃ t, exec i s = .next t ∧ t.refused = true ∧ t.runState = .halted ∧ t.gprs = s.gprs ∧ SameOtherRegs s t ∧
        SameMemory s t ∧ t.pc = s.pc ∧ t.ir = s.ir ∧ t.icount = s.icount ∧ t.faults = s.faults ∧ t.status = s.status ∧
        t.pending = s.pending ∧ t.bht = s.bht ∧ t.predictions = s.predictions ∧ t.correct = s.correct)

/-- `FPAddCore` under every exponent reading (46_float_vector.md section 1, decision D21; log 15).
The fields: sign bit 15, significand 256 + bits [7:0], exponent bits [14:8] read and written back by R156's X and enc.
The alignment, in R158's words: E is the larger exponent, the significand of the smaller exponent is floor(M / 2^|Ea - Eb|),
and S is the exact sum of the two, each with the sign of its word's bit 15, the second one's flipped for subtraction.
The answer: there is one exactly when both operands have nonzero bits [14:0], S is not 0, the renormalised exponent is in the
reading's range and the result's bits [14:0] would not be all 0; otherwise there is a refusal as a floating-point corner.
The result: it can be used as an operand again; its sign is the sign of S, its significand is |S| halved and rounded down with
the exponent one up when |S| exceeds 511, else |S| scaled exactly with the exponent down by as much, its exponent field is the
one enc writes; addition commutes and subtraction is addition of the operand with its sign bit flipped. -/
def Obligations.FloatSumIsExactUpToTruncation : Prop :=
  ∀ (order : FpExpOrder) (a b : Word),
    (∀ w : Word, sign w = decide (32768 ≤ w.toNat) ∧ significand w = 256 + w.toNat % 256 ∧
      (exponentField w).toNat = w.toNat / 256 % 128) ∧
    (∀ f : BitVec 7, exponentValue order f =
      match order with
      | .unsigned => (f.toNat : Int)
      | .signMagnitude => if f.toNat < 64 then (f.toNat : Int) else 64 - (f.toNat : Int)
      | .twosComplement => if f.toNat < 64 then (f.toNat : Int) else (f.toNat : Int) - 128) ∧
    (match order with
      | .unsigned => ∀ x : Int, 0 ≤ x → x ≤ 127 → ((exponentEncode .unsigned x).toNat : Int) = x
      | .signMagnitude => ∀ x : Int, -63 ≤ x → x ≤ 63 →
          ((exponentEncode .signMagnitude x).toNat : Int) = if x < 0 then 64 - x else x
      | .twosComplement => ∀ x : Int, -64 ≤ x → x ≤ 63 →
          ((exponentEncode .twosComplement x).toNat : Int) = if x < 0 then 128 + x else x) ∧
    (∀ (negateB : Bool) (ea eb sa sb : Int),
      ea = exponentValue order (exponentField a) → eb = exponentValue order (exponentField b) →
      sa = (if sign a then -1 else 1) → sb = (if sign b != negateB then -1 else 1) →
      (eb ≤ ea → (alignedSum order a b negateB).2 = ea ∧
        (alignedSum order a b negateB).1 =
          sa * (significand a : Int) + sb * ((significand b / 2 ^ (ea - eb).natAbs : Nat) : Int)) ∧
      (ea < eb → (alignedSum order a b negateB).2 = eb ∧
        (alignedSum order a b negateB).1 =
          sa * ((significand a / 2 ^ (ea - eb).natAbs : Nat) : Int) + sb * (significand b : Int))) ∧
    (∀ negateB : Bool,
      ((∃ w, fpAddCore order a b negateB = .ok w) ↔
        a.extractLsb' 0 15 ≠ 0 ∧ b.extractLsb' 0 15 ≠ 0 ∧ (alignedSum order a b negateB).1 ≠ 0 ∧
          ∃ (m : Nat) (e : Int),
            ((511 < (alignedSum order a b negateB).1.natAbs ∧ m = (alignedSum order a b negateB).1.natAbs / 2 ∧
                e = (alignedSum order a b negateB).2 + 1) ∨
              ((alignedSum order a b negateB).1.natAbs ≤ 511 ∧ 256 ≤ m ∧ m ≤ 511 ∧
                ∃ k : Nat, m = (alignedSum order a b negateB).1.natAbs * 2 ^ k ∧
                  e = (alignedSum order a b negateB).2 - k)) ∧
            (match order with
              | .unsigned => 0 ≤ e ∧ e ≤ 127
              | .signMagnitude => -63 ≤ e ∧ e ≤ 63
              | .twosComplement => -64 ≤ e ∧ e ≤ 63) ∧
            ¬(exponentEncode order e = 0 ∧ m = 256)) ∧
      ((¬∃ w, fpAddCore order a b negateB = .ok w) → fpAddCore order a b negateB = .error .floatingPointCorner)) ∧
    (∀ (negateB : Bool) (w : Word), fpAddCore order a b negateB = .ok w →
      isFloatZero w = false ∧
      sign w = decide ((alignedSum order a b negateB).1 < 0) ∧
      (if 511 < (alignedSum order a b negateB).1.natAbs then
        significand w = (alignedSum order a b negateB).1.natAbs / 2 ∧
          exponentValue order (exponentField w) = (alignedSum order a b negateB).2 + 1
       else ∃ k : Nat, significand w = (alignedSum order a b negateB).1.natAbs * 2 ^ k ∧
          exponentValue order (exponentField w) = (alignedSum order a b negateB).2 - k) ∧
      exponentField w = exponentEncode order (exponentValue order (exponentField w))) ∧
    fpAddCore order a b false = fpAddCore order b a false ∧
    fpAddCore order a b true = fpAddCore order a (b ^^^ 0x8000) false

/-- CNVRT with a legal effective address: with GPR[R] = 0 that register takes the free conversion of the memory word to
fixed, otherwise FR[0] takes its free conversion to float; nothing else (46_float_vector.md section CNVRT, decision D22;
log 16). It holds for every value of the two conversions. -/
def Obligations.CnvrtConverts : Prop :=
  ∀ (r ix : BitVec 2) (ind : Bool) (addr : BitVec 5) (s : State) (ea : Address),
    s.CacheInv → (s.resolveEA ix ind addr).1 = .ok ea →
    ∃ t, exec (.cnvrt r ix ind addr) s = .next t ∧
      (s.gpr r = 0 → t.gpr r = Config.cnvrtToFixed (s.word ea) ∧ SameGprsBut r s t ∧ t.frs = s.frs) ∧
      (s.gpr r ≠ 0 → t.fr .f0 = Config.cnvrtToFloat (s.word ea) ∧ t.fr .f1 = s.fr .f1 ∧ t.gprs = s.gprs) ∧
      t.ixrs = s.ixrs ∧ t.cc = s.cc ∧ t.carry = s.carry ∧ SameMemory s t ∧ CompletesInPlace s t

/-- VADD and VSUB whose elements all lie in 6..2047 complete: element i of the first vector becomes its old value plus
(minus) element i of the second, which is the already combined one where it is an earlier element of the first vector;
no other word and no register changes (46_float_vector.md sections VADD and VSUB, decision D23; the default
`VEC_ELEM_OP = int16_wrap`, log 17). -/
def Obligations.VectorElementsCombine : Prop :=
  ∀ (subtract : Bool) (r ix : BitVec 2) (f : FloatReg) (ind : Bool) (addr : BitVec 5) (s : State) (ea : Address)
    (p1 p2 n : Nat) (i : Instr),
    i = (if subtract then .vsub r ix ind addr else .vadd r ix ind addr) →
    FloatReg.ofSelector r = some f → s.CacheInv → s.mem.wf = true →
    (s.resolveEA ix ind addr).1 = .ok ea → ea.toNat < 2047 →
    p1 = (s.mem.read ea.toNat).toNat % 2048 → p2 = (s.mem.read (ea.toNat + 1)).toNat % 2048 → n = (s.fr f).toNat →
    (n = 0 ∨ (6 ≤ p1 ∧ p1 + n ≤ 2048 ∧ 6 ≤ p2 ∧ p2 + n ≤ 2048)) →
    ∃ t, exec i s = .next t ∧
      (∀ k, k < n → ∀ y : Word,
        y = (if p1 ≤ p2 + k ∧ p2 + k < p1 + k then t.mem.read (p2 + k) else s.mem.read (p2 + k)) →
        t.mem.read (p1 + k) = if subtract then s.mem.read (p1 + k) - y else s.mem.read (p1 + k) + y) ∧
      (∀ a, a < p1 ∨ p1 + n ≤ a → t.mem.read a = s.mem.read a) ∧
      t.gprs = s.gprs ∧ SameOtherRegs s t ∧ CompletesInPlace s t

/-- A VADD or VSUB whose pointer pair or whose element m lies outside 6..2047 stops there with the fault of the first bad
address: elements before m are combined, no other word and no register changes (46_float_vector.md section 2, decision
D23; log 17). -/
def Obligations.VectorFaultKeepsPrefix : Prop :=
  ∀ (subtract : Bool) (r ix : BitVec 2) (f : FloatReg) (ind : Bool) (addr : BitVec 5) (s : State) (ea : Address) (i : Instr),
    i = (if subtract then .vsub r ix ind addr else .vadd r ix ind addr) →
    FloatReg.ofSelector r = some f → s.CacheInv → s.mem.wf = true →
    (s.resolveEA ix ind addr).1 = .ok ea →
    (ea.toNat = 2047 → ∃ t, exec i s = .next t ∧ Aborted .addressOutOfRange s t) ∧
    (ea.toNat < 2047 → ∀ (p1 p2 m : Nat) (e : Fault),
      p1 = (s.mem.read ea.toNat).toNat % 2048 → p2 = (s.mem.read (ea.toNat + 1)).toNat % 2048 → m < (s.fr f).toNat →
      (∀ k, k < m → (6 ≤ p1 + k ∧ p1 + k ≤ 2047) ∧ 6 ≤ p2 + k ∧ p2 + k ≤ 2047) →
      (checkAddr (p1 + m) = .error e ∨ ((6 ≤ p1 + m ∧ p1 + m ≤ 2047) ∧ checkAddr (p2 + m) = .error e)) →
      ∃ t, exec i s = .next t ∧
        (∀ k, k < m → ∀ y : Word,
          y = (if p1 ≤ p2 + k ∧ p2 + k < p1 + k then t.mem.read (p2 + k) else s.mem.read (p2 + k)) →
          t.mem.read (p1 + k) = if subtract then s.mem.read (p1 + k) - y else s.mem.read (p1 + k) + y) ∧
        (∀ a, a < p1 ∨ p1 + m ≤ a → t.mem.read a = s.mem.read a) ∧
        t.gprs = s.gprs ∧ SameOtherRegs s t ∧ t.pc = s.pc ∧ t.ir = s.ir ∧ t.icount = s.icount ∧ t.runState = .halted ∧
        t.faults = s.faults ++ [⟨e, s.pc.map (· - 1), s.ir⟩] ∧ t.refused = s.refused ∧ t.pending = s.pending ∧
        t.status = s.status ∧ t.bht = s.bht ∧ t.predictions = s.predictions ∧ t.correct = s.correct)

/-- LDFR and STFR with a legal FR selector and effective address move one word between memory and FR[R]
(46_float_vector.md sections LDFR and STFR, decision D24). -/
def Obligations.LdfrAndStfrMoveOneWord : Prop :=
  ∀ (r ix : BitVec 2) (f : FloatReg) (ind : Bool) (addr : BitVec 5) (s : State) (ea : Address),
    FloatReg.ofSelector r = some f → s.CacheInv → s.mem.wf = true → (s.resolveEA ix ind addr).1 = .ok ea →
    (∃ t, exec (.ldfr r ix ind addr) s = .next t ∧ t.fr f = s.word ea ∧ (∀ g, g ≠ f → t.fr g = s.fr g) ∧
      t.gprs = s.gprs ∧ t.ixrs = s.ixrs ∧ t.cc = s.cc ∧ t.carry = s.carry ∧ SameMemory s t ∧ CompletesInPlace s t) ∧
    (∃ t, exec (.stfr r ix ind addr) s = .next t ∧ t.word ea = s.fr f ∧ SameMemoryBut ea s t ∧
      t.gprs = s.gprs ∧ SameOtherRegs s t ∧ CompletesInPlace s t)

/-! ## Console and halt -/

/-- IN from device 0 records destination, base, count (GPR[3] when 1..32767, else 20) and whether the machine was
running, and waits; with a PendingInput present it is refused (47_io_control.md section 1, decisions D26, D28; log 4). -/
def Obligations.InSuspendsForInput : Prop :=
  ∀ (r : BitVec 2) (s : State),
    (s.pending = none →
      exec (.inp r 0) s = .next
        { s with
          pending := some
            { dest := r
              base := s.gpr r
              count := if 1 ≤ (s.gpr 3).toNat ∧ (s.gpr 3).toNat ≤ 32767 then (s.gpr 3).toNat else 20
              resumeRun := decide (s.runState = .running) }
          runState := .waitingForInput
          icount := s.icount + 1 }) ∧
    (∀ p, s.pending = some p → exec (.inp r 0) s = .next { s with refused := true, runState := .halted })

/-- OUT to device 1 sends one guidance message on GPR[0] and GPR[3] and changes nothing else (47_io_control.md section 2,
decision D26; log 20). -/
def Obligations.OutSendsGuidance : Prop :=
  ∀ (r : BitVec 2) (s : State),
    exec (.out r 1) s = .next
      { s with status := s.status ++ [.guidance (s.gpr 0) (s.gpr 3)], icount := s.icount + 1 }

/-- HLT (47_io_control.md R174): every word with bits [15:10] = 0 under `HLT_MATCH = opcode`, the word 0x0000 under both;
it halts, counts and changes nothing else. -/
def Obligations.HltHalts : Prop :=
  (∀ w, opcodeField w = 0 → decodeWith courseOpcode .opcode w = .instr .hlt) ∧
  (∀ hlt, decodeWith courseOpcode hlt 0 = .instr .hlt) ∧
  ∀ s : State, exec .hlt s = .next { s with runState := .halted, icount := s.icount + 1 }

/-- A console submission with enough values and a destination inside 6..2047 writes the first value to the destination
register and the first N to memory from the base on, ends the wait and resumes the run if it was running; with a
destination outside it faults with the PC and IR current and writes nothing; with too few values it is rejected
(47_io_control.md section 1, decision D29). -/
def Obligations.ConsoleSubmissionCompletes : Prop :=
  ∀ (s : State) (p : PendingInput) (values : List Int), s.pending = some p → s.mem.wf = true → 1 ≤ p.count →
    (values.length < p.count → command (.consoleSubmit values) s = .rejected .malformedConsoleInput) ∧
    (p.count ≤ values.length → 6 ≤ p.base.toNat → p.base.toNat + p.count ≤ 2048 →
      ∃ t, command (.consoleSubmit values) s = .ran (.next t) ∧
        (∀ v, values.head? = some v → t.gpr p.dest = mask16 v) ∧ SameGprsBut p.dest s t ∧
        (∀ k v, k < p.count → values[k]? = some v → t.mem.read (p.base.toNat + k) = mask16 v) ∧
        (∀ a, a < p.base.toNat ∨ p.base.toNat + p.count ≤ a → t.mem.read a = s.mem.read a) ∧
        t.pending = none ∧ t.runState = (if p.resumeRun then .running else .halted) ∧
        SameOtherRegs s t ∧ t.pc = s.pc ∧ t.ir = s.ir ∧ t.icount = s.icount ∧ t.faults = s.faults ∧
        t.refused = s.refused ∧ t.status = s.status ∧ t.bht = s.bht ∧ t.predictions = s.predictions ∧ t.correct = s.correct) ∧
    (p.count ≤ values.length → p.base.toNat ≤ 5 →
      command (.consoleSubmit values) s = .ran (.next
        { s with pending := none, runState := .halted, faults := s.faults ++ [⟨.illegalReservedAccess, s.pc, s.ir⟩] })) ∧
    (p.count ≤ values.length → 6 ≤ p.base.toNat → 2048 < p.base.toNat + p.count →
      command (.consoleSubmit values) s = .ran (.next
        { s with pending := none, runState := .halted, faults := s.faults ++ [⟨.addressOutOfRange, s.pc, s.ir⟩] }))

/-- A load-file word inside the array is written to memory and to a resident cached copy, so that a program's next read
of it returns it; no line is allocated or promoted, and PC, run state and registers stay; an address or word out of range
is rejected (20_memory.md section 1, decisions D31, D41). -/
def Obligations.LoadedWordIsSeenByProgram : Prop :=
  ∀ (s : State) (a w : Nat), s.CacheInv → s.mem.wf = true →
    (a ≤ 2047 → w ≤ 65535 →
      ∃ t, command (.loadWord a w) s = .ran (.next t) ∧ t.mem.read a = BitVec.ofNat 16 w ∧
        (∀ b, b ≠ a → t.mem.read b = s.mem.read b) ∧ (t.memRead (BitVec.ofNat 11 a)).1 = BitVec.ofNat 16 w ∧
        t.CacheInv ∧ t.cache.order = s.cache.order ∧
        (∀ i : Fin 16, t.cache.lines[i].valid = s.cache.lines[i].valid ∧ t.cache.lines[i].tag = s.cache.lines[i].tag) ∧
        t.gprs = s.gprs ∧ SameOtherRegs s t ∧ SameControl s t ∧ t.pc = s.pc ∧ t.icount = s.icount) ∧
    (2048 ≤ a ∨ 65536 ≤ w → command (.loadWord a w) s = .rejected .malformedLoadFile)

/-! ## Whole-machine properties -/

/-- Every step from a state with the invariant ends in a state with the invariant (10_state.md sections 5 and 6, 20_memory.md
section 2): the memory's canonical form, the three cache invariants, the PC's domain, the PendingInput's shape and the
predictor counts. -/
def Obligations.StepKeepsInvariant : Prop := ∀ s t : State, s.Inv → step s = .next t → t.Inv

/-- Every host command keeps the invariant. -/
def Obligations.CommandKeepsInvariant : Prop :=
  ∀ (c : Command) (s t : State), s.Inv → command c s = .ran (.next t) → t.Inv

/-- Every instruction, in any state, answers a next state and ends in exactly one way: it completes and is counted; or it
appends one fault record with its own address and word, halts and is not counted; or it is refused, halts and is not
counted (40_execution_cycle.md sections 2 and 3, decision D36). -/
def Obligations.EveryInstructionCompletesFaultsOrIsRefused : Prop :=
  ∀ (i : Instr) (s : State), ∃ t, exec i s = .next t ∧ t.ir = s.ir ∧
    ((t.icount = s.icount + 1 ∧ t.faults = s.faults ∧ t.refused = s.refused) ∨
     (∃ e, t.icount = s.icount ∧ t.faults = s.faults ++ [⟨e, s.pc.map (· - 1), s.ir⟩] ∧ t.refused = s.refused ∧
        t.runState = .halted ∧ t.pc = s.pc ∧ t.pending = s.pending) ∨
     (t.icount = s.icount ∧ t.faults = s.faults ∧ t.refused = true ∧ t.runState = .halted ∧ t.pc = s.pc ∧
        t.pending = s.pending))

/-- Which instructions write which state: each condition code only by its writers and, but for SRC's EQUAL, only to 1;
Carry only by SRC and RRC; index registers only by LDX; floating-point registers only by FADD, FSUB, CNVRT and LDFR; general
registers only by LDR, LDA, AMR, SMR, AIR, SIR, JSR, RFS, SOB, MLT, DVD, AND, ORR, NOT, SRC, RRC and CNVRT (the register
write that completes an IN is a console submission's, not the instruction's); memory words only by STR, STX, STFR, VADD and
VSUB (10_state.md sections 1 to 4, decisions D10, D11; 41_transfer.md, 46_float_vector.md section 2). -/
def Obligations.OnlyListedInstructionsWriteEachPart : Prop :=
  ∀ (i : Instr) (s t : State), exec i s = .next t →
    (t.cc.overflow ≠ s.cc.overflow → i.mnemonic = .amr ∧ t.cc.overflow = true) ∧
    (t.cc.underflow ≠ s.cc.underflow → i.mnemonic ∈ [Mnemonic.smr, .sir] ∧ t.cc.underflow = true) ∧
    (t.cc.divZero ≠ s.cc.divZero → i.mnemonic = .dvd ∧ t.cc.divZero = true) ∧
    (t.cc.equal ≠ s.cc.equal → i.mnemonic = .src ∨ (i.mnemonic = .trr ∧ t.cc.equal = true)) ∧
    (t.carry ≠ s.carry → i.mnemonic ∈ [Mnemonic.src, .rrc]) ∧
    (t.ixrs ≠ s.ixrs → i.mnemonic = .ldx) ∧
    (t.frs ≠ s.frs → i.mnemonic ∈ [Mnemonic.fadd, .fsub, .cnvrt, .ldfr]) ∧
    (t.gprs ≠ s.gprs → i.mnemonic ∈
      [Mnemonic.ldr, .lda, .amr, .smr, .air, .sir, .jsr, .rfs, .sob, .mlt, .dvd, .and, .orr, .not, .src, .rrc, .cnvrt]) ∧
    (t.mem ≠ s.mem → i.mnemonic ∈ [Mnemonic.str, .stx, .stfr, .vadd, .vsub])

/-- No instruction, in any state, writes a word of the protected region 0..5 (20_memory.md section 4, 60_exceptions.md
section 5). -/
def Obligations.ProtectedWordsNeverWritten : Prop :=
  ∀ (i : Instr) (s t : State) (a : Nat), exec i s = .next t → a ≤ 5 → t.mem.read a = s.mem.read a

/-- Two states that differ in the predictor alone step to states that differ in the predictor alone, and both step
(43_branches.md section 3). -/
def Obligations.PredictorNeverMatters : Prop :=
  ∀ s u : State, s.forgetPredictor = u.forgetPredictor →
    ∃ t v, step s = .next t ∧ step u = .next v ∧ t.forgetPredictor = v.forgetPredictor

/-- Two states with the cache invariants that differ in the cache and the latches alone step to states that differ in
those alone, and both step (20_memory.md section 2). -/
def Obligations.CacheNeverMatters : Prop :=
  ∀ s u : State, s.Inv → u.Inv → s.forgetCache = u.forgetCache →
    ∃ t v, step s = .next t ∧ step u = .next v ∧ t.forgetCache = v.forgetCache
end

