-- ==== Sys2Proof/Laws/Memory.lean ====
section
/-! SUPPORT. The memory list: reads after writes, and the canonical form (Machine/Memory.lean). -/

namespace Sys2Proof.Machine

@[simp] theorem Memory.read_nil (a : Nat) : Memory.read a [] = 0 := rfl

theorem Memory.read_cons (a b : Nat) (x : Word) (m : Memory) :
    Memory.read a ((b, x) :: m) = if a = b then x else Memory.read a m := rfl

theorem Memory.wfFrom_cons {lo a : Nat} {w : Word} {m : Memory} :
    Memory.wfFrom lo ((a, w) :: m) = true ↔
      lo ≤ a ∧ a < memorySize ∧ w ≠ 0 ∧ Memory.wfFrom (a + 1) m = true := by
  simp [Memory.wfFrom, and_assoc]

theorem Memory.wfFrom_mono {lo hi : Nat} {m : Memory} (h : lo ≤ hi) (hm : Memory.wfFrom hi m = true) :
    Memory.wfFrom lo m = true := by
  cases m with
  | nil => rfl
  | cons p m =>
    obtain ⟨a, w⟩ := p
    rw [Memory.wfFrom_cons] at hm ⊢
    exact ⟨by omega, hm.2⟩

/-- Below the first address a canonical list may hold, every address reads 0. -/
theorem Memory.read_below {lo : Nat} {m : Memory} (hm : Memory.wfFrom lo m = true) {a : Nat} (h : a < lo) :
    Memory.read a m = 0 := by
  induction m generalizing lo with
  | nil => rfl
  | cons p m ih =>
    obtain ⟨b, x⟩ := p
    rw [Memory.wfFrom_cons] at hm
    rw [Memory.read_cons, if_neg (by omega)]
    exact ih hm.2.2.2 (by omega)

/-- A write leaves every other address alone. -/
theorem Memory.read_write_of_ne {a b : Nat} (h : b ≠ a) (w : Word) (m : Memory) :
    Memory.read b (Memory.write a w m) = Memory.read b m := by
  induction m with
  | nil => unfold Memory.write; split_ifs <;> simp [Memory.read_cons, h]
  | cons p m ih =>
    obtain ⟨c, x⟩ := p
    unfold Memory.write
    split_ifs with h1 h2 h3 h4
    · rfl
    · simp [Memory.read_cons, h]
    · subst h3; simp [Memory.read_cons, h]
    · subst h3; simp [Memory.read_cons, h]
    · simp [Memory.read_cons, ih]

/-- A read after a write to the same address gives the word written. -/
theorem Memory.read_write_same {lo : Nat} {m : Memory} (hm : Memory.wfFrom lo m = true) (a : Nat) (w : Word) :
    Memory.read a (Memory.write a w m) = w := by
  induction m generalizing lo with
  | nil => unfold Memory.write; split_ifs with hw <;> simp [Memory.read_cons, hw]
  | cons p m ih =>
    obtain ⟨c, x⟩ := p
    rw [Memory.wfFrom_cons] at hm
    unfold Memory.write
    split_ifs with h1 h2 h3 h4
    · subst h2
      rw [Memory.read_cons, if_neg (by omega)]
      exact Memory.read_below hm.2.2.2 (by omega)
    · simp [Memory.read_cons]
    · subst h4 h3
      exact Memory.read_below hm.2.2.2 (by omega)
    · simp [Memory.read_cons]
    · rw [Memory.read_cons, if_neg h3]
      exact ih hm.2.2.2

/-- A write of an address of the array keeps the canonical form. -/
theorem Memory.write_wfFrom {lo : Nat} {m : Memory} (hm : Memory.wfFrom lo m = true) {a : Nat} (hlo : lo ≤ a)
    (ha : a < memorySize) (w : Word) : Memory.wfFrom lo (Memory.write a w m) = true := by
  induction m generalizing lo with
  | nil =>
    unfold Memory.write
    split_ifs with hw
    · rfl
    · exact Memory.wfFrom_cons.mpr ⟨hlo, ha, hw, rfl⟩
  | cons p m ih =>
    obtain ⟨c, x⟩ := p
    have hc := Memory.wfFrom_cons.mp hm
    unfold Memory.write
    split_ifs with h1 h2 h3 h4
    · exact hm
    · exact Memory.wfFrom_cons.mpr ⟨hlo, ha, h2, Memory.wfFrom_cons.mpr ⟨by omega, hc.2⟩⟩
    · exact Memory.wfFrom_mono (by omega) hc.2.2.2
    · exact Memory.wfFrom_cons.mpr ⟨hlo, ha, h4, by subst h3; exact hc.2.2.2⟩
    · exact Memory.wfFrom_cons.mpr ⟨hc.1, hc.2.1, hc.2.2.1, ih hc.2.2.2 (by omega)⟩

/-- Every memory operation keeps the canonical form. -/
theorem Memory.write_wf {m : Memory} (hm : m.wf = true) (a : Address) (w : Word) :
    (Memory.write a.toNat w m).wf = true :=
  Memory.write_wfFrom hm (Nat.zero_le _) a.isLt w

/-- Equal arrays are equal lists: the form is canonical. -/
theorem Memory.eq_of_read_eq {lo : Nat} {m n : Memory} (hm : Memory.wfFrom lo m = true)
    (hn : Memory.wfFrom lo n = true) (h : ∀ a, Memory.read a m = Memory.read a n) : m = n := by
  induction m generalizing lo n with
  | nil =>
    cases n with
    | nil => rfl
    | cons q n =>
      obtain ⟨c, y⟩ := q
      have hy := (Memory.wfFrom_cons.mp hn).2.2.1
      have := h c
      simp [Memory.read_cons] at this
      exact absurd this.symm hy
  | cons p m ih =>
    obtain ⟨b, x⟩ := p
    have hb := Memory.wfFrom_cons.mp hm
    cases n with
    | nil =>
      have := h b
      simp [Memory.read_cons] at this
      exact absurd this hb.2.2.1
    | cons q n =>
      obtain ⟨c, y⟩ := q
      have hc := Memory.wfFrom_cons.mp hn
      rcases Nat.lt_trichotomy b c with hlt | heq | hgt
      · have := h b
        rw [Memory.read_cons, if_pos rfl, Memory.read_cons, if_neg (by omega),
          Memory.read_below hc.2.2.2 (by omega)] at this
        exact absurd this hb.2.2.1
      · subst heq
        have hx := h b
        rw [Memory.read_cons, Memory.read_cons, if_pos rfl, if_pos rfl] at hx
        have htail : m = n := by
          refine ih hb.2.2.2 hc.2.2.2 fun a => ?_
          by_cases hab : a = b
          · subst hab
            rw [Memory.read_below hb.2.2.2 (by omega), Memory.read_below hc.2.2.2 (by omega)]
          · have := h a
            rwa [Memory.read_cons, Memory.read_cons, if_neg hab, if_neg hab] at this
        rw [hx, htail]
      · have := h c
        rw [Memory.read_cons, if_neg (by omega), Memory.read_cons, if_pos rfl,
          Memory.read_below hb.2.2.2 (by omega)] at this
        exact absurd this.symm hc.2.2.1

end Sys2Proof.Machine
end

