-- ==== Sys2Proof/Laws/State.lean ====
section
/-! SUPPORT. What each state operation does to each field it does not change, and its own small facts. -/

namespace Sys2Proof.Machine

/-! ### setGpr -/

@[simp] theorem State.setGpr_ixrs (r : BitVec 2) (v : Word) (s : State) : (State.setGpr r v s).ixrs = s.ixrs := rfl
@[simp] theorem State.setGpr_frs (r : BitVec 2) (v : Word) (s : State) : (State.setGpr r v s).frs = s.frs := rfl
@[simp] theorem State.setGpr_cc (r : BitVec 2) (v : Word) (s : State) : (State.setGpr r v s).cc = s.cc := rfl
@[simp] theorem State.setGpr_carry (r : BitVec 2) (v : Word) (s : State) : (State.setGpr r v s).carry = s.carry := rfl
@[simp] theorem State.setGpr_pc (r : BitVec 2) (v : Word) (s : State) : (State.setGpr r v s).pc = s.pc := rfl
@[simp] theorem State.setGpr_ir (r : BitVec 2) (v : Word) (s : State) : (State.setGpr r v s).ir = s.ir := rfl
@[simp] theorem State.setGpr_mar (r : BitVec 2) (v : Word) (s : State) : (State.setGpr r v s).mar = s.mar := rfl
@[simp] theorem State.setGpr_mbr (r : BitVec 2) (v : Word) (s : State) : (State.setGpr r v s).mbr = s.mbr := rfl
@[simp] theorem State.setGpr_mem (r : BitVec 2) (v : Word) (s : State) : (State.setGpr r v s).mem = s.mem := rfl
@[simp] theorem State.setGpr_cache (r : BitVec 2) (v : Word) (s : State) : (State.setGpr r v s).cache = s.cache := rfl
@[simp] theorem State.setGpr_bht (r : BitVec 2) (v : Word) (s : State) : (State.setGpr r v s).bht = s.bht := rfl
@[simp] theorem State.setGpr_predictions (r : BitVec 2) (v : Word) (s : State) : (State.setGpr r v s).predictions = s.predictions := rfl
@[simp] theorem State.setGpr_correct (r : BitVec 2) (v : Word) (s : State) : (State.setGpr r v s).correct = s.correct := rfl
@[simp] theorem State.setGpr_runState (r : BitVec 2) (v : Word) (s : State) : (State.setGpr r v s).runState = s.runState := rfl
@[simp] theorem State.setGpr_pending (r : BitVec 2) (v : Word) (s : State) : (State.setGpr r v s).pending = s.pending := rfl
@[simp] theorem State.setGpr_icount (r : BitVec 2) (v : Word) (s : State) : (State.setGpr r v s).icount = s.icount := rfl
@[simp] theorem State.setGpr_faults (r : BitVec 2) (v : Word) (s : State) : (State.setGpr r v s).faults = s.faults := rfl
@[simp] theorem State.setGpr_refused (r : BitVec 2) (v : Word) (s : State) : (State.setGpr r v s).refused = s.refused := rfl
@[simp] theorem State.setGpr_status (r : BitVec 2) (v : Word) (s : State) : (State.setGpr r v s).status = s.status := rfl

/-! ### setIxr -/

@[simp] theorem State.setIxr_gprs (x : IndexReg) (v : Word) (s : State) : (State.setIxr x v s).gprs = s.gprs := by cases x <;> rfl
@[simp] theorem State.setIxr_frs (x : IndexReg) (v : Word) (s : State) : (State.setIxr x v s).frs = s.frs := by cases x <;> rfl
@[simp] theorem State.setIxr_cc (x : IndexReg) (v : Word) (s : State) : (State.setIxr x v s).cc = s.cc := by cases x <;> rfl
@[simp] theorem State.setIxr_carry (x : IndexReg) (v : Word) (s : State) : (State.setIxr x v s).carry = s.carry := by cases x <;> rfl
@[simp] theorem State.setIxr_pc (x : IndexReg) (v : Word) (s : State) : (State.setIxr x v s).pc = s.pc := by cases x <;> rfl
@[simp] theorem State.setIxr_ir (x : IndexReg) (v : Word) (s : State) : (State.setIxr x v s).ir = s.ir := by cases x <;> rfl
@[simp] theorem State.setIxr_mar (x : IndexReg) (v : Word) (s : State) : (State.setIxr x v s).mar = s.mar := by cases x <;> rfl
@[simp] theorem State.setIxr_mbr (x : IndexReg) (v : Word) (s : State) : (State.setIxr x v s).mbr = s.mbr := by cases x <;> rfl
@[simp] theorem State.setIxr_mem (x : IndexReg) (v : Word) (s : State) : (State.setIxr x v s).mem = s.mem := by cases x <;> rfl
@[simp] theorem State.setIxr_cache (x : IndexReg) (v : Word) (s : State) : (State.setIxr x v s).cache = s.cache := by cases x <;> rfl
@[simp] theorem State.setIxr_bht (x : IndexReg) (v : Word) (s : State) : (State.setIxr x v s).bht = s.bht := by cases x <;> rfl
@[simp] theorem State.setIxr_predictions (x : IndexReg) (v : Word) (s : State) : (State.setIxr x v s).predictions = s.predictions := by cases x <;> rfl
@[simp] theorem State.setIxr_correct (x : IndexReg) (v : Word) (s : State) : (State.setIxr x v s).correct = s.correct := by cases x <;> rfl
@[simp] theorem State.setIxr_runState (x : IndexReg) (v : Word) (s : State) : (State.setIxr x v s).runState = s.runState := by cases x <;> rfl
@[simp] theorem State.setIxr_pending (x : IndexReg) (v : Word) (s : State) : (State.setIxr x v s).pending = s.pending := by cases x <;> rfl
@[simp] theorem State.setIxr_icount (x : IndexReg) (v : Word) (s : State) : (State.setIxr x v s).icount = s.icount := by cases x <;> rfl
@[simp] theorem State.setIxr_faults (x : IndexReg) (v : Word) (s : State) : (State.setIxr x v s).faults = s.faults := by cases x <;> rfl
@[simp] theorem State.setIxr_refused (x : IndexReg) (v : Word) (s : State) : (State.setIxr x v s).refused = s.refused := by cases x <;> rfl
@[simp] theorem State.setIxr_status (x : IndexReg) (v : Word) (s : State) : (State.setIxr x v s).status = s.status := by cases x <;> rfl

/-! ### setFr -/

@[simp] theorem State.setFr_gprs (f : FloatReg) (v : Word) (s : State) : (State.setFr f v s).gprs = s.gprs := by cases f <;> rfl
@[simp] theorem State.setFr_ixrs (f : FloatReg) (v : Word) (s : State) : (State.setFr f v s).ixrs = s.ixrs := by cases f <;> rfl
@[simp] theorem State.setFr_cc (f : FloatReg) (v : Word) (s : State) : (State.setFr f v s).cc = s.cc := by cases f <;> rfl
@[simp] theorem State.setFr_carry (f : FloatReg) (v : Word) (s : State) : (State.setFr f v s).carry = s.carry := by cases f <;> rfl
@[simp] theorem State.setFr_pc (f : FloatReg) (v : Word) (s : State) : (State.setFr f v s).pc = s.pc := by cases f <;> rfl
@[simp] theorem State.setFr_ir (f : FloatReg) (v : Word) (s : State) : (State.setFr f v s).ir = s.ir := by cases f <;> rfl
@[simp] theorem State.setFr_mar (f : FloatReg) (v : Word) (s : State) : (State.setFr f v s).mar = s.mar := by cases f <;> rfl
@[simp] theorem State.setFr_mbr (f : FloatReg) (v : Word) (s : State) : (State.setFr f v s).mbr = s.mbr := by cases f <;> rfl
@[simp] theorem State.setFr_mem (f : FloatReg) (v : Word) (s : State) : (State.setFr f v s).mem = s.mem := by cases f <;> rfl
@[simp] theorem State.setFr_cache (f : FloatReg) (v : Word) (s : State) : (State.setFr f v s).cache = s.cache := by cases f <;> rfl
@[simp] theorem State.setFr_bht (f : FloatReg) (v : Word) (s : State) : (State.setFr f v s).bht = s.bht := by cases f <;> rfl
@[simp] theorem State.setFr_predictions (f : FloatReg) (v : Word) (s : State) : (State.setFr f v s).predictions = s.predictions := by cases f <;> rfl
@[simp] theorem State.setFr_correct (f : FloatReg) (v : Word) (s : State) : (State.setFr f v s).correct = s.correct := by cases f <;> rfl
@[simp] theorem State.setFr_runState (f : FloatReg) (v : Word) (s : State) : (State.setFr f v s).runState = s.runState := by cases f <;> rfl
@[simp] theorem State.setFr_pending (f : FloatReg) (v : Word) (s : State) : (State.setFr f v s).pending = s.pending := by cases f <;> rfl
@[simp] theorem State.setFr_icount (f : FloatReg) (v : Word) (s : State) : (State.setFr f v s).icount = s.icount := by cases f <;> rfl
@[simp] theorem State.setFr_faults (f : FloatReg) (v : Word) (s : State) : (State.setFr f v s).faults = s.faults := by cases f <;> rfl
@[simp] theorem State.setFr_refused (f : FloatReg) (v : Word) (s : State) : (State.setFr f v s).refused = s.refused := by cases f <;> rfl
@[simp] theorem State.setFr_status (f : FloatReg) (v : Word) (s : State) : (State.setFr f v s).status = s.status := by cases f <;> rfl

/-! ### noteOverflow -/

@[simp] theorem State.noteOverflow_gprs (b : Bool) (s : State) : (State.noteOverflow b s).gprs = s.gprs := rfl
@[simp] theorem State.noteOverflow_ixrs (b : Bool) (s : State) : (State.noteOverflow b s).ixrs = s.ixrs := rfl
@[simp] theorem State.noteOverflow_frs (b : Bool) (s : State) : (State.noteOverflow b s).frs = s.frs := rfl
@[simp] theorem State.noteOverflow_carry (b : Bool) (s : State) : (State.noteOverflow b s).carry = s.carry := rfl
@[simp] theorem State.noteOverflow_pc (b : Bool) (s : State) : (State.noteOverflow b s).pc = s.pc := rfl
@[simp] theorem State.noteOverflow_ir (b : Bool) (s : State) : (State.noteOverflow b s).ir = s.ir := rfl
@[simp] theorem State.noteOverflow_mar (b : Bool) (s : State) : (State.noteOverflow b s).mar = s.mar := rfl
@[simp] theorem State.noteOverflow_mbr (b : Bool) (s : State) : (State.noteOverflow b s).mbr = s.mbr := rfl
@[simp] theorem State.noteOverflow_mem (b : Bool) (s : State) : (State.noteOverflow b s).mem = s.mem := rfl
@[simp] theorem State.noteOverflow_cache (b : Bool) (s : State) : (State.noteOverflow b s).cache = s.cache := rfl
@[simp] theorem State.noteOverflow_bht (b : Bool) (s : State) : (State.noteOverflow b s).bht = s.bht := rfl
@[simp] theorem State.noteOverflow_predictions (b : Bool) (s : State) : (State.noteOverflow b s).predictions = s.predictions := rfl
@[simp] theorem State.noteOverflow_correct (b : Bool) (s : State) : (State.noteOverflow b s).correct = s.correct := rfl
@[simp] theorem State.noteOverflow_runState (b : Bool) (s : State) : (State.noteOverflow b s).runState = s.runState := rfl
@[simp] theorem State.noteOverflow_pending (b : Bool) (s : State) : (State.noteOverflow b s).pending = s.pending := rfl
@[simp] theorem State.noteOverflow_icount (b : Bool) (s : State) : (State.noteOverflow b s).icount = s.icount := rfl
@[simp] theorem State.noteOverflow_faults (b : Bool) (s : State) : (State.noteOverflow b s).faults = s.faults := rfl
@[simp] theorem State.noteOverflow_refused (b : Bool) (s : State) : (State.noteOverflow b s).refused = s.refused := rfl
@[simp] theorem State.noteOverflow_status (b : Bool) (s : State) : (State.noteOverflow b s).status = s.status := rfl

/-! ### noteUnderflow -/

@[simp] theorem State.noteUnderflow_gprs (b : Bool) (s : State) : (State.noteUnderflow b s).gprs = s.gprs := rfl
@[simp] theorem State.noteUnderflow_ixrs (b : Bool) (s : State) : (State.noteUnderflow b s).ixrs = s.ixrs := rfl
@[simp] theorem State.noteUnderflow_frs (b : Bool) (s : State) : (State.noteUnderflow b s).frs = s.frs := rfl
@[simp] theorem State.noteUnderflow_carry (b : Bool) (s : State) : (State.noteUnderflow b s).carry = s.carry := rfl
@[simp] theorem State.noteUnderflow_pc (b : Bool) (s : State) : (State.noteUnderflow b s).pc = s.pc := rfl
@[simp] theorem State.noteUnderflow_ir (b : Bool) (s : State) : (State.noteUnderflow b s).ir = s.ir := rfl
@[simp] theorem State.noteUnderflow_mar (b : Bool) (s : State) : (State.noteUnderflow b s).mar = s.mar := rfl
@[simp] theorem State.noteUnderflow_mbr (b : Bool) (s : State) : (State.noteUnderflow b s).mbr = s.mbr := rfl
@[simp] theorem State.noteUnderflow_mem (b : Bool) (s : State) : (State.noteUnderflow b s).mem = s.mem := rfl
@[simp] theorem State.noteUnderflow_cache (b : Bool) (s : State) : (State.noteUnderflow b s).cache = s.cache := rfl
@[simp] theorem State.noteUnderflow_bht (b : Bool) (s : State) : (State.noteUnderflow b s).bht = s.bht := rfl
@[simp] theorem State.noteUnderflow_predictions (b : Bool) (s : State) : (State.noteUnderflow b s).predictions = s.predictions := rfl
@[simp] theorem State.noteUnderflow_correct (b : Bool) (s : State) : (State.noteUnderflow b s).correct = s.correct := rfl
@[simp] theorem State.noteUnderflow_runState (b : Bool) (s : State) : (State.noteUnderflow b s).runState = s.runState := rfl
@[simp] theorem State.noteUnderflow_pending (b : Bool) (s : State) : (State.noteUnderflow b s).pending = s.pending := rfl
@[simp] theorem State.noteUnderflow_icount (b : Bool) (s : State) : (State.noteUnderflow b s).icount = s.icount := rfl
@[simp] theorem State.noteUnderflow_faults (b : Bool) (s : State) : (State.noteUnderflow b s).faults = s.faults := rfl
@[simp] theorem State.noteUnderflow_refused (b : Bool) (s : State) : (State.noteUnderflow b s).refused = s.refused := rfl
@[simp] theorem State.noteUnderflow_status (b : Bool) (s : State) : (State.noteUnderflow b s).status = s.status := rfl

/-! ### setDivZero -/

@[simp] theorem State.setDivZero_gprs (s : State) : (State.setDivZero s).gprs = s.gprs := rfl
@[simp] theorem State.setDivZero_ixrs (s : State) : (State.setDivZero s).ixrs = s.ixrs := rfl
@[simp] theorem State.setDivZero_frs (s : State) : (State.setDivZero s).frs = s.frs := rfl
@[simp] theorem State.setDivZero_carry (s : State) : (State.setDivZero s).carry = s.carry := rfl
@[simp] theorem State.setDivZero_pc (s : State) : (State.setDivZero s).pc = s.pc := rfl
@[simp] theorem State.setDivZero_ir (s : State) : (State.setDivZero s).ir = s.ir := rfl
@[simp] theorem State.setDivZero_mar (s : State) : (State.setDivZero s).mar = s.mar := rfl
@[simp] theorem State.setDivZero_mbr (s : State) : (State.setDivZero s).mbr = s.mbr := rfl
@[simp] theorem State.setDivZero_mem (s : State) : (State.setDivZero s).mem = s.mem := rfl
@[simp] theorem State.setDivZero_cache (s : State) : (State.setDivZero s).cache = s.cache := rfl
@[simp] theorem State.setDivZero_bht (s : State) : (State.setDivZero s).bht = s.bht := rfl
@[simp] theorem State.setDivZero_predictions (s : State) : (State.setDivZero s).predictions = s.predictions := rfl
@[simp] theorem State.setDivZero_correct (s : State) : (State.setDivZero s).correct = s.correct := rfl
@[simp] theorem State.setDivZero_runState (s : State) : (State.setDivZero s).runState = s.runState := rfl
@[simp] theorem State.setDivZero_pending (s : State) : (State.setDivZero s).pending = s.pending := rfl
@[simp] theorem State.setDivZero_icount (s : State) : (State.setDivZero s).icount = s.icount := rfl
@[simp] theorem State.setDivZero_faults (s : State) : (State.setDivZero s).faults = s.faults := rfl
@[simp] theorem State.setDivZero_refused (s : State) : (State.setDivZero s).refused = s.refused := rfl
@[simp] theorem State.setDivZero_status (s : State) : (State.setDivZero s).status = s.status := rfl

/-! ### assignEqual -/

@[simp] theorem State.assignEqual_gprs (b : Bool) (s : State) : (State.assignEqual b s).gprs = s.gprs := rfl
@[simp] theorem State.assignEqual_ixrs (b : Bool) (s : State) : (State.assignEqual b s).ixrs = s.ixrs := rfl
@[simp] theorem State.assignEqual_frs (b : Bool) (s : State) : (State.assignEqual b s).frs = s.frs := rfl
@[simp] theorem State.assignEqual_carry (b : Bool) (s : State) : (State.assignEqual b s).carry = s.carry := rfl
@[simp] theorem State.assignEqual_pc (b : Bool) (s : State) : (State.assignEqual b s).pc = s.pc := rfl
@[simp] theorem State.assignEqual_ir (b : Bool) (s : State) : (State.assignEqual b s).ir = s.ir := rfl
@[simp] theorem State.assignEqual_mar (b : Bool) (s : State) : (State.assignEqual b s).mar = s.mar := rfl
@[simp] theorem State.assignEqual_mbr (b : Bool) (s : State) : (State.assignEqual b s).mbr = s.mbr := rfl
@[simp] theorem State.assignEqual_mem (b : Bool) (s : State) : (State.assignEqual b s).mem = s.mem := rfl
@[simp] theorem State.assignEqual_cache (b : Bool) (s : State) : (State.assignEqual b s).cache = s.cache := rfl
@[simp] theorem State.assignEqual_bht (b : Bool) (s : State) : (State.assignEqual b s).bht = s.bht := rfl
@[simp] theorem State.assignEqual_predictions (b : Bool) (s : State) : (State.assignEqual b s).predictions = s.predictions := rfl
@[simp] theorem State.assignEqual_correct (b : Bool) (s : State) : (State.assignEqual b s).correct = s.correct := rfl
@[simp] theorem State.assignEqual_runState (b : Bool) (s : State) : (State.assignEqual b s).runState = s.runState := rfl
@[simp] theorem State.assignEqual_pending (b : Bool) (s : State) : (State.assignEqual b s).pending = s.pending := rfl
@[simp] theorem State.assignEqual_icount (b : Bool) (s : State) : (State.assignEqual b s).icount = s.icount := rfl
@[simp] theorem State.assignEqual_faults (b : Bool) (s : State) : (State.assignEqual b s).faults = s.faults := rfl
@[simp] theorem State.assignEqual_refused (b : Bool) (s : State) : (State.assignEqual b s).refused = s.refused := rfl
@[simp] theorem State.assignEqual_status (b : Bool) (s : State) : (State.assignEqual b s).status = s.status := rfl

/-! ### assignCarry -/

@[simp] theorem State.assignCarry_gprs (b : Bool) (s : State) : (State.assignCarry b s).gprs = s.gprs := rfl
@[simp] theorem State.assignCarry_ixrs (b : Bool) (s : State) : (State.assignCarry b s).ixrs = s.ixrs := rfl
@[simp] theorem State.assignCarry_frs (b : Bool) (s : State) : (State.assignCarry b s).frs = s.frs := rfl
@[simp] theorem State.assignCarry_cc (b : Bool) (s : State) : (State.assignCarry b s).cc = s.cc := rfl
@[simp] theorem State.assignCarry_pc (b : Bool) (s : State) : (State.assignCarry b s).pc = s.pc := rfl
@[simp] theorem State.assignCarry_ir (b : Bool) (s : State) : (State.assignCarry b s).ir = s.ir := rfl
@[simp] theorem State.assignCarry_mar (b : Bool) (s : State) : (State.assignCarry b s).mar = s.mar := rfl
@[simp] theorem State.assignCarry_mbr (b : Bool) (s : State) : (State.assignCarry b s).mbr = s.mbr := rfl
@[simp] theorem State.assignCarry_mem (b : Bool) (s : State) : (State.assignCarry b s).mem = s.mem := rfl
@[simp] theorem State.assignCarry_cache (b : Bool) (s : State) : (State.assignCarry b s).cache = s.cache := rfl
@[simp] theorem State.assignCarry_bht (b : Bool) (s : State) : (State.assignCarry b s).bht = s.bht := rfl
@[simp] theorem State.assignCarry_predictions (b : Bool) (s : State) : (State.assignCarry b s).predictions = s.predictions := rfl
@[simp] theorem State.assignCarry_correct (b : Bool) (s : State) : (State.assignCarry b s).correct = s.correct := rfl
@[simp] theorem State.assignCarry_runState (b : Bool) (s : State) : (State.assignCarry b s).runState = s.runState := rfl
@[simp] theorem State.assignCarry_pending (b : Bool) (s : State) : (State.assignCarry b s).pending = s.pending := rfl
@[simp] theorem State.assignCarry_icount (b : Bool) (s : State) : (State.assignCarry b s).icount = s.icount := rfl
@[simp] theorem State.assignCarry_faults (b : Bool) (s : State) : (State.assignCarry b s).faults = s.faults := rfl
@[simp] theorem State.assignCarry_refused (b : Bool) (s : State) : (State.assignCarry b s).refused = s.refused := rfl
@[simp] theorem State.assignCarry_status (b : Bool) (s : State) : (State.assignCarry b s).status = s.status := rfl

/-! ### latch -/

@[simp] theorem State.latch_gprs (a : Address) (w : Word) (s : State) : (State.latch a w s).gprs = s.gprs := rfl
@[simp] theorem State.latch_ixrs (a : Address) (w : Word) (s : State) : (State.latch a w s).ixrs = s.ixrs := rfl
@[simp] theorem State.latch_frs (a : Address) (w : Word) (s : State) : (State.latch a w s).frs = s.frs := rfl
@[simp] theorem State.latch_cc (a : Address) (w : Word) (s : State) : (State.latch a w s).cc = s.cc := rfl
@[simp] theorem State.latch_carry (a : Address) (w : Word) (s : State) : (State.latch a w s).carry = s.carry := rfl
@[simp] theorem State.latch_pc (a : Address) (w : Word) (s : State) : (State.latch a w s).pc = s.pc := rfl
@[simp] theorem State.latch_ir (a : Address) (w : Word) (s : State) : (State.latch a w s).ir = s.ir := rfl
@[simp] theorem State.latch_mem (a : Address) (w : Word) (s : State) : (State.latch a w s).mem = s.mem := rfl
@[simp] theorem State.latch_cache (a : Address) (w : Word) (s : State) : (State.latch a w s).cache = s.cache := rfl
@[simp] theorem State.latch_bht (a : Address) (w : Word) (s : State) : (State.latch a w s).bht = s.bht := rfl
@[simp] theorem State.latch_predictions (a : Address) (w : Word) (s : State) : (State.latch a w s).predictions = s.predictions := rfl
@[simp] theorem State.latch_correct (a : Address) (w : Word) (s : State) : (State.latch a w s).correct = s.correct := rfl
@[simp] theorem State.latch_runState (a : Address) (w : Word) (s : State) : (State.latch a w s).runState = s.runState := rfl
@[simp] theorem State.latch_pending (a : Address) (w : Word) (s : State) : (State.latch a w s).pending = s.pending := rfl
@[simp] theorem State.latch_icount (a : Address) (w : Word) (s : State) : (State.latch a w s).icount = s.icount := rfl
@[simp] theorem State.latch_faults (a : Address) (w : Word) (s : State) : (State.latch a w s).faults = s.faults := rfl
@[simp] theorem State.latch_refused (a : Address) (w : Word) (s : State) : (State.latch a w s).refused = s.refused := rfl
@[simp] theorem State.latch_status (a : Address) (w : Word) (s : State) : (State.latch a w s).status = s.status := rfl

/-! ### arrayRead -/

@[simp] theorem State.arrayRead_gprs (a : Address) (s : State) : (State.arrayRead a s).gprs = s.gprs := rfl
@[simp] theorem State.arrayRead_ixrs (a : Address) (s : State) : (State.arrayRead a s).ixrs = s.ixrs := rfl
@[simp] theorem State.arrayRead_frs (a : Address) (s : State) : (State.arrayRead a s).frs = s.frs := rfl
@[simp] theorem State.arrayRead_cc (a : Address) (s : State) : (State.arrayRead a s).cc = s.cc := rfl
@[simp] theorem State.arrayRead_carry (a : Address) (s : State) : (State.arrayRead a s).carry = s.carry := rfl
@[simp] theorem State.arrayRead_pc (a : Address) (s : State) : (State.arrayRead a s).pc = s.pc := rfl
@[simp] theorem State.arrayRead_ir (a : Address) (s : State) : (State.arrayRead a s).ir = s.ir := rfl
@[simp] theorem State.arrayRead_mem (a : Address) (s : State) : (State.arrayRead a s).mem = s.mem := rfl
@[simp] theorem State.arrayRead_cache (a : Address) (s : State) : (State.arrayRead a s).cache = s.cache := rfl
@[simp] theorem State.arrayRead_bht (a : Address) (s : State) : (State.arrayRead a s).bht = s.bht := rfl
@[simp] theorem State.arrayRead_predictions (a : Address) (s : State) : (State.arrayRead a s).predictions = s.predictions := rfl
@[simp] theorem State.arrayRead_correct (a : Address) (s : State) : (State.arrayRead a s).correct = s.correct := rfl
@[simp] theorem State.arrayRead_runState (a : Address) (s : State) : (State.arrayRead a s).runState = s.runState := rfl
@[simp] theorem State.arrayRead_pending (a : Address) (s : State) : (State.arrayRead a s).pending = s.pending := rfl
@[simp] theorem State.arrayRead_icount (a : Address) (s : State) : (State.arrayRead a s).icount = s.icount := rfl
@[simp] theorem State.arrayRead_faults (a : Address) (s : State) : (State.arrayRead a s).faults = s.faults := rfl
@[simp] theorem State.arrayRead_refused (a : Address) (s : State) : (State.arrayRead a s).refused = s.refused := rfl
@[simp] theorem State.arrayRead_status (a : Address) (s : State) : (State.arrayRead a s).status = s.status := rfl

/-! ### arrayWrite -/

@[simp] theorem State.arrayWrite_gprs (a : Address) (w : Word) (s : State) : (State.arrayWrite a w s).gprs = s.gprs := rfl
@[simp] theorem State.arrayWrite_ixrs (a : Address) (w : Word) (s : State) : (State.arrayWrite a w s).ixrs = s.ixrs := rfl
@[simp] theorem State.arrayWrite_frs (a : Address) (w : Word) (s : State) : (State.arrayWrite a w s).frs = s.frs := rfl
@[simp] theorem State.arrayWrite_cc (a : Address) (w : Word) (s : State) : (State.arrayWrite a w s).cc = s.cc := rfl
@[simp] theorem State.arrayWrite_carry (a : Address) (w : Word) (s : State) : (State.arrayWrite a w s).carry = s.carry := rfl
@[simp] theorem State.arrayWrite_pc (a : Address) (w : Word) (s : State) : (State.arrayWrite a w s).pc = s.pc := rfl
@[simp] theorem State.arrayWrite_ir (a : Address) (w : Word) (s : State) : (State.arrayWrite a w s).ir = s.ir := rfl
@[simp] theorem State.arrayWrite_cache (a : Address) (w : Word) (s : State) : (State.arrayWrite a w s).cache = s.cache := rfl
@[simp] theorem State.arrayWrite_bht (a : Address) (w : Word) (s : State) : (State.arrayWrite a w s).bht = s.bht := rfl
@[simp] theorem State.arrayWrite_predictions (a : Address) (w : Word) (s : State) : (State.arrayWrite a w s).predictions = s.predictions := rfl
@[simp] theorem State.arrayWrite_correct (a : Address) (w : Word) (s : State) : (State.arrayWrite a w s).correct = s.correct := rfl
@[simp] theorem State.arrayWrite_runState (a : Address) (w : Word) (s : State) : (State.arrayWrite a w s).runState = s.runState := rfl
@[simp] theorem State.arrayWrite_pending (a : Address) (w : Word) (s : State) : (State.arrayWrite a w s).pending = s.pending := rfl
@[simp] theorem State.arrayWrite_icount (a : Address) (w : Word) (s : State) : (State.arrayWrite a w s).icount = s.icount := rfl
@[simp] theorem State.arrayWrite_faults (a : Address) (w : Word) (s : State) : (State.arrayWrite a w s).faults = s.faults := rfl
@[simp] theorem State.arrayWrite_refused (a : Address) (w : Word) (s : State) : (State.arrayWrite a w s).refused = s.refused := rfl
@[simp] theorem State.arrayWrite_status (a : Address) (w : Word) (s : State) : (State.arrayWrite a w s).status = s.status := rfl

/-! ### fill -/

@[simp] theorem State.fill_gprs (i : Fin 16) (t : BitVec 8) (s : State) : (State.fill i t s).gprs = s.gprs := rfl
@[simp] theorem State.fill_ixrs (i : Fin 16) (t : BitVec 8) (s : State) : (State.fill i t s).ixrs = s.ixrs := rfl
@[simp] theorem State.fill_frs (i : Fin 16) (t : BitVec 8) (s : State) : (State.fill i t s).frs = s.frs := rfl
@[simp] theorem State.fill_cc (i : Fin 16) (t : BitVec 8) (s : State) : (State.fill i t s).cc = s.cc := rfl
@[simp] theorem State.fill_carry (i : Fin 16) (t : BitVec 8) (s : State) : (State.fill i t s).carry = s.carry := rfl
@[simp] theorem State.fill_pc (i : Fin 16) (t : BitVec 8) (s : State) : (State.fill i t s).pc = s.pc := rfl
@[simp] theorem State.fill_ir (i : Fin 16) (t : BitVec 8) (s : State) : (State.fill i t s).ir = s.ir := rfl
@[simp] theorem State.fill_mem (i : Fin 16) (t : BitVec 8) (s : State) : (State.fill i t s).mem = s.mem := rfl
@[simp] theorem State.fill_bht (i : Fin 16) (t : BitVec 8) (s : State) : (State.fill i t s).bht = s.bht := rfl
@[simp] theorem State.fill_predictions (i : Fin 16) (t : BitVec 8) (s : State) : (State.fill i t s).predictions = s.predictions := rfl
@[simp] theorem State.fill_correct (i : Fin 16) (t : BitVec 8) (s : State) : (State.fill i t s).correct = s.correct := rfl
@[simp] theorem State.fill_runState (i : Fin 16) (t : BitVec 8) (s : State) : (State.fill i t s).runState = s.runState := rfl
@[simp] theorem State.fill_pending (i : Fin 16) (t : BitVec 8) (s : State) : (State.fill i t s).pending = s.pending := rfl
@[simp] theorem State.fill_icount (i : Fin 16) (t : BitVec 8) (s : State) : (State.fill i t s).icount = s.icount := rfl
@[simp] theorem State.fill_faults (i : Fin 16) (t : BitVec 8) (s : State) : (State.fill i t s).faults = s.faults := rfl
@[simp] theorem State.fill_refused (i : Fin 16) (t : BitVec 8) (s : State) : (State.fill i t s).refused = s.refused := rfl
@[simp] theorem State.fill_status (i : Fin 16) (t : BitVec 8) (s : State) : (State.fill i t s).status = s.status := rfl

/-! ### promote -/

@[simp] theorem State.promote_gprs (i : Fin 16) (s : State) : (State.promote i s).gprs = s.gprs := rfl
@[simp] theorem State.promote_ixrs (i : Fin 16) (s : State) : (State.promote i s).ixrs = s.ixrs := rfl
@[simp] theorem State.promote_frs (i : Fin 16) (s : State) : (State.promote i s).frs = s.frs := rfl
@[simp] theorem State.promote_cc (i : Fin 16) (s : State) : (State.promote i s).cc = s.cc := rfl
@[simp] theorem State.promote_carry (i : Fin 16) (s : State) : (State.promote i s).carry = s.carry := rfl
@[simp] theorem State.promote_pc (i : Fin 16) (s : State) : (State.promote i s).pc = s.pc := rfl
@[simp] theorem State.promote_ir (i : Fin 16) (s : State) : (State.promote i s).ir = s.ir := rfl
@[simp] theorem State.promote_mar (i : Fin 16) (s : State) : (State.promote i s).mar = s.mar := rfl
@[simp] theorem State.promote_mbr (i : Fin 16) (s : State) : (State.promote i s).mbr = s.mbr := rfl
@[simp] theorem State.promote_mem (i : Fin 16) (s : State) : (State.promote i s).mem = s.mem := rfl
@[simp] theorem State.promote_bht (i : Fin 16) (s : State) : (State.promote i s).bht = s.bht := rfl
@[simp] theorem State.promote_predictions (i : Fin 16) (s : State) : (State.promote i s).predictions = s.predictions := rfl
@[simp] theorem State.promote_correct (i : Fin 16) (s : State) : (State.promote i s).correct = s.correct := rfl
@[simp] theorem State.promote_runState (i : Fin 16) (s : State) : (State.promote i s).runState = s.runState := rfl
@[simp] theorem State.promote_pending (i : Fin 16) (s : State) : (State.promote i s).pending = s.pending := rfl
@[simp] theorem State.promote_icount (i : Fin 16) (s : State) : (State.promote i s).icount = s.icount := rfl
@[simp] theorem State.promote_faults (i : Fin 16) (s : State) : (State.promote i s).faults = s.faults := rfl
@[simp] theorem State.promote_refused (i : Fin 16) (s : State) : (State.promote i s).refused = s.refused := rfl
@[simp] theorem State.promote_status (i : Fin 16) (s : State) : (State.promote i s).status = s.status := rfl

/-! ### directWrite -/

@[simp] theorem State.directWrite_gprs (a : Address) (w : Word) (s : State) : (State.directWrite a w s).gprs = s.gprs := rfl
@[simp] theorem State.directWrite_ixrs (a : Address) (w : Word) (s : State) : (State.directWrite a w s).ixrs = s.ixrs := rfl
@[simp] theorem State.directWrite_frs (a : Address) (w : Word) (s : State) : (State.directWrite a w s).frs = s.frs := rfl
@[simp] theorem State.directWrite_cc (a : Address) (w : Word) (s : State) : (State.directWrite a w s).cc = s.cc := rfl
@[simp] theorem State.directWrite_carry (a : Address) (w : Word) (s : State) : (State.directWrite a w s).carry = s.carry := rfl
@[simp] theorem State.directWrite_pc (a : Address) (w : Word) (s : State) : (State.directWrite a w s).pc = s.pc := rfl
@[simp] theorem State.directWrite_ir (a : Address) (w : Word) (s : State) : (State.directWrite a w s).ir = s.ir := rfl
@[simp] theorem State.directWrite_bht (a : Address) (w : Word) (s : State) : (State.directWrite a w s).bht = s.bht := rfl
@[simp] theorem State.directWrite_predictions (a : Address) (w : Word) (s : State) : (State.directWrite a w s).predictions = s.predictions := rfl
@[simp] theorem State.directWrite_correct (a : Address) (w : Word) (s : State) : (State.directWrite a w s).correct = s.correct := rfl
@[simp] theorem State.directWrite_runState (a : Address) (w : Word) (s : State) : (State.directWrite a w s).runState = s.runState := rfl
@[simp] theorem State.directWrite_pending (a : Address) (w : Word) (s : State) : (State.directWrite a w s).pending = s.pending := rfl
@[simp] theorem State.directWrite_icount (a : Address) (w : Word) (s : State) : (State.directWrite a w s).icount = s.icount := rfl
@[simp] theorem State.directWrite_faults (a : Address) (w : Word) (s : State) : (State.directWrite a w s).faults = s.faults := rfl
@[simp] theorem State.directWrite_refused (a : Address) (w : Word) (s : State) : (State.directWrite a w s).refused = s.refused := rfl
@[simp] theorem State.directWrite_status (a : Address) (w : Word) (s : State) : (State.directWrite a w s).status = s.status := rfl

/-! ### predictorProtocol -/

@[simp] theorem State.predictorProtocol_gprs (ia : Nat) (b : Bool) (t n : Nat) (s : State) : (State.predictorProtocol ia b t n s).gprs = s.gprs := rfl
@[simp] theorem State.predictorProtocol_ixrs (ia : Nat) (b : Bool) (t n : Nat) (s : State) : (State.predictorProtocol ia b t n s).ixrs = s.ixrs := rfl
@[simp] theorem State.predictorProtocol_frs (ia : Nat) (b : Bool) (t n : Nat) (s : State) : (State.predictorProtocol ia b t n s).frs = s.frs := rfl
@[simp] theorem State.predictorProtocol_cc (ia : Nat) (b : Bool) (t n : Nat) (s : State) : (State.predictorProtocol ia b t n s).cc = s.cc := rfl
@[simp] theorem State.predictorProtocol_carry (ia : Nat) (b : Bool) (t n : Nat) (s : State) : (State.predictorProtocol ia b t n s).carry = s.carry := rfl
@[simp] theorem State.predictorProtocol_pc (ia : Nat) (b : Bool) (t n : Nat) (s : State) : (State.predictorProtocol ia b t n s).pc = s.pc := rfl
@[simp] theorem State.predictorProtocol_ir (ia : Nat) (b : Bool) (t n : Nat) (s : State) : (State.predictorProtocol ia b t n s).ir = s.ir := rfl
@[simp] theorem State.predictorProtocol_mar (ia : Nat) (b : Bool) (t n : Nat) (s : State) : (State.predictorProtocol ia b t n s).mar = s.mar := rfl
@[simp] theorem State.predictorProtocol_mbr (ia : Nat) (b : Bool) (t n : Nat) (s : State) : (State.predictorProtocol ia b t n s).mbr = s.mbr := rfl
@[simp] theorem State.predictorProtocol_mem (ia : Nat) (b : Bool) (t n : Nat) (s : State) : (State.predictorProtocol ia b t n s).mem = s.mem := rfl
@[simp] theorem State.predictorProtocol_cache (ia : Nat) (b : Bool) (t n : Nat) (s : State) : (State.predictorProtocol ia b t n s).cache = s.cache := rfl
@[simp] theorem State.predictorProtocol_runState (ia : Nat) (b : Bool) (t n : Nat) (s : State) : (State.predictorProtocol ia b t n s).runState = s.runState := rfl
@[simp] theorem State.predictorProtocol_pending (ia : Nat) (b : Bool) (t n : Nat) (s : State) : (State.predictorProtocol ia b t n s).pending = s.pending := rfl
@[simp] theorem State.predictorProtocol_icount (ia : Nat) (b : Bool) (t n : Nat) (s : State) : (State.predictorProtocol ia b t n s).icount = s.icount := rfl
@[simp] theorem State.predictorProtocol_faults (ia : Nat) (b : Bool) (t n : Nat) (s : State) : (State.predictorProtocol ia b t n s).faults = s.faults := rfl
@[simp] theorem State.predictorProtocol_refused (ia : Nat) (b : Bool) (t n : Nat) (s : State) : (State.predictorProtocol ia b t n s).refused = s.refused := rfl
@[simp] theorem State.predictorProtocol_status (ia : Nat) (b : Bool) (t n : Nat) (s : State) : (State.predictorProtocol ia b t n s).status = s.status := rfl

/-! ### recordFault -/

@[simp] theorem State.recordFault_gprs (e : Fault) (a : Option Nat) (s : State) : (State.recordFault e a s).gprs = s.gprs := rfl
@[simp] theorem State.recordFault_ixrs (e : Fault) (a : Option Nat) (s : State) : (State.recordFault e a s).ixrs = s.ixrs := rfl
@[simp] theorem State.recordFault_frs (e : Fault) (a : Option Nat) (s : State) : (State.recordFault e a s).frs = s.frs := rfl
@[simp] theorem State.recordFault_cc (e : Fault) (a : Option Nat) (s : State) : (State.recordFault e a s).cc = s.cc := rfl
@[simp] theorem State.recordFault_carry (e : Fault) (a : Option Nat) (s : State) : (State.recordFault e a s).carry = s.carry := rfl
@[simp] theorem State.recordFault_pc (e : Fault) (a : Option Nat) (s : State) : (State.recordFault e a s).pc = s.pc := rfl
@[simp] theorem State.recordFault_ir (e : Fault) (a : Option Nat) (s : State) : (State.recordFault e a s).ir = s.ir := rfl
@[simp] theorem State.recordFault_mar (e : Fault) (a : Option Nat) (s : State) : (State.recordFault e a s).mar = s.mar := rfl
@[simp] theorem State.recordFault_mbr (e : Fault) (a : Option Nat) (s : State) : (State.recordFault e a s).mbr = s.mbr := rfl
@[simp] theorem State.recordFault_mem (e : Fault) (a : Option Nat) (s : State) : (State.recordFault e a s).mem = s.mem := rfl
@[simp] theorem State.recordFault_cache (e : Fault) (a : Option Nat) (s : State) : (State.recordFault e a s).cache = s.cache := rfl
@[simp] theorem State.recordFault_bht (e : Fault) (a : Option Nat) (s : State) : (State.recordFault e a s).bht = s.bht := rfl
@[simp] theorem State.recordFault_predictions (e : Fault) (a : Option Nat) (s : State) : (State.recordFault e a s).predictions = s.predictions := rfl
@[simp] theorem State.recordFault_correct (e : Fault) (a : Option Nat) (s : State) : (State.recordFault e a s).correct = s.correct := rfl
@[simp] theorem State.recordFault_pending (e : Fault) (a : Option Nat) (s : State) : (State.recordFault e a s).pending = s.pending := rfl
@[simp] theorem State.recordFault_icount (e : Fault) (a : Option Nat) (s : State) : (State.recordFault e a s).icount = s.icount := rfl
@[simp] theorem State.recordFault_refused (e : Fault) (a : Option Nat) (s : State) : (State.recordFault e a s).refused = s.refused := rfl
@[simp] theorem State.recordFault_status (e : Fault) (a : Option Nat) (s : State) : (State.recordFault e a s).status = s.status := rfl

/-! ### takeFault -/

@[simp] theorem State.takeFault_gprs (e : Fault) (s : State) : (State.takeFault e s).gprs = s.gprs := rfl
@[simp] theorem State.takeFault_ixrs (e : Fault) (s : State) : (State.takeFault e s).ixrs = s.ixrs := rfl
@[simp] theorem State.takeFault_frs (e : Fault) (s : State) : (State.takeFault e s).frs = s.frs := rfl
@[simp] theorem State.takeFault_cc (e : Fault) (s : State) : (State.takeFault e s).cc = s.cc := rfl
@[simp] theorem State.takeFault_carry (e : Fault) (s : State) : (State.takeFault e s).carry = s.carry := rfl
@[simp] theorem State.takeFault_pc (e : Fault) (s : State) : (State.takeFault e s).pc = s.pc := rfl
@[simp] theorem State.takeFault_ir (e : Fault) (s : State) : (State.takeFault e s).ir = s.ir := rfl
@[simp] theorem State.takeFault_mar (e : Fault) (s : State) : (State.takeFault e s).mar = s.mar := rfl
@[simp] theorem State.takeFault_mbr (e : Fault) (s : State) : (State.takeFault e s).mbr = s.mbr := rfl
@[simp] theorem State.takeFault_mem (e : Fault) (s : State) : (State.takeFault e s).mem = s.mem := rfl
@[simp] theorem State.takeFault_cache (e : Fault) (s : State) : (State.takeFault e s).cache = s.cache := rfl
@[simp] theorem State.takeFault_bht (e : Fault) (s : State) : (State.takeFault e s).bht = s.bht := rfl
@[simp] theorem State.takeFault_predictions (e : Fault) (s : State) : (State.takeFault e s).predictions = s.predictions := rfl
@[simp] theorem State.takeFault_correct (e : Fault) (s : State) : (State.takeFault e s).correct = s.correct := rfl
@[simp] theorem State.takeFault_pending (e : Fault) (s : State) : (State.takeFault e s).pending = s.pending := rfl
@[simp] theorem State.takeFault_icount (e : Fault) (s : State) : (State.takeFault e s).icount = s.icount := rfl
@[simp] theorem State.takeFault_refused (e : Fault) (s : State) : (State.takeFault e s).refused = s.refused := rfl
@[simp] theorem State.takeFault_status (e : Fault) (s : State) : (State.takeFault e s).status = s.status := rfl

/-! ### takeRefusal -/

@[simp] theorem State.takeRefusal_gprs (r : Refusal) (s : State) : (State.takeRefusal r s).gprs = s.gprs := rfl
@[simp] theorem State.takeRefusal_ixrs (r : Refusal) (s : State) : (State.takeRefusal r s).ixrs = s.ixrs := rfl
@[simp] theorem State.takeRefusal_frs (r : Refusal) (s : State) : (State.takeRefusal r s).frs = s.frs := rfl
@[simp] theorem State.takeRefusal_cc (r : Refusal) (s : State) : (State.takeRefusal r s).cc = s.cc := rfl
@[simp] theorem State.takeRefusal_carry (r : Refusal) (s : State) : (State.takeRefusal r s).carry = s.carry := rfl
@[simp] theorem State.takeRefusal_pc (r : Refusal) (s : State) : (State.takeRefusal r s).pc = s.pc := rfl
@[simp] theorem State.takeRefusal_ir (r : Refusal) (s : State) : (State.takeRefusal r s).ir = s.ir := rfl
@[simp] theorem State.takeRefusal_mar (r : Refusal) (s : State) : (State.takeRefusal r s).mar = s.mar := rfl
@[simp] theorem State.takeRefusal_mbr (r : Refusal) (s : State) : (State.takeRefusal r s).mbr = s.mbr := rfl
@[simp] theorem State.takeRefusal_mem (r : Refusal) (s : State) : (State.takeRefusal r s).mem = s.mem := rfl
@[simp] theorem State.takeRefusal_cache (r : Refusal) (s : State) : (State.takeRefusal r s).cache = s.cache := rfl
@[simp] theorem State.takeRefusal_bht (r : Refusal) (s : State) : (State.takeRefusal r s).bht = s.bht := rfl
@[simp] theorem State.takeRefusal_predictions (r : Refusal) (s : State) : (State.takeRefusal r s).predictions = s.predictions := rfl
@[simp] theorem State.takeRefusal_correct (r : Refusal) (s : State) : (State.takeRefusal r s).correct = s.correct := rfl
@[simp] theorem State.takeRefusal_pending (r : Refusal) (s : State) : (State.takeRefusal r s).pending = s.pending := rfl
@[simp] theorem State.takeRefusal_icount (r : Refusal) (s : State) : (State.takeRefusal r s).icount = s.icount := rfl
@[simp] theorem State.takeRefusal_faults (r : Refusal) (s : State) : (State.takeRefusal r s).faults = s.faults := rfl
@[simp] theorem State.takeRefusal_status (r : Refusal) (s : State) : (State.takeRefusal r s).status = s.status := rfl

/-! ### advance -/

@[simp] theorem State.advance_gprs (a : Address) (s : State) : (State.advance a s).gprs = s.gprs := rfl
@[simp] theorem State.advance_ixrs (a : Address) (s : State) : (State.advance a s).ixrs = s.ixrs := rfl
@[simp] theorem State.advance_frs (a : Address) (s : State) : (State.advance a s).frs = s.frs := rfl
@[simp] theorem State.advance_cc (a : Address) (s : State) : (State.advance a s).cc = s.cc := rfl
@[simp] theorem State.advance_carry (a : Address) (s : State) : (State.advance a s).carry = s.carry := rfl
@[simp] theorem State.advance_mem (a : Address) (s : State) : (State.advance a s).mem = s.mem := rfl
@[simp] theorem State.advance_cache (a : Address) (s : State) : (State.advance a s).cache = s.cache := rfl
@[simp] theorem State.advance_bht (a : Address) (s : State) : (State.advance a s).bht = s.bht := rfl
@[simp] theorem State.advance_predictions (a : Address) (s : State) : (State.advance a s).predictions = s.predictions := rfl
@[simp] theorem State.advance_correct (a : Address) (s : State) : (State.advance a s).correct = s.correct := rfl
@[simp] theorem State.advance_runState (a : Address) (s : State) : (State.advance a s).runState = s.runState := rfl
@[simp] theorem State.advance_pending (a : Address) (s : State) : (State.advance a s).pending = s.pending := rfl
@[simp] theorem State.advance_icount (a : Address) (s : State) : (State.advance a s).icount = s.icount := rfl
@[simp] theorem State.advance_faults (a : Address) (s : State) : (State.advance a s).faults = s.faults := rfl
@[simp] theorem State.advance_refused (a : Address) (s : State) : (State.advance a s).refused = s.refused := rfl
@[simp] theorem State.advance_status (a : Address) (s : State) : (State.advance a s).status = s.status := rfl

/-! ### counted -/

@[simp] theorem State.counted_gprs (s : State) : (State.counted s).gprs = s.gprs := rfl
@[simp] theorem State.counted_ixrs (s : State) : (State.counted s).ixrs = s.ixrs := rfl
@[simp] theorem State.counted_frs (s : State) : (State.counted s).frs = s.frs := rfl
@[simp] theorem State.counted_cc (s : State) : (State.counted s).cc = s.cc := rfl
@[simp] theorem State.counted_carry (s : State) : (State.counted s).carry = s.carry := rfl
@[simp] theorem State.counted_pc (s : State) : (State.counted s).pc = s.pc := rfl
@[simp] theorem State.counted_ir (s : State) : (State.counted s).ir = s.ir := rfl
@[simp] theorem State.counted_mar (s : State) : (State.counted s).mar = s.mar := rfl
@[simp] theorem State.counted_mbr (s : State) : (State.counted s).mbr = s.mbr := rfl
@[simp] theorem State.counted_mem (s : State) : (State.counted s).mem = s.mem := rfl
@[simp] theorem State.counted_cache (s : State) : (State.counted s).cache = s.cache := rfl
@[simp] theorem State.counted_bht (s : State) : (State.counted s).bht = s.bht := rfl
@[simp] theorem State.counted_predictions (s : State) : (State.counted s).predictions = s.predictions := rfl
@[simp] theorem State.counted_correct (s : State) : (State.counted s).correct = s.correct := rfl
@[simp] theorem State.counted_runState (s : State) : (State.counted s).runState = s.runState := rfl
@[simp] theorem State.counted_pending (s : State) : (State.counted s).pending = s.pending := rfl
@[simp] theorem State.counted_faults (s : State) : (State.counted s).faults = s.faults := rfl
@[simp] theorem State.counted_refused (s : State) : (State.counted s).refused = s.refused := rfl
@[simp] theorem State.counted_status (s : State) : (State.counted s).status = s.status := rfl
@[simp] theorem State.counted_icount (s : State) : (State.counted s).icount = s.icount + 1 := rfl

/-! ### Values written -/

@[simp] theorem State.gpr_setGpr (r q : BitVec 2) (v : Word) (s : State) :
    (State.setGpr r v s).gpr q = if q = r then v else s.gpr q := by
  unfold State.gpr State.setGpr
  by_cases h : q = r
  · subst h; simp
  · have hn : (r.toFin : Nat) ≠ (q.toFin : Nat) := fun hh => h (BitVec.eq_of_toNat_eq (by simpa using hh.symm))
    simpa [h] using Vector.getElem_set_ne (xs := s.gprs) (x := v) r.toFin.isLt q.toFin.isLt hn

@[simp] theorem State.ixr_setIxr (x y : IndexReg) (v : Word) (s : State) :
    (State.setIxr x v s).ixr y = if y = x then v else s.ixr y := by
  cases x <;> cases y <;> rfl

@[simp] theorem State.fr_setFr (f g : FloatReg) (v : Word) (s : State) :
    (State.setFr f v s).fr g = if g = f then v else s.fr g := by
  cases f <;> cases g <;> rfl

/-- The accessors read one field each. -/
theorem State.gpr_congr {s t : State} (h : t.gprs = s.gprs) (r : BitVec 2) : t.gpr r = s.gpr r := by
  unfold State.gpr; rw [h]

theorem State.ixr_congr {s t : State} (h : t.ixrs = s.ixrs) (x : IndexReg) : t.ixr x = s.ixr x := by
  cases x <;> simp [State.ixr, h]

theorem State.fr_congr {s t : State} (h : t.frs = s.frs) (f : FloatReg) : t.fr f = s.fr f := by
  cases f <;> simp [State.fr, h]

theorem State.word_congr {s t : State} (h : t.mem = s.mem) (a : Address) : t.word a = s.word a := by
  unfold State.word; rw [h]

theorem State.counter_congr {s t : State} (h : t.bht = s.bht) (a : Nat) : t.counter a = s.counter a := by
  unfold State.counter; rw [h]

@[simp] theorem State.noteOverflow_cc (b : Bool) (s : State) :
    (State.noteOverflow b s).cc = { s.cc with overflow := s.cc.overflow || b } := rfl

@[simp] theorem State.noteUnderflow_cc (b : Bool) (s : State) :
    (State.noteUnderflow b s).cc = { s.cc with underflow := s.cc.underflow || b } := rfl

@[simp] theorem State.setDivZero_cc (s : State) : (State.setDivZero s).cc = { s.cc with divZero := true } := rfl

@[simp] theorem State.assignEqual_cc (b : Bool) (s : State) :
    (State.assignEqual b s).cc = { s.cc with equal := b } := rfl

@[simp] theorem State.assignCarry_carry (b : Bool) (s : State) : (State.assignCarry b s).carry = b := rfl

@[simp] theorem State.recordFault_faults (e : Fault) (a : Option Nat) (s : State) :
    (State.recordFault e a s).faults = s.faults ++ [{ error := e, address := a, word := s.ir }] := rfl

@[simp] theorem State.recordFault_runState (e : Fault) (a : Option Nat) (s : State) :
    (State.recordFault e a s).runState = .halted := rfl

@[simp] theorem State.takeFault_faults (e : Fault) (s : State) :
    (State.takeFault e s).faults = s.faults ++ [{ error := e, address := s.pc.map (· - 1), word := s.ir }] := rfl

@[simp] theorem State.takeFault_runState (e : Fault) (s : State) : (State.takeFault e s).runState = .halted := rfl

@[simp] theorem State.takeRefusal_refused (r : Refusal) (s : State) : (State.takeRefusal r s).refused = true := rfl

@[simp] theorem State.takeRefusal_runState (r : Refusal) (s : State) :
    (State.takeRefusal r s).runState = .halted := rfl

@[simp] theorem State.advance_pc (a : Address) (s : State) : (State.advance a s).pc = some (a.toNat + 1) := rfl

@[simp] theorem State.advance_ir (a : Address) (s : State) : (State.advance a s).ir = some (s.word a) := rfl

@[simp] theorem State.arrayWrite_mem (a : Address) (w : Word) (s : State) :
    (State.arrayWrite a w s).mem = s.mem.write a.toNat w := rfl

@[simp] theorem State.directWrite_mem (a : Address) (w : Word) (s : State) :
    (State.directWrite a w s).mem = s.mem.write a.toNat w := rfl

@[simp] theorem State.fill_cache_order (i : Fin 16) (t : BitVec 8) (s : State) :
    (State.fill i t s).cache.order = s.cache.order := rfl

@[simp] theorem State.promote_cache (i : Fin 16) (s : State) : (State.promote i s).cache = s.cache.promote i := rfl

/-- The array after a write, at the address written. -/
theorem State.arrayWrite_word_same {s : State} (h : s.mem.wf = true) (a : Address) (w : Word) :
    (State.arrayWrite a w s).word a = w :=
  Memory.read_write_same h _ _

/-- The array after a write, elsewhere. -/
theorem State.arrayWrite_word_of_ne {a b : Address} (h : b ≠ a) (w : Word) (s : State) :
    (State.arrayWrite a w s).word b = s.word b :=
  Memory.read_write_of_ne (fun hh => h (BitVec.eq_of_toNat_eq hh)) _ _

/-! ### How an instruction ends -/

@[simp] theorem State.completed_eq (s : State) : s.completed = .next s.counted := rfl

@[simp] theorem State.raise_eq (e : Fault) (s : State) : s.raise e = .next (s.takeFault e) := rfl

@[simp] theorem State.refuse_eq (r : Refusal) (s : State) : s.refuse r = .next (s.takeRefusal r) := rfl

end Sys2Proof.Machine
end

