-- ==== Sys2Proof/Laws/Cache.lean ====
section
/-! SUPPORT. The cache controller: address split, lookup, and for each access once all that it can do; the cache
invariants of spec/20_memory.md R57 through each. -/

namespace Sys2Proof.Machine

/-! ## Vectors and addresses -/

theorem vector_get_set {α : Type} {n : Nat} (v : Vector α n) (i j : Fin n) (x : α) :
    (v.set i x)[j] = if i = j then x else v[j] := by
  by_cases h : i = j
  · subst h; simp
  · have hn : (i : Nat) ≠ (j : Nat) := fun hh => h (Fin.ext hh)
    simp [h, hn]

theorem blockWord_toNat (t : BitVec 8) (k : Fin 8) : (blockWord t k).toNat = t.toNat * 8 + k.val := by
  have hk := k.isLt
  simp only [blockWord, BitVec.toNat_append, BitVec.toNat_ofFin]
  rw [← Nat.shiftLeft_add_eq_or_of_lt (by omega), Nat.shiftLeft_eq]

@[simp] theorem blockTag_blockWord (t : BitVec 8) (k : Fin 8) : blockTag (blockWord t k) = t := by
  apply BitVec.eq_of_toNat_eq
  have := blockWord_toNat t k
  have hk := k.isLt
  have ht := t.isLt
  simp only [blockTag, BitVec.extractLsb'_toNat, this, Nat.shiftRight_eq_div_pow]
  omega

@[simp] theorem blockOffset_blockWord (t : BitVec 8) (k : Fin 8) : blockOffset (blockWord t k) = k := by
  apply Fin.ext
  have := blockWord_toNat t k
  have hk := k.isLt
  have h : (blockOffset (blockWord t k)).val = (blockWord t k).toNat % 8 := by
    simp [blockOffset]
  rw [h, this]; omega

theorem blockOffset_val (a : Address) : (blockOffset a).val = a.toNat % 8 := by
  simp [blockOffset]

theorem blockTag_toNat (a : Address) : (blockTag a).toNat = a.toNat / 8 := by
  have := a.isLt
  simp only [blockTag, BitVec.extractLsb'_toNat, Nat.shiftRight_eq_div_pow]
  omega

theorem blockWord_split (a : Address) : blockWord (blockTag a) (blockOffset a) = a := by
  apply BitVec.eq_of_toNat_eq
  rw [blockWord_toNat, blockTag_toNat, blockOffset_val]
  omega

theorem block_get (s : State) (t : BitVec 8) (k : Fin 8) : (s.block t)[k] = s.word (blockWord t k) := by
  fin_cases k <;> rfl

/-! ## Lookup and recency -/

theorem Cache.holds_iff {c : Cache} {t : BitVec 8} {i : Fin 16} :
    c.holds t i = true ↔ c.lines[i].valid = true ∧ c.lines[i].tag = t := by
  simp [Cache.holds]

theorem Cache.lookup_some {c : Cache} {a : Address} {i : Fin 16} (h : c.lookup a = some i) :
    c.lines[i].valid = true ∧ c.lines[i].tag = blockTag a :=
  Cache.holds_iff.mp (List.find?_some h)

theorem Cache.lookup_none {c : Cache} {a : Address} (h : c.lookup a = none) (i : Fin 16) :
    c.lines[i].valid = true → c.lines[i].tag ≠ blockTag a := by
  intro hv ht
  have := List.find?_eq_none.mp h i (List.mem_finRange i)
  exact this (Cache.holds_iff.mpr ⟨hv, ht⟩)

theorem Cache.promote_lines (c : Cache) (i : Fin 16) : (c.promote i).lines = c.lines := rfl

theorem Cache.promote_permutes {c : Cache} (h : c.OrderPermutes) (i : Fin 16) : (c.promote i).OrderPermutes := by
  have hi : i ∈ c.order := h.mem_iff.mpr (List.mem_finRange i)
  have h1 : (c.order.erase i ++ [i]).Perm (i :: c.order.erase i) := List.perm_append_singleton _ _
  exact (h1.trans (List.perm_cons_erase hi).symm).trans h

theorem Cache.setWord_line (c : Cache) (i j : Fin 16) (k : Fin 8) (v : Word) :
    (c.setWord i k v).lines[j] =
      if i = j then { c.lines[i] with data := c.lines[i].data.set k v } else c.lines[j] := by
  simp only [Cache.setWord]
  exact vector_get_set _ _ _ _

theorem Cache.setWord_valid (c : Cache) (i j : Fin 16) (k : Fin 8) (v : Word) :
    (c.setWord i k v).lines[j].valid = c.lines[j].valid := by
  rw [Cache.setWord_line]; split_ifs with h
  · subst h; rfl
  · rfl

theorem Cache.setWord_tag (c : Cache) (i j : Fin 16) (k : Fin 8) (v : Word) :
    (c.setWord i k v).lines[j].tag = c.lines[j].tag := by
  rw [Cache.setWord_line]; split_ifs with h
  · subst h; rfl
  · rfl

theorem Cache.setWord_data (c : Cache) (i j : Fin 16) (k l : Fin 8) (v : Word) :
    (c.setWord i k v).lines[j].data[l] = if i = j ∧ k = l then v else c.lines[j].data[l] := by
  rw [Cache.setWord_line]
  by_cases h : i = j
  · subst h
    simp only [if_true, true_and]
    exact vector_get_set _ _ _ _
  · simp [h]

@[simp] theorem Cache.setWord_order (c : Cache) (i : Fin 16) (k : Fin 8) (v : Word) :
    (c.setWord i k v).order = c.order := rfl

theorem Cache.setWord_distinct {c : Cache} (h : c.DistinctTags) (i : Fin 16) (k : Fin 8) (v : Word) :
    (c.setWord i k v).DistinctTags := by
  intro x y hx hy hxy
  rw [Cache.setWord_valid] at hx hy
  rw [Cache.setWord_tag, Cache.setWord_tag] at hxy
  exact h x y hx hy hxy

/-! ## The invariants depend on the cache and the array only -/

theorem State.coherent_congr {s t : State} (hm : t.mem = s.mem) (hc : t.cache = s.cache) :
    t.Coherent ↔ s.Coherent := by
  unfold State.Coherent State.word; rw [hm, hc]

theorem State.cacheInv_congr {s t : State} (hm : t.mem = s.mem) (hc : t.cache = s.cache) :
    t.CacheInv ↔ s.CacheInv := by
  unfold State.CacheInv; rw [State.coherent_congr hm hc, hc]

theorem State.promote_cacheInv {s : State} (h : s.CacheInv) (i : Fin 16) : (s.promote i).CacheInv :=
  ⟨h.1, h.2.1, Cache.promote_permutes h.2.2 i⟩

/-- An empty cache has the invariants, whatever the array holds. -/
theorem State.cacheInv_of_empty {s : State} (h : s.cache = Cache.empty) : s.CacheInv := by
  have hv : ∀ i : Fin 16, s.cache.lines[i].valid = false := by
    rw [h]; decide
  refine ⟨fun i hi => ?_, fun i j hi => ?_, ?_⟩
  · rw [hv i] at hi; cases hi
  · rw [hv i] at hi; cases hi
  · rw [h]; exact List.Perm.refl _

/-! ## Fill and allocate (R53 to R56) -/

theorem State.fill_line (i j : Fin 16) (t : BitVec 8) (s : State) :
    (State.fill i t s).cache.lines[j] =
      if i = j then { tag := t, valid := true, data := s.block t } else s.cache.lines[j] := by
  simp only [State.fill, State.arrayRead_cache]
  exact vector_get_set _ _ _ _

/-- A fill of a block that no valid line holds keeps the invariants. -/
theorem State.fill_cacheInv {s : State} (h : s.CacheInv) (i : Fin 16) (t : BitVec 8)
    (miss : ∀ j : Fin 16, s.cache.lines[j].valid = true → s.cache.lines[j].tag ≠ t) : (State.fill i t s).CacheInv := by
  refine ⟨?_, ?_, h.2.2⟩
  · intro j hv k
    rw [State.word_congr (State.fill_mem i t s)]
    rw [State.fill_line] at hv ⊢
    by_cases hij : i = j
    · simp only [hij, if_true]; exact block_get s t k
    · simp only [hij, if_false] at hv ⊢
      exact h.1 j hv k
  · intro x y hx hy hxy
    rw [State.fill_line] at hx hy hxy
    rw [State.fill_line] at hxy
    by_cases h1 : i = x <;> by_cases h2 : i = y
    · exact h1.symm.trans h2
    · subst h1
      rw [if_neg h2] at hy hxy
      rw [if_pos rfl] at hxy
      exact absurd hxy.symm (miss y hy)
    · subst h2
      rw [if_neg h1] at hx hxy
      rw [if_pos rfl] at hxy
      exact absurd hxy (miss x hx)
    · rw [if_neg h1] at hx hxy
      rw [if_neg h2] at hy hxy
      exact h.2.1 x y hx hy hxy

/-- All that `allocate` can do: nothing on a hit, a fill of the victim on a miss. -/
theorem State.allocate_cases (a : Address) (s : State) :
    (∃ i, s.cache.lookup a = some i ∧ s.allocate a = (i, s)) ∨
      (s.cache.lookup a = none ∧
        s.allocate a = (s.cache.victim, State.fill s.cache.victim (blockTag a) s)) := by
  unfold State.allocate
  cases h : s.cache.lookup a with
  | none => exact .inr ⟨rfl, rfl⟩
  | some i => exact .inl ⟨i, rfl, rfl⟩

/-- The allocated line holds the block. -/
theorem State.allocate_holds_of_eq {a : Address} {s t : State} {i : Fin 16} (h : s.allocate a = (i, t)) :
    t.cache.lines[i].valid = true ∧ t.cache.lines[i].tag = blockTag a := by
  rcases State.allocate_cases a s with ⟨j, hj, he⟩ | ⟨_, he⟩
  · obtain ⟨rfl, rfl⟩ := Prod.mk.inj (h.symm.trans he)
    exact Cache.lookup_some hj
  · obtain ⟨rfl, rfl⟩ := Prod.mk.inj (h.symm.trans he)
    have hl := State.fill_line s.cache.victim s.cache.victim (blockTag a) s
    rw [if_pos rfl] at hl
    exact ⟨by rw [hl], by rw [hl]⟩

theorem State.allocate_holds (a : Address) (s : State) :
    (s.allocate a).2.cache.lines[(s.allocate a).1].valid = true ∧
      (s.allocate a).2.cache.lines[(s.allocate a).1].tag = blockTag a :=
  State.allocate_holds_of_eq rfl

theorem State.allocate_cacheInv {s : State} (h : s.CacheInv) (a : Address) : (s.allocate a).2.CacheInv := by
  rcases State.allocate_cases a s with ⟨i, _, he⟩ | ⟨hn, he⟩
  · rw [he]; exact h
  · rw [he]; exact State.fill_cacheInv h _ _ (Cache.lookup_none hn)

/-- Allocation leaves the recency order. -/
theorem State.allocate_order (a : Address) (s : State) : (s.allocate a).2.cache.order = s.cache.order := by
  unfold State.allocate; split <;> rfl

/-- A load's value and state from the allocated line `i` and state `t`. -/
theorem State.cacheLoad_eq {a : Address} {s t : State} {i : Fin 16} (h : s.allocate a = (i, t)) :
    s.cacheLoad a = (t.cache.lines[i].data[blockOffset a], t.promote i) := by
  suffices ∀ p, p = (i, t) →
      (p.2.cache.lines[p.1].data[blockOffset a], p.2.promote p.1) = (t.cache.lines[i].data[blockOffset a], t.promote i) from
    this _ h
  rintro p rfl; rfl

/-- A store's state from the allocated line `i` and state `t`. -/
theorem State.cacheStore_eq {a : Address} {s t : State} {i : Fin 16} (v : Word) (h : s.allocate a = (i, t)) :
    s.cacheStore a v =
      (State.arrayWrite a v { t with cache := t.cache.setWord i (blockOffset a) v }).promote i := by
  unfold State.cacheStore; rw [h]

/-! ## Fields an access leaves alone -/

@[simp] theorem State.allocate_gprs (a : Address) (s : State) : (s.allocate a).2.gprs = s.gprs := by
  unfold State.allocate; split <;> rfl

@[simp] theorem State.allocate_ixrs (a : Address) (s : State) : (s.allocate a).2.ixrs = s.ixrs := by
  unfold State.allocate; split <;> rfl

@[simp] theorem State.allocate_frs (a : Address) (s : State) : (s.allocate a).2.frs = s.frs := by
  unfold State.allocate; split <;> rfl

@[simp] theorem State.allocate_cc (a : Address) (s : State) : (s.allocate a).2.cc = s.cc := by
  unfold State.allocate; split <;> rfl

@[simp] theorem State.allocate_carry (a : Address) (s : State) : (s.allocate a).2.carry = s.carry := by
  unfold State.allocate; split <;> rfl

@[simp] theorem State.allocate_pc (a : Address) (s : State) : (s.allocate a).2.pc = s.pc := by
  unfold State.allocate; split <;> rfl

@[simp] theorem State.allocate_ir (a : Address) (s : State) : (s.allocate a).2.ir = s.ir := by
  unfold State.allocate; split <;> rfl

@[simp] theorem State.allocate_mem (a : Address) (s : State) : (s.allocate a).2.mem = s.mem := by
  unfold State.allocate; split <;> rfl

@[simp] theorem State.allocate_bht (a : Address) (s : State) : (s.allocate a).2.bht = s.bht := by
  unfold State.allocate; split <;> rfl

@[simp] theorem State.allocate_predictions (a : Address) (s : State) : (s.allocate a).2.predictions = s.predictions := by
  unfold State.allocate; split <;> rfl

@[simp] theorem State.allocate_correct (a : Address) (s : State) : (s.allocate a).2.correct = s.correct := by
  unfold State.allocate; split <;> rfl

@[simp] theorem State.allocate_runState (a : Address) (s : State) : (s.allocate a).2.runState = s.runState := by
  unfold State.allocate; split <;> rfl

@[simp] theorem State.allocate_pending (a : Address) (s : State) : (s.allocate a).2.pending = s.pending := by
  unfold State.allocate; split <;> rfl

@[simp] theorem State.allocate_icount (a : Address) (s : State) : (s.allocate a).2.icount = s.icount := by
  unfold State.allocate; split <;> rfl

@[simp] theorem State.allocate_faults (a : Address) (s : State) : (s.allocate a).2.faults = s.faults := by
  unfold State.allocate; split <;> rfl

@[simp] theorem State.allocate_refused (a : Address) (s : State) : (s.allocate a).2.refused = s.refused := by
  unfold State.allocate; split <;> rfl

@[simp] theorem State.allocate_status (a : Address) (s : State) : (s.allocate a).2.status = s.status := by
  unfold State.allocate; split <;> rfl

@[simp] theorem State.memRead_gprs (a : Address) (s : State) : (s.memRead a).2.gprs = s.gprs :=
  State.allocate_gprs a s

@[simp] theorem State.memRead_ixrs (a : Address) (s : State) : (s.memRead a).2.ixrs = s.ixrs :=
  State.allocate_ixrs a s

@[simp] theorem State.memRead_frs (a : Address) (s : State) : (s.memRead a).2.frs = s.frs :=
  State.allocate_frs a s

@[simp] theorem State.memRead_cc (a : Address) (s : State) : (s.memRead a).2.cc = s.cc :=
  State.allocate_cc a s

@[simp] theorem State.memRead_carry (a : Address) (s : State) : (s.memRead a).2.carry = s.carry :=
  State.allocate_carry a s

@[simp] theorem State.memRead_pc (a : Address) (s : State) : (s.memRead a).2.pc = s.pc :=
  State.allocate_pc a s

@[simp] theorem State.memRead_ir (a : Address) (s : State) : (s.memRead a).2.ir = s.ir :=
  State.allocate_ir a s

@[simp] theorem State.memRead_mem (a : Address) (s : State) : (s.memRead a).2.mem = s.mem :=
  State.allocate_mem a s

@[simp] theorem State.memRead_bht (a : Address) (s : State) : (s.memRead a).2.bht = s.bht :=
  State.allocate_bht a s

@[simp] theorem State.memRead_predictions (a : Address) (s : State) : (s.memRead a).2.predictions = s.predictions :=
  State.allocate_predictions a s

@[simp] theorem State.memRead_correct (a : Address) (s : State) : (s.memRead a).2.correct = s.correct :=
  State.allocate_correct a s

@[simp] theorem State.memRead_runState (a : Address) (s : State) : (s.memRead a).2.runState = s.runState :=
  State.allocate_runState a s

@[simp] theorem State.memRead_pending (a : Address) (s : State) : (s.memRead a).2.pending = s.pending :=
  State.allocate_pending a s

@[simp] theorem State.memRead_icount (a : Address) (s : State) : (s.memRead a).2.icount = s.icount :=
  State.allocate_icount a s

@[simp] theorem State.memRead_faults (a : Address) (s : State) : (s.memRead a).2.faults = s.faults :=
  State.allocate_faults a s

@[simp] theorem State.memRead_refused (a : Address) (s : State) : (s.memRead a).2.refused = s.refused :=
  State.allocate_refused a s

@[simp] theorem State.memRead_status (a : Address) (s : State) : (s.memRead a).2.status = s.status :=
  State.allocate_status a s

@[simp] theorem State.memWrite_gprs (a : Address) (v : Word) (s : State) : (s.memWrite a v).gprs = s.gprs :=
  State.allocate_gprs a s

@[simp] theorem State.memWrite_ixrs (a : Address) (v : Word) (s : State) : (s.memWrite a v).ixrs = s.ixrs :=
  State.allocate_ixrs a s

@[simp] theorem State.memWrite_frs (a : Address) (v : Word) (s : State) : (s.memWrite a v).frs = s.frs :=
  State.allocate_frs a s

@[simp] theorem State.memWrite_cc (a : Address) (v : Word) (s : State) : (s.memWrite a v).cc = s.cc :=
  State.allocate_cc a s

@[simp] theorem State.memWrite_carry (a : Address) (v : Word) (s : State) : (s.memWrite a v).carry = s.carry :=
  State.allocate_carry a s

@[simp] theorem State.memWrite_pc (a : Address) (v : Word) (s : State) : (s.memWrite a v).pc = s.pc :=
  State.allocate_pc a s

@[simp] theorem State.memWrite_ir (a : Address) (v : Word) (s : State) : (s.memWrite a v).ir = s.ir :=
  State.allocate_ir a s

@[simp] theorem State.memWrite_bht (a : Address) (v : Word) (s : State) : (s.memWrite a v).bht = s.bht :=
  State.allocate_bht a s

@[simp] theorem State.memWrite_predictions (a : Address) (v : Word) (s : State) : (s.memWrite a v).predictions = s.predictions :=
  State.allocate_predictions a s

@[simp] theorem State.memWrite_correct (a : Address) (v : Word) (s : State) : (s.memWrite a v).correct = s.correct :=
  State.allocate_correct a s

@[simp] theorem State.memWrite_runState (a : Address) (v : Word) (s : State) : (s.memWrite a v).runState = s.runState :=
  State.allocate_runState a s

@[simp] theorem State.memWrite_pending (a : Address) (v : Word) (s : State) : (s.memWrite a v).pending = s.pending :=
  State.allocate_pending a s

@[simp] theorem State.memWrite_icount (a : Address) (v : Word) (s : State) : (s.memWrite a v).icount = s.icount :=
  State.allocate_icount a s

@[simp] theorem State.memWrite_faults (a : Address) (v : Word) (s : State) : (s.memWrite a v).faults = s.faults :=
  State.allocate_faults a s

@[simp] theorem State.memWrite_refused (a : Address) (v : Word) (s : State) : (s.memWrite a v).refused = s.refused :=
  State.allocate_refused a s

@[simp] theorem State.memWrite_status (a : Address) (v : Word) (s : State) : (s.memWrite a v).status = s.status :=
  State.allocate_status a s

/-! ## Reads and writes (R55 to R58) -/

/-- A read returns the memory word (R58). -/
theorem State.memRead_value {s : State} (h : s.CacheInv) (a : Address) : (s.memRead a).1 = s.word a := by
  have hh := State.allocate_holds a s
  have hc := (State.allocate_cacheInv h a).1 _ hh.1 (blockOffset a)
  rw [hh.2, blockWord_split, State.word_congr (State.allocate_mem a s)] at hc
  exact hc

/-- After a read the block is resident (R55). -/
theorem State.memRead_resident (a : Address) (s : State) : ((s.memRead a).2.cache.lookup a).isSome = true := by
  have hh := State.allocate_holds a s
  cases hl : (s.memRead a).2.cache.lookup a with
  | some j => rfl
  | none => exact absurd hh.2 (Cache.lookup_none hl _ hh.1)

/-- After a write the block is resident (R56). -/
theorem State.memWrite_resident (a : Address) (v : Word) (s : State) : ((s.memWrite a v).cache.lookup a).isSome = true := by
  have hh := State.allocate_holds a s
  cases hl : (s.memWrite a v).cache.lookup a with
  | some j => rfl
  | none =>
    refine absurd ?_ (Cache.lookup_none hl (s.allocate a).1 ?_)
    · exact (Cache.setWord_tag _ _ _ _ _).trans hh.2
    · exact (Cache.setWord_valid _ _ _ _ _).trans hh.1

/-- The hitting line's copy is the memory word. -/
theorem State.lookup_value {s : State} (h : s.CacheInv) {a : Address} {i : Fin 16} (hi : s.cache.lookup a = some i) :
    s.cache.lines[i].data[blockOffset a] = s.word a := by
  have hl := Cache.lookup_some hi
  have hc := h.1 i hl.1 (blockOffset a)
  rwa [hl.2, blockWord_split] at hc

theorem State.memRead_cacheInv {s : State} (h : s.CacheInv) (a : Address) : (s.memRead a).2.CacheInv :=
  State.promote_cacheInv (State.allocate_cacheInv h a) _

@[simp] theorem State.memRead_word (a b : Address) (s : State) : (s.memRead a).2.word b = s.word b :=
  State.word_congr (State.memRead_mem a s) b

@[simp] theorem State.memWrite_mem (a : Address) (v : Word) (s : State) :
    (s.memWrite a v).mem = s.mem.write a.toNat v := by
  show ((s.allocate a).2.mem).write a.toNat v = _
  rw [State.allocate_mem]

theorem State.memWrite_word_same {s : State} (h : s.mem.wf = true) (a : Address) (v : Word) :
    (s.memWrite a v).word a = v := by
  unfold State.word; rw [State.memWrite_mem]; exact Memory.read_write_same h _ _

theorem State.memWrite_word_of_ne {a b : Address} (h : b ≠ a) (v : Word) (s : State) :
    (s.memWrite a v).word b = s.word b := by
  unfold State.word; rw [State.memWrite_mem]
  exact Memory.read_write_of_ne (fun hh => h (BitVec.eq_of_toNat_eq hh)) _ _

theorem State.memWrite_wf {s : State} (h : s.mem.wf = true) (a : Address) (v : Word) :
    (s.memWrite a v).mem.wf = true := by
  rw [State.memWrite_mem]; exact Memory.write_wf h a v

/-- The array and the line that caches `a` set to `v` together: the invariants hold. -/
theorem State.setWord_write_cacheInv {s t : State} (h : s.CacheInv) (hwf : s.mem.wf = true) {a : Address} {i : Fin 16}
    {v : Word} (hi : s.cache.lines[i].valid = true ∧ s.cache.lines[i].tag = blockTag a)
    (hm : t.mem = s.mem.write a.toNat v) (hc : t.cache = s.cache.setWord i (blockOffset a) v) : t.CacheInv := by
  refine ⟨?_, ?_, ?_⟩
  · intro j hv k
    rw [hc, Cache.setWord_valid] at hv
    rw [hc, Cache.setWord_data, Cache.setWord_tag]
    unfold State.word
    rw [hm]
    by_cases hij : i = j
    · subst hij
      by_cases hk : blockOffset a = k
      · subst hk
        simp only [and_self, if_true, hi.2, blockWord_split]
        exact (Memory.read_write_same hwf _ _).symm
      · have hne : blockWord (s.cache.lines[i].tag) k ≠ a := by
          intro hh; apply hk; rw [← hh, blockOffset_blockWord]
        simp only [hk, and_false, if_false]
        rw [Memory.read_write_of_ne (fun hh => hne (BitVec.eq_of_toNat_eq hh))]
        exact h.1 i hv k
    · have hne : blockWord (s.cache.lines[j].tag) k ≠ a := by
        intro hh
        apply hij
        apply h.2.1 i j hi.1 hv
        rw [hi.2, ← hh, blockTag_blockWord]
      simp only [hij, false_and, if_false]
      rw [Memory.read_write_of_ne (fun hh => hne (BitVec.eq_of_toNat_eq hh))]
      exact h.1 j hv k
  · rw [hc]; exact Cache.setWord_distinct h.2.1 _ _ _
  · rw [hc]; exact h.2.2

theorem State.memWrite_cacheInv {s : State} (h : s.CacheInv) (hwf : s.mem.wf = true) (a : Address) (v : Word) :
    (s.memWrite a v).CacheInv := by
  refine State.promote_cacheInv ?_ _
  exact State.setWord_write_cacheInv (State.allocate_cacheInv h a) (by simpa using hwf) (State.allocate_holds a s) rfl rfl

/-- An array write next to a refreshed cache keeps the invariants (R49). -/
theorem State.refresh_write_cacheInv {s t : State} (h : s.CacheInv) (hwf : s.mem.wf = true) {a : Address} {v : Word}
    (hm : t.mem = s.mem.write a.toNat v) (hc : t.cache = s.cache.refresh a v) : t.CacheInv := by
  unfold Cache.refresh at hc
  cases hl : s.cache.lookup a with
  | some i =>
    rw [hl] at hc
    exact State.setWord_write_cacheInv h hwf (Cache.lookup_some hl) hm hc
  | none =>
    rw [hl] at hc
    refine ⟨?_, by rw [hc]; exact h.2.1, by rw [hc]; exact h.2.2⟩
    intro j hv k
    rw [hc] at hv ⊢
    have hne : blockWord (s.cache.lines[j].tag) k ≠ a := by
      intro hh
      apply Cache.lookup_none hl j hv
      rw [← hh, blockTag_blockWord]
    unfold State.word
    rw [hm, Memory.read_write_of_ne (fun hh => hne (BitVec.eq_of_toNat_eq hh))]
    exact h.1 j hv k

theorem State.directWrite_cacheInv {s : State} (h : s.CacheInv) (hwf : s.mem.wf = true) (a : Address) (v : Word) :
    (s.directWrite a v).CacheInv :=
  State.refresh_write_cacheInv h hwf rfl rfl

end Sys2Proof.Machine
end

