-- ==== Sys2Proof/Laws/Operands.lean ====
section
/-! SUPPORT. Operand forms: address validation and effective-address resolution, all they can do. -/

namespace Sys2Proof.Machine

/-- `CheckAddr` passes exactly 6..2047 and answers that address (20_memory.md R67). -/
theorem checkAddr_ok {a : Nat} {ea : Address} :
    checkAddr a = .ok ea ↔ 6 ≤ a ∧ a < 2048 ∧ ea.toNat = a := by
  unfold checkAddr memorySize
  split_ifs with h1 h2
  · simp; omega
  · simp; omega
  · simp only [Except.ok.injEq]
    constructor
    · rintro rfl; exact ⟨by omega, by omega, by simp; omega⟩
    · rintro ⟨_, _, h⟩; apply BitVec.eq_of_toNat_eq; simp [h]; omega

theorem checkAddr_of_range {a : Nat} (h1 : 6 ≤ a) (h2 : a < 2048) :
    checkAddr a = .ok (BitVec.ofNat 11 a) := by
  unfold checkAddr memorySize
  rw [if_neg (by omega), if_neg (by omega)]

/-- `CheckAddr` fails with AddressOutOfRange above 2047 and with IllegalReservedAccess on 0..5 (R67). -/
theorem checkAddr_error {a : Nat} {e : Fault} :
    checkAddr a = .error e ↔
      (2048 ≤ a ∧ e = .addressOutOfRange) ∨ (a ≤ 5 ∧ e = .illegalReservedAccess) := by
  unfold checkAddr memorySize
  split_ifs with h1 h2
  · simp only [Except.error.injEq]
    constructor
    · rintro rfl; exact .inl ⟨h1, rfl⟩
    · rintro (⟨_, h⟩ | ⟨h, _⟩)
      · exact h.symm
      · omega
  · simp only [Except.error.injEq]
    constructor
    · rintro rfl; exact .inr ⟨h2, rfl⟩
    · rintro (⟨h, _⟩ | ⟨_, h⟩)
      · omega
      · exact h.symm
  · simp; omega

/-- All that EA resolution can do: answer with the state as it was, or read one pointer word. -/
theorem State.resolveEA_cases (ix : BitVec 2) (ind : Bool) (addr : BitVec 5) (s : State) :
    (s.resolveEA ix ind addr).2 = s ∨
      ∃ a, checkAddr (s.indexedAddress ix addr) = .ok a ∧ ind = true ∧ (s.resolveEA ix ind addr).2 = (s.memRead a).2 := by
  unfold State.resolveEA
  cases h : checkAddr (s.indexedAddress ix addr) with
  | error e => exact .inl rfl
  | ok a =>
    cases ind
    · exact .inl rfl
    · exact .inr ⟨a, rfl, rfl, rfl⟩

/-- A resolved effective address is 6..2047. -/
theorem State.resolveEA_range {ix : BitVec 2} {ind : Bool} {addr : BitVec 5} {s : State} {ea : Address}
    (h : (s.resolveEA ix ind addr).1 = .ok ea) : 6 ≤ ea.toNat := by
  unfold State.resolveEA at h
  cases hc : checkAddr (s.indexedAddress ix addr) with
  | error e => simp [hc] at h
  | ok a =>
    simp only [hc] at h
    cases ind
    · simp only [Bool.false_eq_true, if_false, Except.ok.injEq] at h
      subst h
      have := checkAddr_ok.mp hc; omega
    · simp only [if_true] at h
      have := checkAddr_ok.mp h; omega

theorem State.resolveEA_cacheInv {s : State} (h : s.CacheInv) (ix : BitVec 2) (ind : Bool) (addr : BitVec 5) :
    (s.resolveEA ix ind addr).2.CacheInv := by
  rcases State.resolveEA_cases ix ind addr s with he | ⟨a, _, _, he⟩
  · rw [he]; exact h
  · rw [he]; exact State.memRead_cacheInv h a

/-- The continuation runs on the resolved address. -/
theorem withEA_ok {ix : BitVec 2} {ind : Bool} {addr : BitVec 5} {s : State} {k : Address → State → Result} {ea : Address}
    (h : (s.resolveEA ix ind addr).1 = .ok ea) :
    withEA ix ind addr s k = k ea (s.resolveEA ix ind addr).2 := by
  unfold withEA
  generalize s.resolveEA ix ind addr = p at h ⊢
  obtain ⟨v, t⟩ := p
  simp only at h; subst h; rfl

/-- An address error is raised in the state resolution leaves. -/
theorem withEA_error {ix : BitVec 2} {ind : Bool} {addr : BitVec 5} {s : State} {k : Address → State → Result} {e : Fault}
    (h : (s.resolveEA ix ind addr).1 = .error e) :
    withEA ix ind addr s k = .next ((s.resolveEA ix ind addr).2.takeFault e) := by
  unfold withEA
  generalize s.resolveEA ix ind addr = p at h ⊢
  obtain ⟨v, t⟩ := p
  simp only at h; subst h; rfl

/-- All that `withEA` can do. -/
theorem withEA_cases (ix : BitVec 2) (ind : Bool) (addr : BitVec 5) (s : State) (k : Address → State → Result) :
    (∃ ea, (s.resolveEA ix ind addr).1 = .ok ea ∧ withEA ix ind addr s k = k ea (s.resolveEA ix ind addr).2) ∨
      (∃ e, (s.resolveEA ix ind addr).1 = .error e ∧
        withEA ix ind addr s k = .next ((s.resolveEA ix ind addr).2.takeFault e)) := by
  cases h : (s.resolveEA ix ind addr).1 with
  | ok ea => exact .inl ⟨ea, rfl, withEA_ok h⟩
  | error e => exact .inr ⟨e, rfl, withEA_error h⟩

theorem withFloatReg_cases (r : BitVec 2) (s : State) (k : FloatReg → Result) :
    (∃ f, FloatReg.ofSelector r = some f ∧ withFloatReg r s k = k f) ∨
      (FloatReg.ofSelector r = none ∧ withFloatReg r s k = .next (s.takeFault .badRegisterSelector)) := by
  unfold withFloatReg
  cases h : FloatReg.ofSelector r with
  | some f => exact .inl ⟨f, rfl, rfl⟩
  | none => exact .inr ⟨rfl, rfl⟩

theorem withIndexReg_cases (ix : BitVec 2) (s : State) (k : IndexReg → Result) :
    (∃ x, IndexReg.ofSelector ix = some x ∧ withIndexReg ix s k = k x) ∨
      (IndexReg.ofSelector ix = none ∧ withIndexReg ix s k = .next (s.takeFault .badIndexRegister)) := by
  unfold withIndexReg
  cases h : IndexReg.ofSelector ix with
  | some x => exact .inl ⟨x, rfl, rfl⟩
  | none => exact .inr ⟨rfl, rfl⟩

theorem withPairs_cases (rx ry : BitVec 2) (s : State) (k : Result) :
    (pairSelectors rx ry = true ∧ withPairs rx ry s k = k) ∨
      (pairSelectors rx ry = false ∧ withPairs rx ry s k = .next (s.takeFault .badRegisterSelector)) := by
  unfold withPairs
  cases h : pairSelectors rx ry with
  | true => exact .inl ⟨rfl, by simp⟩
  | false => exact .inr ⟨rfl, by simp⟩

/-- A legal FR selector names a register. -/
theorem FloatReg.exists_of_selector {r : BitVec 2} (h : floatSelector r = true) : ∃ f, FloatReg.ofSelector r = some f := by
  rw [← Option.isSome_iff_exists]; revert h; revert r; decide

/-- A legal index target names a register. -/
theorem IndexReg.exists_of_selector {ix : BitVec 2} (h : indexTarget ix = true) : ∃ x, IndexReg.ofSelector ix = some x := by
  rw [← Option.isSome_iff_exists]; revert h; revert ix; decide

theorem withFloatReg_some {r : BitVec 2} {f : FloatReg} (h : FloatReg.ofSelector r = some f) (s : State)
    (k : FloatReg → Result) : withFloatReg r s k = k f := by
  unfold withFloatReg; rw [h]

theorem withIndexReg_some {ix : BitVec 2} {x : IndexReg} (h : IndexReg.ofSelector ix = some x) (s : State)
    (k : IndexReg → Result) : withIndexReg ix s k = k x := by
  unfold withIndexReg; rw [h]

/-! ## Fields that EA resolution leaves alone -/

@[simp] theorem State.resolveEA_gprs (ix : BitVec 2) (ind : Bool) (addr : BitVec 5) (s : State) :
    (s.resolveEA ix ind addr).2.gprs = s.gprs := by
  rcases State.resolveEA_cases ix ind addr s with he | ⟨a, _, _, he⟩
  · rw [he]
  · rw [he, State.memRead_gprs]

@[simp] theorem State.resolveEA_ixrs (ix : BitVec 2) (ind : Bool) (addr : BitVec 5) (s : State) :
    (s.resolveEA ix ind addr).2.ixrs = s.ixrs := by
  rcases State.resolveEA_cases ix ind addr s with he | ⟨a, _, _, he⟩
  · rw [he]
  · rw [he, State.memRead_ixrs]

@[simp] theorem State.resolveEA_frs (ix : BitVec 2) (ind : Bool) (addr : BitVec 5) (s : State) :
    (s.resolveEA ix ind addr).2.frs = s.frs := by
  rcases State.resolveEA_cases ix ind addr s with he | ⟨a, _, _, he⟩
  · rw [he]
  · rw [he, State.memRead_frs]

@[simp] theorem State.resolveEA_cc (ix : BitVec 2) (ind : Bool) (addr : BitVec 5) (s : State) :
    (s.resolveEA ix ind addr).2.cc = s.cc := by
  rcases State.resolveEA_cases ix ind addr s with he | ⟨a, _, _, he⟩
  · rw [he]
  · rw [he, State.memRead_cc]

@[simp] theorem State.resolveEA_carry (ix : BitVec 2) (ind : Bool) (addr : BitVec 5) (s : State) :
    (s.resolveEA ix ind addr).2.carry = s.carry := by
  rcases State.resolveEA_cases ix ind addr s with he | ⟨a, _, _, he⟩
  · rw [he]
  · rw [he, State.memRead_carry]

@[simp] theorem State.resolveEA_pc (ix : BitVec 2) (ind : Bool) (addr : BitVec 5) (s : State) :
    (s.resolveEA ix ind addr).2.pc = s.pc := by
  rcases State.resolveEA_cases ix ind addr s with he | ⟨a, _, _, he⟩
  · rw [he]
  · rw [he, State.memRead_pc]

@[simp] theorem State.resolveEA_ir (ix : BitVec 2) (ind : Bool) (addr : BitVec 5) (s : State) :
    (s.resolveEA ix ind addr).2.ir = s.ir := by
  rcases State.resolveEA_cases ix ind addr s with he | ⟨a, _, _, he⟩
  · rw [he]
  · rw [he, State.memRead_ir]

@[simp] theorem State.resolveEA_mem (ix : BitVec 2) (ind : Bool) (addr : BitVec 5) (s : State) :
    (s.resolveEA ix ind addr).2.mem = s.mem := by
  rcases State.resolveEA_cases ix ind addr s with he | ⟨a, _, _, he⟩
  · rw [he]
  · rw [he, State.memRead_mem]

@[simp] theorem State.resolveEA_bht (ix : BitVec 2) (ind : Bool) (addr : BitVec 5) (s : State) :
    (s.resolveEA ix ind addr).2.bht = s.bht := by
  rcases State.resolveEA_cases ix ind addr s with he | ⟨a, _, _, he⟩
  · rw [he]
  · rw [he, State.memRead_bht]

@[simp] theorem State.resolveEA_predictions (ix : BitVec 2) (ind : Bool) (addr : BitVec 5) (s : State) :
    (s.resolveEA ix ind addr).2.predictions = s.predictions := by
  rcases State.resolveEA_cases ix ind addr s with he | ⟨a, _, _, he⟩
  · rw [he]
  · rw [he, State.memRead_predictions]

@[simp] theorem State.resolveEA_correct (ix : BitVec 2) (ind : Bool) (addr : BitVec 5) (s : State) :
    (s.resolveEA ix ind addr).2.correct = s.correct := by
  rcases State.resolveEA_cases ix ind addr s with he | ⟨a, _, _, he⟩
  · rw [he]
  · rw [he, State.memRead_correct]

@[simp] theorem State.resolveEA_runState (ix : BitVec 2) (ind : Bool) (addr : BitVec 5) (s : State) :
    (s.resolveEA ix ind addr).2.runState = s.runState := by
  rcases State.resolveEA_cases ix ind addr s with he | ⟨a, _, _, he⟩
  · rw [he]
  · rw [he, State.memRead_runState]

@[simp] theorem State.resolveEA_pending (ix : BitVec 2) (ind : Bool) (addr : BitVec 5) (s : State) :
    (s.resolveEA ix ind addr).2.pending = s.pending := by
  rcases State.resolveEA_cases ix ind addr s with he | ⟨a, _, _, he⟩
  · rw [he]
  · rw [he, State.memRead_pending]

@[simp] theorem State.resolveEA_icount (ix : BitVec 2) (ind : Bool) (addr : BitVec 5) (s : State) :
    (s.resolveEA ix ind addr).2.icount = s.icount := by
  rcases State.resolveEA_cases ix ind addr s with he | ⟨a, _, _, he⟩
  · rw [he]
  · rw [he, State.memRead_icount]

@[simp] theorem State.resolveEA_faults (ix : BitVec 2) (ind : Bool) (addr : BitVec 5) (s : State) :
    (s.resolveEA ix ind addr).2.faults = s.faults := by
  rcases State.resolveEA_cases ix ind addr s with he | ⟨a, _, _, he⟩
  · rw [he]
  · rw [he, State.memRead_faults]

@[simp] theorem State.resolveEA_refused (ix : BitVec 2) (ind : Bool) (addr : BitVec 5) (s : State) :
    (s.resolveEA ix ind addr).2.refused = s.refused := by
  rcases State.resolveEA_cases ix ind addr s with he | ⟨a, _, _, he⟩
  · rw [he]
  · rw [he, State.memRead_refused]

@[simp] theorem State.resolveEA_status (ix : BitVec 2) (ind : Bool) (addr : BitVec 5) (s : State) :
    (s.resolveEA ix ind addr).2.status = s.status := by
  rcases State.resolveEA_cases ix ind addr s with he | ⟨a, _, _, he⟩
  · rw [he]
  · rw [he, State.memRead_status]

end Sys2Proof.Machine
end

