-- ==== Sys2Proof/Laws/Reads.lean ====
section
/-! SUPPORT. What the named reads (GPR, IXR, FR, CC bit, memory word, advanced PC) give after each state operation that
leaves their field alone. -/

namespace Sys2Proof.Machine

theorem State.ccBit_congr {s t : State} (h : t.cc = s.cc) (k : BitVec 2) : t.ccBit k = s.ccBit k := by
  unfold State.ccBit; rw [h]

theorem State.nextPc_congr {s t : State} (h : t.pc = s.pc) : t.nextPc = s.nextPc := by
  unfold State.nextPc; rw [h]

/-! ### counted -/

@[simp] theorem State.gpr_counted (s : State) (r : BitVec 2) : (s.counted).gpr r = s.gpr r :=
  State.gpr_congr (State.counted_gprs s) r
@[simp] theorem State.ixr_counted (s : State) (x : IndexReg) : (s.counted).ixr x = s.ixr x :=
  State.ixr_congr (State.counted_ixrs s) x
@[simp] theorem State.fr_counted (s : State) (f : FloatReg) : (s.counted).fr f = s.fr f :=
  State.fr_congr (State.counted_frs s) f
@[simp] theorem State.ccBit_counted (s : State) (k : BitVec 2) : (s.counted).ccBit k = s.ccBit k :=
  State.ccBit_congr (State.counted_cc s) k
@[simp] theorem State.word_counted (s : State) (c : Address) : (s.counted).word c = s.word c :=
  State.word_congr (State.counted_mem s) c
@[simp] theorem State.nextPc_counted (s : State) : (s.counted).nextPc = s.nextPc :=
  State.nextPc_congr (State.counted_pc s)

/-! ### setGpr -/

@[simp] theorem State.ixr_setGpr (q : BitVec 2) (v : Word) (s : State) (x : IndexReg) : (s.setGpr q v).ixr x = s.ixr x :=
  State.ixr_congr (State.setGpr_ixrs q v s) x
@[simp] theorem State.fr_setGpr (q : BitVec 2) (v : Word) (s : State) (f : FloatReg) : (s.setGpr q v).fr f = s.fr f :=
  State.fr_congr (State.setGpr_frs q v s) f
@[simp] theorem State.ccBit_setGpr (q : BitVec 2) (v : Word) (s : State) (k : BitVec 2) : (s.setGpr q v).ccBit k = s.ccBit k :=
  State.ccBit_congr (State.setGpr_cc q v s) k
@[simp] theorem State.word_setGpr (q : BitVec 2) (v : Word) (s : State) (c : Address) : (s.setGpr q v).word c = s.word c :=
  State.word_congr (State.setGpr_mem q v s) c
@[simp] theorem State.nextPc_setGpr (q : BitVec 2) (v : Word) (s : State) : (s.setGpr q v).nextPc = s.nextPc :=
  State.nextPc_congr (State.setGpr_pc q v s)

/-! ### setIxr -/

@[simp] theorem State.gpr_setIxr (y : IndexReg) (v : Word) (s : State) (r : BitVec 2) : (s.setIxr y v).gpr r = s.gpr r :=
  State.gpr_congr (State.setIxr_gprs y v s) r
@[simp] theorem State.fr_setIxr (y : IndexReg) (v : Word) (s : State) (f : FloatReg) : (s.setIxr y v).fr f = s.fr f :=
  State.fr_congr (State.setIxr_frs y v s) f
@[simp] theorem State.ccBit_setIxr (y : IndexReg) (v : Word) (s : State) (k : BitVec 2) : (s.setIxr y v).ccBit k = s.ccBit k :=
  State.ccBit_congr (State.setIxr_cc y v s) k
@[simp] theorem State.word_setIxr (y : IndexReg) (v : Word) (s : State) (c : Address) : (s.setIxr y v).word c = s.word c :=
  State.word_congr (State.setIxr_mem y v s) c
@[simp] theorem State.nextPc_setIxr (y : IndexReg) (v : Word) (s : State) : (s.setIxr y v).nextPc = s.nextPc :=
  State.nextPc_congr (State.setIxr_pc y v s)

/-! ### setFr -/

@[simp] theorem State.gpr_setFr (g : FloatReg) (v : Word) (s : State) (r : BitVec 2) : (s.setFr g v).gpr r = s.gpr r :=
  State.gpr_congr (State.setFr_gprs g v s) r
@[simp] theorem State.ixr_setFr (g : FloatReg) (v : Word) (s : State) (x : IndexReg) : (s.setFr g v).ixr x = s.ixr x :=
  State.ixr_congr (State.setFr_ixrs g v s) x
@[simp] theorem State.ccBit_setFr (g : FloatReg) (v : Word) (s : State) (k : BitVec 2) : (s.setFr g v).ccBit k = s.ccBit k :=
  State.ccBit_congr (State.setFr_cc g v s) k
@[simp] theorem State.word_setFr (g : FloatReg) (v : Word) (s : State) (c : Address) : (s.setFr g v).word c = s.word c :=
  State.word_congr (State.setFr_mem g v s) c
@[simp] theorem State.nextPc_setFr (g : FloatReg) (v : Word) (s : State) : (s.setFr g v).nextPc = s.nextPc :=
  State.nextPc_congr (State.setFr_pc g v s)

/-! ### noteOverflow -/

@[simp] theorem State.gpr_noteOverflow (b : Bool) (s : State) (r : BitVec 2) : (s.noteOverflow b).gpr r = s.gpr r :=
  State.gpr_congr (State.noteOverflow_gprs b s) r
@[simp] theorem State.ixr_noteOverflow (b : Bool) (s : State) (x : IndexReg) : (s.noteOverflow b).ixr x = s.ixr x :=
  State.ixr_congr (State.noteOverflow_ixrs b s) x
@[simp] theorem State.fr_noteOverflow (b : Bool) (s : State) (f : FloatReg) : (s.noteOverflow b).fr f = s.fr f :=
  State.fr_congr (State.noteOverflow_frs b s) f
@[simp] theorem State.word_noteOverflow (b : Bool) (s : State) (c : Address) : (s.noteOverflow b).word c = s.word c :=
  State.word_congr (State.noteOverflow_mem b s) c
@[simp] theorem State.nextPc_noteOverflow (b : Bool) (s : State) : (s.noteOverflow b).nextPc = s.nextPc :=
  State.nextPc_congr (State.noteOverflow_pc b s)

/-! ### noteUnderflow -/

@[simp] theorem State.gpr_noteUnderflow (b : Bool) (s : State) (r : BitVec 2) : (s.noteUnderflow b).gpr r = s.gpr r :=
  State.gpr_congr (State.noteUnderflow_gprs b s) r
@[simp] theorem State.ixr_noteUnderflow (b : Bool) (s : State) (x : IndexReg) : (s.noteUnderflow b).ixr x = s.ixr x :=
  State.ixr_congr (State.noteUnderflow_ixrs b s) x
@[simp] theorem State.fr_noteUnderflow (b : Bool) (s : State) (f : FloatReg) : (s.noteUnderflow b).fr f = s.fr f :=
  State.fr_congr (State.noteUnderflow_frs b s) f
@[simp] theorem State.word_noteUnderflow (b : Bool) (s : State) (c : Address) : (s.noteUnderflow b).word c = s.word c :=
  State.word_congr (State.noteUnderflow_mem b s) c
@[simp] theorem State.nextPc_noteUnderflow (b : Bool) (s : State) : (s.noteUnderflow b).nextPc = s.nextPc :=
  State.nextPc_congr (State.noteUnderflow_pc b s)

/-! ### setDivZero -/

@[simp] theorem State.gpr_setDivZero (s : State) (r : BitVec 2) : (s.setDivZero).gpr r = s.gpr r :=
  State.gpr_congr (State.setDivZero_gprs s) r
@[simp] theorem State.ixr_setDivZero (s : State) (x : IndexReg) : (s.setDivZero).ixr x = s.ixr x :=
  State.ixr_congr (State.setDivZero_ixrs s) x
@[simp] theorem State.fr_setDivZero (s : State) (f : FloatReg) : (s.setDivZero).fr f = s.fr f :=
  State.fr_congr (State.setDivZero_frs s) f
@[simp] theorem State.word_setDivZero (s : State) (c : Address) : (s.setDivZero).word c = s.word c :=
  State.word_congr (State.setDivZero_mem s) c
@[simp] theorem State.nextPc_setDivZero (s : State) : (s.setDivZero).nextPc = s.nextPc :=
  State.nextPc_congr (State.setDivZero_pc s)

/-! ### assignEqual -/

@[simp] theorem State.gpr_assignEqual (b : Bool) (s : State) (r : BitVec 2) : (s.assignEqual b).gpr r = s.gpr r :=
  State.gpr_congr (State.assignEqual_gprs b s) r
@[simp] theorem State.ixr_assignEqual (b : Bool) (s : State) (x : IndexReg) : (s.assignEqual b).ixr x = s.ixr x :=
  State.ixr_congr (State.assignEqual_ixrs b s) x
@[simp] theorem State.fr_assignEqual (b : Bool) (s : State) (f : FloatReg) : (s.assignEqual b).fr f = s.fr f :=
  State.fr_congr (State.assignEqual_frs b s) f
@[simp] theorem State.word_assignEqual (b : Bool) (s : State) (c : Address) : (s.assignEqual b).word c = s.word c :=
  State.word_congr (State.assignEqual_mem b s) c
@[simp] theorem State.nextPc_assignEqual (b : Bool) (s : State) : (s.assignEqual b).nextPc = s.nextPc :=
  State.nextPc_congr (State.assignEqual_pc b s)

/-! ### assignCarry -/

@[simp] theorem State.gpr_assignCarry (b : Bool) (s : State) (r : BitVec 2) : (s.assignCarry b).gpr r = s.gpr r :=
  State.gpr_congr (State.assignCarry_gprs b s) r
@[simp] theorem State.ixr_assignCarry (b : Bool) (s : State) (x : IndexReg) : (s.assignCarry b).ixr x = s.ixr x :=
  State.ixr_congr (State.assignCarry_ixrs b s) x
@[simp] theorem State.fr_assignCarry (b : Bool) (s : State) (f : FloatReg) : (s.assignCarry b).fr f = s.fr f :=
  State.fr_congr (State.assignCarry_frs b s) f
@[simp] theorem State.ccBit_assignCarry (b : Bool) (s : State) (k : BitVec 2) : (s.assignCarry b).ccBit k = s.ccBit k :=
  State.ccBit_congr (State.assignCarry_cc b s) k
@[simp] theorem State.word_assignCarry (b : Bool) (s : State) (c : Address) : (s.assignCarry b).word c = s.word c :=
  State.word_congr (State.assignCarry_mem b s) c
@[simp] theorem State.nextPc_assignCarry (b : Bool) (s : State) : (s.assignCarry b).nextPc = s.nextPc :=
  State.nextPc_congr (State.assignCarry_pc b s)

/-! ### takeFault -/

@[simp] theorem State.gpr_takeFault (e : Fault) (s : State) (r : BitVec 2) : (s.takeFault e).gpr r = s.gpr r :=
  State.gpr_congr (State.takeFault_gprs e s) r
@[simp] theorem State.ixr_takeFault (e : Fault) (s : State) (x : IndexReg) : (s.takeFault e).ixr x = s.ixr x :=
  State.ixr_congr (State.takeFault_ixrs e s) x
@[simp] theorem State.fr_takeFault (e : Fault) (s : State) (f : FloatReg) : (s.takeFault e).fr f = s.fr f :=
  State.fr_congr (State.takeFault_frs e s) f
@[simp] theorem State.ccBit_takeFault (e : Fault) (s : State) (k : BitVec 2) : (s.takeFault e).ccBit k = s.ccBit k :=
  State.ccBit_congr (State.takeFault_cc e s) k
@[simp] theorem State.word_takeFault (e : Fault) (s : State) (c : Address) : (s.takeFault e).word c = s.word c :=
  State.word_congr (State.takeFault_mem e s) c
@[simp] theorem State.nextPc_takeFault (e : Fault) (s : State) : (s.takeFault e).nextPc = s.nextPc :=
  State.nextPc_congr (State.takeFault_pc e s)

/-! ### takeRefusal -/

@[simp] theorem State.gpr_takeRefusal (w : Refusal) (s : State) (r : BitVec 2) : (s.takeRefusal w).gpr r = s.gpr r :=
  State.gpr_congr (State.takeRefusal_gprs w s) r
@[simp] theorem State.ixr_takeRefusal (w : Refusal) (s : State) (x : IndexReg) : (s.takeRefusal w).ixr x = s.ixr x :=
  State.ixr_congr (State.takeRefusal_ixrs w s) x
@[simp] theorem State.fr_takeRefusal (w : Refusal) (s : State) (f : FloatReg) : (s.takeRefusal w).fr f = s.fr f :=
  State.fr_congr (State.takeRefusal_frs w s) f
@[simp] theorem State.ccBit_takeRefusal (w : Refusal) (s : State) (k : BitVec 2) : (s.takeRefusal w).ccBit k = s.ccBit k :=
  State.ccBit_congr (State.takeRefusal_cc w s) k
@[simp] theorem State.word_takeRefusal (w : Refusal) (s : State) (c : Address) : (s.takeRefusal w).word c = s.word c :=
  State.word_congr (State.takeRefusal_mem w s) c
@[simp] theorem State.nextPc_takeRefusal (w : Refusal) (s : State) : (s.takeRefusal w).nextPc = s.nextPc :=
  State.nextPc_congr (State.takeRefusal_pc w s)

/-! ### memRead -/

@[simp] theorem State.gpr_memRead (a : Address) (s : State) (r : BitVec 2) : (s.memRead a).2.gpr r = s.gpr r :=
  State.gpr_congr (State.memRead_gprs a s) r
@[simp] theorem State.ixr_memRead (a : Address) (s : State) (x : IndexReg) : (s.memRead a).2.ixr x = s.ixr x :=
  State.ixr_congr (State.memRead_ixrs a s) x
@[simp] theorem State.fr_memRead (a : Address) (s : State) (f : FloatReg) : (s.memRead a).2.fr f = s.fr f :=
  State.fr_congr (State.memRead_frs a s) f
@[simp] theorem State.ccBit_memRead (a : Address) (s : State) (k : BitVec 2) : (s.memRead a).2.ccBit k = s.ccBit k :=
  State.ccBit_congr (State.memRead_cc a s) k
@[simp] theorem State.nextPc_memRead (a : Address) (s : State) : (s.memRead a).2.nextPc = s.nextPc :=
  State.nextPc_congr (State.memRead_pc a s)

/-! ### memWrite -/

@[simp] theorem State.gpr_memWrite (a : Address) (v : Word) (s : State) (r : BitVec 2) : (s.memWrite a v).gpr r = s.gpr r :=
  State.gpr_congr (State.memWrite_gprs a v s) r
@[simp] theorem State.ixr_memWrite (a : Address) (v : Word) (s : State) (x : IndexReg) : (s.memWrite a v).ixr x = s.ixr x :=
  State.ixr_congr (State.memWrite_ixrs a v s) x
@[simp] theorem State.fr_memWrite (a : Address) (v : Word) (s : State) (f : FloatReg) : (s.memWrite a v).fr f = s.fr f :=
  State.fr_congr (State.memWrite_frs a v s) f
@[simp] theorem State.ccBit_memWrite (a : Address) (v : Word) (s : State) (k : BitVec 2) : (s.memWrite a v).ccBit k = s.ccBit k :=
  State.ccBit_congr (State.memWrite_cc a v s) k
@[simp] theorem State.nextPc_memWrite (a : Address) (v : Word) (s : State) : (s.memWrite a v).nextPc = s.nextPc :=
  State.nextPc_congr (State.memWrite_pc a v s)

/-! ### resolveEA -/

@[simp] theorem State.gpr_resolveEA (ix : BitVec 2) (ind : Bool) (addr : BitVec 5) (s : State) (r : BitVec 2) : (s.resolveEA ix ind addr).2.gpr r = s.gpr r :=
  State.gpr_congr (State.resolveEA_gprs ix ind addr s) r
@[simp] theorem State.ixr_resolveEA (ix : BitVec 2) (ind : Bool) (addr : BitVec 5) (s : State) (x : IndexReg) : (s.resolveEA ix ind addr).2.ixr x = s.ixr x :=
  State.ixr_congr (State.resolveEA_ixrs ix ind addr s) x
@[simp] theorem State.fr_resolveEA (ix : BitVec 2) (ind : Bool) (addr : BitVec 5) (s : State) (f : FloatReg) : (s.resolveEA ix ind addr).2.fr f = s.fr f :=
  State.fr_congr (State.resolveEA_frs ix ind addr s) f
@[simp] theorem State.ccBit_resolveEA (ix : BitVec 2) (ind : Bool) (addr : BitVec 5) (s : State) (k : BitVec 2) : (s.resolveEA ix ind addr).2.ccBit k = s.ccBit k :=
  State.ccBit_congr (State.resolveEA_cc ix ind addr s) k
@[simp] theorem State.word_resolveEA (ix : BitVec 2) (ind : Bool) (addr : BitVec 5) (s : State) (c : Address) : (s.resolveEA ix ind addr).2.word c = s.word c :=
  State.word_congr (State.resolveEA_mem ix ind addr s) c
@[simp] theorem State.nextPc_resolveEA (ix : BitVec 2) (ind : Bool) (addr : BitVec 5) (s : State) : (s.resolveEA ix ind addr).2.nextPc = s.nextPc :=
  State.nextPc_congr (State.resolveEA_pc ix ind addr s)

end Sys2Proof.Machine
end

