-- ==== Sys2Proof/Laws/Branch.lean ====
section
/-! SUPPORT. The branch predictor and the end of a branch (Machine/Predictor.lean, Machine/Branch.lean). -/

namespace Sys2Proof.Machine

/-! ## The predictor (R136 to R143) -/

theorem bhtIndex_val (a : Nat) : (bhtIndex a).val = a % 128 := rfl

/-- An update moves the entry of its address and no other (R138). -/
theorem State.counter_updateCounter (a : Nat) (taken : Bool) (s : State) (k : Nat) :
    (s.updateCounter a taken).counter k = if k % 128 = a % 128 then saturate taken (s.counter k) else s.counter k := by
  unfold State.counter State.updateCounter
  rw [vector_get_set]
  by_cases h : k % 128 = a % 128
  · have : bhtIndex a = bhtIndex k := Fin.ext (by rw [bhtIndex_val, bhtIndex_val, h])
    simp [h, this, State.counter]
  · have : bhtIndex a ≠ bhtIndex k := fun hh => h (by rw [← bhtIndex_val, ← bhtIndex_val, hh])
    simp [h, this]

theorem saturate_toNat (taken : Bool) (c : BitVec 2) :
    (saturate taken c).toNat = if taken then min (c.toNat + 1) 3 else c.toNat - 1 := by
  revert taken c; decide

theorem State.predict_iff (a : Nat) (s : State) : s.predict a = true ↔ 2 ≤ (s.counter a).toNat := by
  unfold State.predict; generalize s.counter a = c; revert c; decide

/-- All that the end of a branch does (R127, R143). -/
theorem commit_branched {ia : Nat} {s : State} (hpc : s.pc = some (ia + 1)) (taken : Bool) (target : Nat) :
    ∃ t, commit taken target s = .next t ∧ Branched ia taken target s t ∧ t.gprs = s.gprs ∧ SameOtherRegs s t := by
  have hn : s.nextPc = ia + 1 := by simp [State.nextPc, hpc]
  have hi : s.instrAddr = ia := by simp [State.instrAddr, hn]
  refine ⟨_, rfl, ⟨?_, rfl, ?_, ?_, rfl, rfl, rfl, rfl, rfl, rfl, rfl, fun _ => rfl⟩, rfl, ⟨rfl, rfl, rfl, rfl⟩⟩
  · show some (if taken = true then target else s.nextPc) = _; rw [hn]
  · show s.correct + Bool.toNat (decide ((if s.predict s.instrAddr = true then target else s.instrAddr + 1) = if taken = true then target else s.nextPc)) = _
    rw [hn, hi]; simp only [State.predict_iff]
    congr 1
    split_ifs <;> simp_all
  · intro k hk
    show ((State.updateCounter s.instrAddr taken (s.recordPrediction _)).counter k).toNat = _
    rw [State.counter_updateCounter, hi, Nat.mod_eq_of_lt hk]
    split_ifs with h h2 <;> simp_all [saturate_toNat] <;> rfl
end Sys2Proof.Machine
end

