-- ==== Sys2Proof/Laws/Vector.lean ====
section
/-! SUPPORT. The vector loop (Machine/FloatVector.lean, spec/46_float_vector.md R162): what every run of it leaves alone, and
what it leaves in memory when the element operation never refuses. -/

namespace Sys2Proof.Machine

/-- The state with the array, the cache and the latches forgotten: what data accesses leave alone. -/
def State.forgetMemory (s : State) : State := { s with mem := [], cache := Cache.empty, mar := none, mbr := none }

theorem State.forgetMemory_memRead (a : Address) (s : State) : (s.memRead a).2.forgetMemory = s.forgetMemory := by
  simp [State.forgetMemory]

theorem State.forgetMemory_memWrite (a : Address) (v : Word) (s : State) :
    (s.memWrite a v).forgetMemory = s.forgetMemory := by
  simp [State.forgetMemory]

theorem State.forgetMemory_resolveEA (ix : BitVec 2) (ind : Bool) (addr : BitVec 5) (s : State) :
    (s.resolveEA ix ind addr).2.forgetMemory = s.forgetMemory := by
  simp [State.forgetMemory]

/-- What `u` keeps of `s` when only words in `lo ≤ a < hi` have been stored: everything beside memory, the invariants, and
every other word. -/
structure StoredBetween (lo hi : Nat) (s u : State) : Prop where
  beside : u.forgetMemory = s.forgetMemory
  cacheInv : s.CacheInv → s.mem.wf = true → u.CacheInv ∧ u.mem.wf = true
  elsewhere : ∀ a, a < lo ∨ hi ≤ a → u.mem.read a = s.mem.read a
  lowWords : ∀ a, a ≤ 5 → u.mem.read a = s.mem.read a

theorem StoredBetween.refl (lo hi : Nat) (s : State) : StoredBetween lo hi s s :=
  ⟨rfl, fun h hw => ⟨h, hw⟩, fun _ _ => rfl, fun _ _ => rfl⟩

/-- One element: both operands read, the result stored at `a1`. -/
theorem StoredBetween.element {lo hi : Nat} {s : State} {a1 a2 : Address} (v : Word) (h6 : 6 ≤ a1.toNat)
    (hlo : lo ≤ a1.toNat) (hhi : a1.toNat < hi) :
    StoredBetween lo hi s (((s.memRead a1).2.memRead a2).2.memWrite a1 v) where
  beside := by rw [State.forgetMemory_memWrite, State.forgetMemory_memRead, State.forgetMemory_memRead]
  cacheInv h hw :=
    ⟨State.memWrite_cacheInv (State.memRead_cacheInv (State.memRead_cacheInv h a1) a2) (by simpa using hw) a1 v,
      State.memWrite_wf (by simpa using hw) a1 v⟩
  elsewhere a ha := by
    rw [State.memWrite_mem, Memory.read_write_of_ne (by omega)]; simp
  lowWords a ha := by
    rw [State.memWrite_mem, Memory.read_write_of_ne (by omega)]; simp

/-- Both operands read, nothing stored. -/
theorem StoredBetween.reads (lo hi : Nat) (s : State) (a1 a2 : Address) :
    StoredBetween lo hi s ((s.memRead a1).2.memRead a2).2 where
  beside := by rw [State.forgetMemory_memRead, State.forgetMemory_memRead]
  cacheInv h hw := ⟨State.memRead_cacheInv (State.memRead_cacheInv h a1) a2, by simpa using hw⟩
  elsewhere a _ := by simp
  lowWords a _ := by simp

theorem StoredBetween.trans {lo hi : Nat} {s t u : State} (h1 : StoredBetween lo hi s t) (h2 : StoredBetween lo hi t u) :
    StoredBetween lo hi s u where
  beside := h2.beside.trans h1.beside
  cacheInv h hw := h2.cacheInv (h1.cacheInv h hw).1 (h1.cacheInv h hw).2
  elsewhere a ha := (h2.elsewhere a ha).trans (h1.elsewhere a ha)
  lowWords a ha := (h2.lowWords a ha).trans (h1.lowWords a ha)

theorem StoredBetween.mono {lo hi lo' hi' : Nat} {s t : State} (h : StoredBetween lo' hi' s t) (h1 : lo ≤ lo') (h2 : hi' ≤ hi) :
    StoredBetween lo hi s t where
  beside := h.beside
  cacheInv := h.cacheInv
  elsewhere a ha := h.elsewhere a (by omega)
  lowWords := h.lowWords

/-- All that the loop can do, whatever the element operation: it stores within the first vector and then completes,
faults or refuses. -/
theorem vectorLoop_cases (op : Word → Word → Except Refusal Word) (p1 p2 n i : Nat) (s : State) :
    ∃ u, StoredBetween (p1 + i) (p1 + i + n) s u ∧
      (vectorLoop op p1 p2 n i s = .next u.counted ∨ (∃ e, vectorLoop op p1 p2 n i s = .next (u.takeFault e)) ∨
        ∃ why, vectorLoop op p1 p2 n i s = .next (u.takeRefusal why)) := by
  induction n generalizing i s with
  | zero => exact ⟨s, .refl .., .inl rfl⟩
  | succ n ih =>
    unfold vectorLoop
    cases h1 : checkAddr (p1 + i) with
    | error e => exact ⟨s, .refl .., .inr (.inl ⟨e, rfl⟩)⟩
    | ok a1 =>
      cases h2 : checkAddr (p2 + i) with
      | error e => exact ⟨s, .refl .., .inr (.inl ⟨e, rfl⟩)⟩
      | ok a2 =>
        obtain ⟨hl, hh, ha⟩ := checkAddr_ok.mp h1
        dsimp only
        cases op (s.memRead a1).1 ((s.memRead a1).2.memRead a2).1 with
        | error why => exact ⟨_, .reads .., .inr (.inr ⟨why, rfl⟩)⟩
        | ok v =>
          obtain ⟨u, hu, hr⟩ := ih (i + 1) (((s.memRead a1).2.memRead a2).2.memWrite a1 v)
          exact ⟨u, .trans (.element v (by omega) (by omega) (by omega)) (hu.mono (by omega) (by omega)), hr⟩

/-- Elements `i` to `i + m - 1` all inside 6..2047, under an operation that never refuses: the loop goes through them and
leaves each combined, reading an element of the second vector combined already where it is an earlier one of the first. -/
theorem vectorLoop_through (g : Word → Word → Word) (p1 p2 m n i : Nat) (s : State) (h : s.CacheInv) (hw : s.mem.wf = true)
    (hr : ∀ k, i ≤ k → k < i + m → (6 ≤ p1 + k ∧ p1 + k ≤ 2047) ∧ 6 ≤ p2 + k ∧ p2 + k ≤ 2047) :
    ∃ u, vectorLoop (fun x y => .ok (g x y)) p1 p2 (m + n) i s = vectorLoop (fun x y => .ok (g x y)) p1 p2 n (i + m) u ∧
      StoredBetween (p1 + i) (p1 + i + m) s u ∧
      ∀ k, i ≤ k → k < i + m →
        u.mem.read (p1 + k) =
          g (s.mem.read (p1 + k)) (if p1 + i ≤ p2 + k ∧ p2 + k < p1 + k then u.mem.read (p2 + k) else s.mem.read (p2 + k)) := by
  induction m generalizing i s with
  | zero => exact ⟨s, by simp, .refl .., fun k h1 h2 => by omega⟩
  | succ m ih =>
    obtain ⟨⟨h1, h2⟩, h3, h4⟩ := hr i (by omega) (by omega)
    have e1 : checkAddr (p1 + i) = .ok (BitVec.ofNat 11 (p1 + i)) := checkAddr_ok.mpr ⟨h1, by omega, by simp; omega⟩
    have e2 : checkAddr (p2 + i) = .ok (BitVec.ofNat 11 (p2 + i)) := checkAddr_ok.mpr ⟨h3, by omega, by simp; omega⟩
    obtain ⟨_, _, ha1⟩ := checkAddr_ok.mp e1
    obtain ⟨_, _, ha2⟩ := checkAddr_ok.mp e2
    generalize BitVec.ofNat 11 (p1 + i) = a1 at e1 ha1
    generalize BitVec.ofNat 11 (p2 + i) = a2 at e2 ha2
    have hx : (s.memRead a1).1 = s.mem.read (p1 + i) := by rw [State.memRead_value h, State.word, ha1]
    have hy : ((s.memRead a1).2.memRead a2).1 = s.mem.read (p2 + i) := by
      rw [State.memRead_value (State.memRead_cacheInv h a1), State.memRead_word, State.word, ha2]
    have hs := StoredBetween.element (lo := p1 + i) (hi := p1 + i + 1) (s := s) (a1 := a1) (a2 := a2)
      (g (s.mem.read (p1 + i)) (s.mem.read (p2 + i))) (by omega) (by omega) (by omega)
    have hv : (((s.memRead a1).2.memRead a2).2.memWrite a1 (g (s.mem.read (p1 + i)) (s.mem.read (p2 + i)))).mem.read (p1 + i) =
        g (s.mem.read (p1 + i)) (s.mem.read (p2 + i)) := by
      have := State.memWrite_word_same (s := ((s.memRead a1).2.memRead a2).2) (by simpa using hw) a1
        (g (s.mem.read (p1 + i)) (s.mem.read (p2 + i)))
      rwa [State.word, ha1] at this
    have hloop : vectorLoop (fun x y => .ok (g x y)) p1 p2 (m + 1 + n) i s =
        vectorLoop (fun x y => .ok (g x y)) p1 p2 (m + n) (i + 1)
          (((s.memRead a1).2.memRead a2).2.memWrite a1 (g (s.mem.read (p1 + i)) (s.mem.read (p2 + i)))) := by
      rw [show m + 1 + n = (m + n) + 1 by omega, vectorLoop, e1, e2]
      simp only [hx, hy]
    generalize ((s.memRead a1).2.memRead a2).2.memWrite a1 (g (s.mem.read (p1 + i)) (s.mem.read (p2 + i))) = t at hs hv hloop
    obtain ⟨u, hu, hb, hk⟩ := ih (i + 1) t (hs.cacheInv h hw).1 (hs.cacheInv h hw).2 fun k h5 h6 => hr k (by omega) (by omega)
    refine ⟨u, ?_, (hs.mono (by omega) (by omega)).trans (hb.mono (by omega) (by omega)), ?_⟩
    · rw [hloop, hu, show i + 1 + m = i + (m + 1) by omega]
    · intro k h5 h6
      rcases Nat.eq_or_lt_of_le h5 with rfl | h7
      · rw [hb.elsewhere _ (by omega), hv, if_neg (by omega)]
      · rw [hk k (by omega) (by omega), hs.elsewhere (p1 + k) (by omega)]
        congr 1
        by_cases hc : p1 + i ≤ p2 + k ∧ p2 + k < p1 + k
        · rw [if_pos hc]
          split_ifs with hd
          · rfl
          · rw [hb.elsewhere _ (by omega)]
        · rw [if_neg hc, if_neg (by omega), hs.elsewhere _ (by omega)]

end Sys2Proof.Machine
end

