-- ==== Sys2Proof/Laws/Control.lean ====
section
/-! SUPPORT. What every instruction does to PC, IR, run state, PendingInput and the prediction counts: it ends in place,
as a branch, or as an IN that waits. -/

namespace Sys2Proof.Machine

/-- PC and PendingInput kept, no prediction, the run state kept or Halted: every instruction but a committed branch and a
successful IN. -/
structure EndsInPlace (s t : State) : Prop where
  ir : t.ir = s.ir
  pc : t.pc = s.pc
  pending : t.pending = s.pending
  runState : t.runState = s.runState ∨ t.runState = .halted
  predictions : t.predictions = s.predictions
  correct : t.correct = s.correct

/-- A branch that committed: the PC is an address or the advanced PC, one prediction counted. -/
structure EndsAsBranch (s t : State) : Prop where
  ir : t.ir = s.ir
  pc : ∃ x, t.pc = some x ∧ (x ≤ 2047 ∨ x = s.nextPc)
  pending : t.pending = s.pending
  runState : t.runState = s.runState
  predictions : t.predictions = s.predictions + 1
  correct : t.correct ≤ s.correct + 1

/-- An IN that waits. -/
structure EndsWaiting (s t : State) : Prop where
  ir : t.ir = s.ir
  pc : t.pc = s.pc
  pending : ∃ p, t.pending = some p ∧ 1 ≤ p.count ∧ p.count ≤ 65535
  runState : t.runState = .waitingForInput
  predictions : t.predictions = s.predictions
  correct : t.correct = s.correct

/-- The result is a next state that ends in one of the three ways. -/
def Ends (s : State) (r : Result) : Prop := ∃ t, r = .next t ∧ (EndsInPlace s t ∨ EndsAsBranch s t ∨ EndsWaiting s t)

theorem Ends.inPlace {s t : State} (h : EndsInPlace s t) : Ends s (.next t) := ⟨t, rfl, .inl h⟩

/-- A state that agrees beside memory with `s` and completes ends in place. -/
theorem Ends.completed {s u : State} (h : u.forgetMemory = s.forgetMemory) : Ends s u.completed :=
  have g : ∀ {α : Type} (f : State → α), f u.forgetMemory = f s.forgetMemory := fun f => by rw [h]
  .inPlace ⟨g State.ir, g State.pc, g State.pending, .inl (g State.runState), g State.predictions, g State.correct⟩

theorem Ends.raise {s u : State} (h : u.forgetMemory = s.forgetMemory) (e : Fault) : Ends s (u.raise e) :=
  have g : ∀ {α : Type} (f : State → α), f u.forgetMemory = f s.forgetMemory := fun f => by rw [h]
  .inPlace ⟨g State.ir, g State.pc, g State.pending, .inr rfl, g State.predictions, g State.correct⟩

theorem Ends.refuse {s u : State} (h : u.forgetMemory = s.forgetMemory) (why : Refusal) : Ends s (u.refuse why) :=
  have g : ∀ {α : Type} (f : State → α), f u.forgetMemory = f s.forgetMemory := fun f => by rw [h]
  .inPlace ⟨g State.ir, g State.pc, g State.pending, .inr rfl, g State.predictions, g State.correct⟩

/-- Register writes after data accesses, then completion. -/
theorem Ends.written {s u t : State} (h : u.forgetMemory = s.forgetMemory) (h1 : t.ir = u.ir) (h2 : t.pc = u.pc)
    (h3 : t.pending = u.pending) (h4 : t.runState = u.runState) (h5 : t.predictions = u.predictions)
    (h6 : t.correct = u.correct) : Ends s t.completed :=
  have g : ∀ {α : Type} (f : State → α), f u.forgetMemory = f s.forgetMemory := fun f => by rw [h]
  .inPlace ⟨h1.trans (g State.ir), h2.trans (g State.pc), h3.trans (g State.pending), .inl (h4.trans (g State.runState)),
    h5.trans (g State.predictions), h6.trans (g State.correct)⟩

theorem Ends.withEA {s t : State} (h : t.forgetMemory = s.forgetMemory) (ix : BitVec 2) (ind : Bool) (addr : BitVec 5)
    {k : Address → State → Result} (hk : ∀ ea u, u.forgetMemory = s.forgetMemory → Ends s (k ea u)) :
    Ends s (withEA ix ind addr t k) := by
  have hu := (State.forgetMemory_resolveEA ix ind addr t).trans h
  rcases withEA_cases ix ind addr t k with ⟨ea, _, he⟩ | ⟨e, _, he⟩
  · rw [he]; exact hk _ _ hu
  · rw [he]; exact .raise hu e

theorem Ends.withFloatReg {s : State} (r : BitVec 2) {k : FloatReg → Result} (hk : ∀ f, Ends s (k f)) :
    Ends s (withFloatReg r s k) := by
  rcases withFloatReg_cases r s k with ⟨f, _, he⟩ | ⟨_, he⟩
  · rw [he]; exact hk f
  · rw [he]; exact .raise rfl _

theorem Ends.withIndexReg {s : State} (ix : BitVec 2) {k : IndexReg → Result} (hk : ∀ x, Ends s (k x)) :
    Ends s (withIndexReg ix s k) := by
  rcases withIndexReg_cases ix s k with ⟨x, _, he⟩ | ⟨_, he⟩
  · rw [he]; exact hk x
  · rw [he]; exact .raise rfl _

theorem Ends.withPairs {s : State} (rx ry : BitVec 2) {k : Result} (hk : Ends s k) : Ends s (withPairs rx ry s k) := by
  rcases withPairs_cases rx ry s k with ⟨_, he⟩ | ⟨_, he⟩
  · rw [he]; exact hk
  · rw [he]; exact .raise rfl _

theorem Ends.vectorLoop {s u : State} (h : u.forgetMemory = s.forgetMemory) (op : Word → Word → Except Refusal Word)
    (p1 p2 n i : Nat) : Ends s (vectorLoop op p1 p2 n i u) := by
  obtain ⟨v, hv, hr⟩ := vectorLoop_cases op p1 p2 n i u
  have hb := hv.beside.trans h
  rcases hr with hr | ⟨e, hr⟩ | ⟨why, hr⟩ <;> rw [hr]
  · exact .completed hb
  · exact .raise hb e
  · exact .refuse hb why

/-- A committed branch, `u` agreeing with `s` beside memory but for general registers. -/
theorem Ends.commit {s u : State} (taken : Bool) {target : Nat} (ht : target ≤ 2047) (h1 : u.ir = s.ir) (h2 : u.pc = s.pc)
    (h3 : u.pending = s.pending) (h4 : u.runState = s.runState) (h5 : u.predictions = s.predictions)
    (h6 : u.correct = s.correct) : Ends s (commit taken target u) := by
  refine ⟨_, rfl, .inr (.inl ⟨h1, ⟨_, rfl, ?_⟩, h3, h4, congrArg (· + 1) h5, ?_⟩)⟩
  · split
    · exact .inl ht
    · exact .inr (State.nextPc_congr h2)
  · have one : ∀ b : Bool, b.toNat ≤ 1 := by decide
    show u.correct + Bool.toNat _ ≤ _
    rw [h6]; exact Nat.add_le_add_left (one _) _

/-- A committed branch to an effective address. -/
theorem Ends.branchTo {s u : State} (h : u.forgetMemory = s.forgetMemory) (taken : Bool) (ea : Address) :
    Ends s (Machine.commit taken ea.toNat u) :=
  have g : ∀ {α : Type} (f : State → α), f u.forgetMemory = f s.forgetMemory := fun f => by rw [h]
  .commit taken (by have := ea.isLt; omega) (g State.ir) (g State.pc) (g State.pending) (g State.runState)
    (g State.predictions) (g State.correct)

theorem inputCount_range (k : Word) : 1 ≤ inputCount k ∧ inputCount k ≤ 65535 := by
  have h1 : s16 k < 32768 := BitVec.toInt_lt
  unfold inputCount; split <;> omega

theorem floatAdd_ends (order : FpExpOrder) (negateB : Bool) (r ix : BitVec 2) (ind : Bool) (addr : BitVec 5) (s : State) :
    Ends s (floatAdd order negateB r ix ind addr s) := by
  refine .withFloatReg r fun f => .withEA rfl _ _ _ fun ea u hu => ?_
  have hm := (State.forgetMemory_memRead ea u).trans hu
  dsimp only
  cases fpAddCore order (u.fr f) (u.memRead ea).1 negateB with
  | ok w => exact .written hm (by simp) (by simp) (by simp) (by simp) (by simp) (by simp)
  | error why => exact .refuse hm why

theorem vectorOp_ends (elem : VecElemOp) (order : FpExpOrder) (negateB : Bool) (r ix : BitVec 2) (ind : Bool)
    (addr : BitVec 5) (s : State) : Ends s (vectorOp elem order negateB r ix ind addr s) := by
  refine .withFloatReg r fun f => .withEA rfl _ _ _ fun ea u hu => ?_
  cases checkAddr (ea.toNat + 1) with
  | error e => exact .raise hu e
  | ok ea1 =>
    have hm := ((State.forgetMemory_memRead ea1 _).trans (State.forgetMemory_memRead ea u)).trans hu
    dsimp only; split
    · exact .refuse hm _
    · exact .vectorLoop hm ..

theorem loadIndex_ends (indexed : Bool) (ix : BitVec 2) (ind : Bool) (addr : BitVec 5) (s : State) :
    Ends s (loadIndex indexed ix ind addr s) :=
  .withIndexReg ix fun _ => .withEA rfl _ _ _ fun ea u hu =>
    .written ((State.forgetMemory_memRead ea u).trans hu) (by simp) (by simp) (by simp) (by simp) (by simp) (by simp)

theorem storeIndex_ends (indexed : Bool) (ix : BitVec 2) (ind : Bool) (addr : BitVec 5) (s : State) :
    Ends s (storeIndex indexed ix ind addr s) :=
  .withIndexReg ix fun _ => .withEA rfl _ _ _ fun ea _ hu => .completed ((State.forgetMemory_memWrite ea _ _).trans hu)

/-- Every instruction answers a next state that ends in one of the three ways. -/
theorem exec_ends (i : Instr) (s : State) : Ends s (exec i s) := by
  have read {ea : Address} {u : State} (hu : u.forgetMemory = s.forgetMemory) :
      (u.memRead ea).2.forgetMemory = s.forgetMemory := (State.forgetMemory_memRead ea u).trans hu
  have wrote {ea : Address} {v : Word} {u : State} (hu : u.forgetMemory = s.forgetMemory) :
      (u.memWrite ea v).forgetMemory = s.forgetMemory := (State.forgetMemory_memWrite ea v u).trans hu
  cases i with
  | hlt => exact .inPlace ⟨rfl, rfl, rfl, .inr rfl, rfl, rfl⟩
  | ldr r ix ind addr => exact .withEA rfl _ _ _ fun ea u hu => .written (read hu) rfl rfl rfl rfl rfl rfl
  | str r ix ind addr => exact .withEA rfl _ _ _ fun ea u hu => .completed (wrote hu)
  | lda r ix ind addr => exact .withEA rfl _ _ _ fun ea u hu => .written hu rfl rfl rfl rfl rfl rfl
  | amr r ix ind addr => exact .withEA rfl _ _ _ fun ea u hu => .written (read hu) rfl rfl rfl rfl rfl rfl
  | smr r ix ind addr => exact .withEA rfl _ _ _ fun ea u hu => .written (read hu) rfl rfl rfl rfl rfl rfl
  | air r immed =>
    simp only [exec, execAir]; split
    · exact .completed rfl
    · exact .written (u := s) rfl rfl rfl rfl rfl rfl rfl
  | sir r immed =>
    simp only [exec, execSir]; split
    · exact .completed rfl
    · exact .written (u := s) rfl rfl rfl rfl rfl rfl rfl
  | jz r ix ind addr => exact .withEA rfl _ _ _ fun ea u hu => .branchTo hu _ ea
  | jne r ix ind addr => exact .withEA rfl _ _ _ fun ea u hu => .branchTo hu _ ea
  | jcc r ix ind addr => exact .withEA rfl _ _ _ fun ea u hu => .branchTo hu _ ea
  | jma ix ind addr => exact .withEA rfl _ _ _ fun ea u hu => .branchTo hu _ ea
  | jsr ix ind addr =>
    refine .withEA rfl _ _ _ fun ea u hu => ?_
    have g : ∀ {α : Type} (f : State → α), f u.forgetMemory = f s.forgetMemory := fun f => by rw [hu]
    exact .commit _ (by have := ea.isLt; omega) (g State.ir) (g State.pc) (g State.pending) (g State.runState)
      (g State.predictions) (g State.correct)
  | rfs immed =>
    simp only [exec, execRfs]; split
    · exact .raise rfl _
    · rename_i h
      exact .commit _ (by unfold memorySize at h; omega) rfl rfl rfl rfl rfl rfl
  | sob r ix ind addr =>
    refine .withEA rfl _ _ _ fun ea u hu => ?_
    have g : ∀ {α : Type} (f : State → α), f u.forgetMemory = f s.forgetMemory := fun f => by rw [hu]
    exact .commit _ (by have := ea.isLt; omega) (g State.ir) (g State.pc) (g State.pending) (g State.runState)
      (g State.predictions) (g State.correct)
  | jge r ix ind addr => exact .withEA rfl _ _ _ fun ea u hu => .branchTo hu _ ea
  | mlt rx ry => exact .withPairs _ _ (.written (u := s) rfl rfl rfl rfl rfl rfl rfl)
  | dvd rx ry =>
    refine .withPairs _ _ ?_
    split
    · exact .inPlace ⟨rfl, rfl, rfl, .inr rfl, rfl, rfl⟩
    · exact .written (u := s) rfl rfl rfl rfl rfl rfl rfl
  | trr rx ry => exact .written (u := s) rfl rfl rfl rfl rfl rfl rfl
  | and rx ry => exact .written (u := s) rfl rfl rfl rfl rfl rfl rfl
  | orr rx ry => exact .written (u := s) rfl rfl rfl rfl rfl rfl rfl
  | not rx => exact .written (u := s) rfl rfl rfl rfl rfl rfl rfl
  | src r al lr count =>
    simp only [exec, execSrc, shiftRegister]; split
    · exact .completed rfl
    · split
      · exact .refuse rfl _
      · exact .written (u := s) rfl rfl rfl rfl rfl rfl rfl
  | rrc r al lr count =>
    simp only [exec, execRrc, rotateRegister]; split
    · exact .completed rfl
    · split
      · exact .written (u := s) rfl rfl rfl rfl rfl rfl rfl
      · exact .written (u := s) rfl rfl rfl rfl rfl rfl rfl
  | fadd r ix ind addr => exact floatAdd_ends ..
  | fsub r ix ind addr => exact floatAdd_ends ..
  | vadd r ix ind addr => exact vectorOp_ends ..
  | vsub r ix ind addr => exact vectorOp_ends ..
  | cnvrt r ix ind addr =>
    refine .withEA rfl _ _ _ fun ea u hu => ?_
    dsimp only; split
    · exact .written (read hu) rfl rfl rfl rfl rfl rfl
    · exact .written (read hu) rfl rfl rfl rfl rfl rfl
  | ldx ix ind addr => exact loadIndex_ends ..
  | stx ix ind addr => exact storeIndex_ends ..
  | ldfr r ix ind addr =>
    exact .withFloatReg _ fun f => .withEA rfl _ _ _ fun ea u hu =>
      .written (read (ea := ea) hu) (by simp) (by simp) (by simp) (by simp) (by simp) (by simp)
  | stfr r ix ind addr => exact .withFloatReg _ fun f => .withEA rfl _ _ _ fun ea u hu => .completed (wrote hu)
  | inp r devid =>
    simp only [exec, execInp]; split
    · exact .refuse rfl _
    · split
      · exact .refuse rfl _
      · exact ⟨_, rfl, .inr (.inr ⟨rfl, rfl, ⟨_, rfl, inputCount_range _⟩, rfl, rfl, rfl⟩)⟩
  | out r devid =>
    simp only [exec, execOut]; split
    · exact .refuse rfl _
    · exact .inPlace ⟨rfl, rfl, rfl, .inl rfl, rfl, rfl⟩

end Sys2Proof.Machine
end

