-- ==== Sys2Proof/Laws/Decode.lean ====
section
/-! SUPPORT. Each field of each format reads back what the format was built from (spec/30_encoding.md R77 to R85), and
what `selectMnemonic` answers. -/

namespace Sys2Proof

/-- A concatenation as a number. -/
theorem toNat_append_mul {m n : Nat} (x : BitVec m) (y : BitVec n) :
    (x ++ y).toNat = x.toNat * 2 ^ n + y.toNat := by
  rw [BitVec.toNat_append, ← Nat.shiftLeft_add_eq_or_of_lt y.isLt, Nat.shiftLeft_eq]

/-! ## formatL -/

theorem opcodeField_formatL (op : BitVec 6) (r ix : BitVec 2) (ind : Bool) (addr : BitVec 5) :
    opcodeField (formatL op r ix ind addr) = op := by
  ext i hi
  simp only [opcodeField, formatL, BitVec.getElem_extractLsb', BitVec.getLsbD_append]
  interval_cases i <;> simp

theorem rField_formatL (op : BitVec 6) (r ix : BitVec 2) (ind : Bool) (addr : BitVec 5) :
    rField (formatL op r ix ind addr) = r := by
  ext i hi
  simp only [rField, formatL, BitVec.getElem_extractLsb', BitVec.getLsbD_append]
  interval_cases i <;> simp

theorem ixField_formatL (op : BitVec 6) (r ix : BitVec 2) (ind : Bool) (addr : BitVec 5) :
    ixField (formatL op r ix ind addr) = ix := by
  ext i hi
  simp only [ixField, formatL, BitVec.getElem_extractLsb', BitVec.getLsbD_append]
  interval_cases i <;> simp

theorem iField_formatL (op : BitVec 6) (r ix : BitVec 2) (ind : Bool) (addr : BitVec 5) :
    iField (formatL op r ix ind addr) = ind := by
  simp only [iField, formatL, BitVec.getLsbD_append]; simp

theorem lowField_formatL (op : BitVec 6) (r ix : BitVec 2) (ind : Bool) (addr : BitVec 5) :
    lowField (formatL op r ix ind addr) = addr := by
  ext i hi
  simp only [lowField, formatL, BitVec.getElem_extractLsb', BitVec.getLsbD_append]
  interval_cases i <;> simp

/-! ## formatI -/

theorem opcodeField_formatI (op : BitVec 6) (r : BitVec 2) (low : BitVec 5) :
    opcodeField (formatI op r low) = op := by
  ext i hi
  simp only [opcodeField, formatI, BitVec.getElem_extractLsb', BitVec.getLsbD_append]
  interval_cases i <;> simp

theorem rField_formatI (op : BitVec 6) (r : BitVec 2) (low : BitVec 5) :
    rField (formatI op r low) = r := by
  ext i hi
  simp only [rField, formatI, BitVec.getElem_extractLsb', BitVec.getLsbD_append]
  interval_cases i <;> simp

theorem lowField_formatI (op : BitVec 6) (r : BitVec 2) (low : BitVec 5) :
    lowField (formatI op r low) = low := by
  ext i hi
  simp only [lowField, formatI, BitVec.getElem_extractLsb', BitVec.getLsbD_append]
  interval_cases i <;> simp

/-! ## formatRR -/

theorem opcodeField_formatRR (op : BitVec 6) (rx ry : BitVec 2) :
    opcodeField (formatRR op rx ry) = op := by
  ext i hi
  simp only [opcodeField, formatRR, BitVec.getElem_extractLsb', BitVec.getLsbD_append]
  interval_cases i <;> simp

theorem rField_formatRR (op : BitVec 6) (rx ry : BitVec 2) :
    rField (formatRR op rx ry) = rx := by
  ext i hi
  simp only [rField, formatRR, BitVec.getElem_extractLsb', BitVec.getLsbD_append]
  interval_cases i <;> simp

theorem ixField_formatRR (op : BitVec 6) (rx ry : BitVec 2) :
    ixField (formatRR op rx ry) = ry := by
  ext i hi
  simp only [ixField, formatRR, BitVec.getElem_extractLsb', BitVec.getLsbD_append]
  interval_cases i <;> simp

/-! ## formatS -/

theorem opcodeField_formatS (op : BitVec 6) (r : BitVec 2) (al lr : Bool) (count : BitVec 4) :
    opcodeField (formatS op r al lr count) = op := by
  ext i hi
  simp only [opcodeField, formatS, BitVec.getElem_extractLsb', BitVec.getLsbD_append]
  interval_cases i <;> simp

theorem rField_formatS (op : BitVec 6) (r : BitVec 2) (al lr : Bool) (count : BitVec 4) :
    rField (formatS op r al lr count) = r := by
  ext i hi
  simp only [rField, formatS, BitVec.getElem_extractLsb', BitVec.getLsbD_append]
  interval_cases i <;> simp

theorem alField_formatS (op : BitVec 6) (r : BitVec 2) (al lr : Bool) (count : BitVec 4) :
    alField (formatS op r al lr count) = al := by
  simp only [alField, formatS, BitVec.getLsbD_append]; simp

theorem lrField_formatS (op : BitVec 6) (r : BitVec 2) (al lr : Bool) (count : BitVec 4) :
    lrField (formatS op r al lr count) = lr := by
  simp only [lrField, formatS, BitVec.getLsbD_append]; simp

theorem countField_formatS (op : BitVec 6) (r : BitVec 2) (al lr : Bool) (count : BitVec 4) :
    countField (formatS op r al lr count) = count := by
  ext i hi
  simp only [countField, formatS, BitVec.getElem_extractLsb', BitVec.getLsbD_append]
  interval_cases i <;> simp

/-! ## formatN -/

theorem opcodeField_formatN (op : BitVec 6) :
    opcodeField (formatN op) = op := by
  ext i hi
  simp only [opcodeField, formatN, BitVec.getElem_extractLsb', BitVec.getLsbD_append]
  interval_cases i <;> simp

/-! ## Selecting a mnemonic -/

theorem Mnemonic.mem_all (m : Mnemonic) : m ∈ Mnemonic.all := by cases m <;> decide

/-- Under an injective map a mnemonic's own opcode selects it. -/
theorem selectMnemonic_self {map : OpcodeMap} (h : Function.Injective map) (m : Mnemonic) :
    selectMnemonic map (map m) = some m := by
  unfold selectMnemonic
  cases hf : Mnemonic.all.find? fun n => map n == map m with
  | none => simpa using List.find?_eq_none.mp hf m (Mnemonic.mem_all m)
  | some n =>
    have := List.find?_some hf
    have hn : map n = map m := by simpa using this
    rw [h hn]

/-- An opcode that the map gives no mnemonic selects none. -/
theorem selectMnemonic_none {map : OpcodeMap} {op : BitVec 6} (h : ∀ m, map m ≠ op) : selectMnemonic map op = none := by
  unfold selectMnemonic
  rw [List.find?_eq_none]
  intro m _
  simpa using h m

/-- A selected mnemonic has the opcode. -/
theorem selectMnemonic_some {map : OpcodeMap} {op : BitVec 6} {m : Mnemonic} (h : selectMnemonic map op = some m) :
    map m = op := by
  have := List.find?_some h
  simpa using this

theorem courseOpcode_injective : Function.Injective courseOpcode := by
  have self : ∀ m, selectMnemonic courseOpcode (courseOpcode m) = some m := by intro m; cases m <;> rfl
  intro a b h
  simpa [self] using congrArg (selectMnemonic courseOpcode) h

end Sys2Proof
end

