-- ==== Sys2Proof/Laws/Exec.lean ====
section
/-! SUPPORT. What every instruction does to the array and the cache: a chain of data accesses, its stores outside the
protected region. -/

namespace Sys2Proof.Machine

/-- `u` is `s` after reads and writes through the cache, the writes at 6..2047, as far as the array and the cache go. -/
inductive Accesses (s : State) : State → Prop where
  | refl : Accesses s s
  | read {t : State} (a : Address) : Accesses s t → Accesses s (t.memRead a).2
  | write {t : State} (a : Address) (v : Word) : 6 ≤ a.toNat → Accesses s t → Accesses s (t.memWrite a v)
  | other {t u : State} : Accesses s t → u.mem = t.mem → u.cache = t.cache → Accesses s u

theorem Accesses.resolveEA {s t : State} (h : Accesses s t) (ix : BitVec 2) (ind : Bool) (addr : BitVec 5) :
    Accesses s (t.resolveEA ix ind addr).2 := by
  rcases State.resolveEA_cases ix ind addr t with he | ⟨a, _, _, he⟩
  · rw [he]; exact h
  · rw [he]; exact h.read a

/-- Every outcome of `r` is a next state reached by accesses. -/
def OnlyAccesses (s : State) (r : Result) : Prop := ∃ t, r = .next t ∧ Accesses s t

theorem OnlyAccesses.completed {s t : State} (h : Accesses s t) : OnlyAccesses s t.completed := ⟨_, rfl, .other h rfl rfl⟩

theorem OnlyAccesses.raise {s t : State} (h : Accesses s t) (e : Fault) : OnlyAccesses s (t.raise e) :=
  ⟨_, rfl, .other h rfl rfl⟩

theorem OnlyAccesses.refuse {s t : State} (h : Accesses s t) (why : Refusal) : OnlyAccesses s (t.refuse why) :=
  ⟨_, rfl, .other h rfl rfl⟩

theorem OnlyAccesses.withEA {s t : State} (h : Accesses s t) (ix : BitVec 2) (ind : Bool) (addr : BitVec 5)
    {k : Address → State → Result} (hk : ∀ ea u, 6 ≤ ea.toNat → Accesses s u → OnlyAccesses s (k ea u)) :
    OnlyAccesses s (withEA ix ind addr t k) := by
  rcases withEA_cases ix ind addr t k with ⟨ea, hea, he⟩ | ⟨e, _, he⟩
  · rw [he]; exact hk _ _ (State.resolveEA_range hea) (h.resolveEA ..)
  · rw [he]; exact ⟨_, rfl, .other (h.resolveEA ..) rfl rfl⟩

theorem OnlyAccesses.withFloatReg {s t : State} (h : Accesses s t) (r : BitVec 2) {k : FloatReg → Result}
    (hk : ∀ f, OnlyAccesses s (k f)) : OnlyAccesses s (withFloatReg r t k) := by
  rcases withFloatReg_cases r t k with ⟨f, _, he⟩ | ⟨_, he⟩
  · rw [he]; exact hk f
  · rw [he]; exact ⟨_, rfl, .other h rfl rfl⟩

theorem OnlyAccesses.withIndexReg {s t : State} (h : Accesses s t) (ix : BitVec 2) {k : IndexReg → Result}
    (hk : ∀ x, OnlyAccesses s (k x)) : OnlyAccesses s (withIndexReg ix t k) := by
  rcases withIndexReg_cases ix t k with ⟨f, _, he⟩ | ⟨_, he⟩
  · rw [he]; exact hk f
  · rw [he]; exact ⟨_, rfl, .other h rfl rfl⟩

theorem OnlyAccesses.withPairs {s t : State} (h : Accesses s t) (rx ry : BitVec 2) {k : Result}
    (hk : OnlyAccesses s k) : OnlyAccesses s (withPairs rx ry t k) := by
  rcases withPairs_cases rx ry t k with ⟨_, he⟩ | ⟨_, he⟩
  · rw [he]; exact hk
  · rw [he]; exact ⟨_, rfl, .other h rfl rfl⟩

theorem OnlyAccesses.vectorLoop {s t : State} (h : Accesses s t) (op : Word → Word → Except Refusal Word) (p1 p2 n i : Nat) :
    OnlyAccesses s (vectorLoop op p1 p2 n i t) := by
  induction n generalizing i t with
  | zero => exact .completed h
  | succ n ih =>
    unfold Machine.vectorLoop
    cases h1 : checkAddr (p1 + i) with
    | error e => exact .raise h e
    | ok a1 =>
      cases h2 : checkAddr (p2 + i) with
      | error e => exact .raise h e
      | ok a2 =>
        obtain ⟨hl, _, ha⟩ := checkAddr_ok.mp h1
        dsimp only
        cases op (t.memRead a1).1 ((t.memRead a1).2.memRead a2).1 with
        | error why => exact .refuse ((h.read a1).read a2) why
        | ok v => exact ih (.write a1 v (by omega) ((h.read a1).read a2)) (i + 1)

/-- Every instruction answers a next state, and what it did to the array and the cache is a chain of accesses. -/
theorem exec_onlyAccesses (i : Instr) (s : State) : OnlyAccesses s (exec i s) := by
  have h : Accesses s s := .refl
  cases i with
  | hlt => exact .completed (.other h rfl rfl)
  | ldr r ix ind addr => exact .withEA h _ _ _ fun ea u _ hu => .completed (.other (hu.read ea) rfl rfl)
  | str r ix ind addr => exact .withEA h _ _ _ fun ea u h6 hu => .completed (hu.write ea _ h6)
  | lda r ix ind addr => exact .withEA h _ _ _ fun ea u _ hu => .completed (.other hu rfl rfl)
  | amr r ix ind addr => exact .withEA h _ _ _ fun ea u _ hu => .completed (.other (hu.read ea) rfl rfl)
  | smr r ix ind addr => exact .withEA h _ _ _ fun ea u _ hu => .completed (.other (hu.read ea) rfl rfl)
  | air r immed =>
    simp only [exec, execAir]; split
    · exact .completed h
    · exact .completed (.other h rfl rfl)
  | sir r immed =>
    simp only [exec, execSir]; split
    · exact .completed h
    · exact .completed (.other h rfl rfl)
  | jz r ix ind addr => exact .withEA h _ _ _ fun ea u _ hu => .completed (.other hu rfl rfl)
  | jne r ix ind addr => exact .withEA h _ _ _ fun ea u _ hu => .completed (.other hu rfl rfl)
  | jcc r ix ind addr => exact .withEA h _ _ _ fun ea u _ hu => .completed (.other hu rfl rfl)
  | jma ix ind addr => exact .withEA h _ _ _ fun ea u _ hu => .completed (.other hu rfl rfl)
  | jsr ix ind addr => exact .withEA h _ _ _ fun ea u _ hu => .completed (.other hu rfl rfl)
  | rfs immed =>
    simp only [exec, execRfs]; split
    · exact .raise h _
    · exact .completed (.other h rfl rfl)
  | sob r ix ind addr => exact .withEA h _ _ _ fun ea u _ hu => .completed (.other hu rfl rfl)
  | jge r ix ind addr => exact .withEA h _ _ _ fun ea u _ hu => .completed (.other hu rfl rfl)
  | mlt rx ry => exact .withPairs h _ _ (.completed (.other h rfl rfl))
  | dvd rx ry =>
    refine .withPairs h _ _ ?_
    split
    · exact .raise (Accesses.other (u := s.setDivZero) h rfl rfl) _
    · exact .completed (.other h rfl rfl)
  | trr rx ry => exact .completed (.other h rfl rfl)
  | and rx ry => exact .completed (.other h rfl rfl)
  | orr rx ry => exact .completed (.other h rfl rfl)
  | not rx => exact .completed (.other h rfl rfl)
  | src r al lr count =>
    simp only [exec, execSrc, shiftRegister]; split
    · exact .completed h
    · split
      · exact .refuse h _
      · exact .completed (.other h rfl rfl)
  | rrc r al lr count =>
    simp only [exec, execRrc, rotateRegister]; split
    · exact .completed h
    · split
      · exact .completed (.other h rfl rfl)
      · exact .completed (.other h rfl rfl)
  | fadd r ix ind addr =>
    refine .withFloatReg h _ fun f => .withEA h _ _ _ fun ea u _ hu => ?_
    dsimp only; split
    · exact .completed (.other (hu.read ea) (by simp) (by simp))
    · exact .refuse (hu.read ea) _
  | fsub r ix ind addr =>
    refine .withFloatReg h _ fun f => .withEA h _ _ _ fun ea u _ hu => ?_
    dsimp only; split
    · exact .completed (.other (hu.read ea) (by simp) (by simp))
    · exact .refuse (hu.read ea) _
  | vadd r ix ind addr =>
    refine .withFloatReg h _ fun f => .withEA h _ _ _ fun ea u _ hu => ?_
    split
    · exact .raise hu _
    · dsimp only; split
      · exact .refuse ((hu.read _).read _) _
      · exact .vectorLoop ((hu.read _).read _) ..
  | vsub r ix ind addr =>
    refine .withFloatReg h _ fun f => .withEA h _ _ _ fun ea u _ hu => ?_
    split
    · exact .raise hu _
    · dsimp only; split
      · exact .refuse ((hu.read _).read _) _
      · exact .vectorLoop ((hu.read _).read _) ..
  | cnvrt r ix ind addr =>
    refine .withEA h _ _ _ fun ea u _ hu => ?_
    dsimp only; split
    · exact .completed (.other (hu.read ea) rfl rfl)
    · exact .completed (.other (hu.read ea) rfl rfl)
  | ldx ix ind addr =>
    exact .withIndexReg h _ fun x => .withEA h _ _ _ fun ea u _ hu => .completed (.other (hu.read ea) (by simp) (by simp))
  | stx ix ind addr =>
    exact .withIndexReg h _ fun x => .withEA h _ _ _ fun ea u h6 hu => .completed (hu.write ea _ h6)
  | ldfr r ix ind addr =>
    exact .withFloatReg h _ fun f => .withEA h _ _ _ fun ea u _ hu => .completed (.other (hu.read ea) (by simp) (by simp))
  | stfr r ix ind addr =>
    exact .withFloatReg h _ fun f => .withEA h _ _ _ fun ea u h6 hu => .completed (hu.write ea _ h6)
  | inp r devid =>
    simp only [exec, execInp]; split
    · exact .refuse h _
    · split
      · exact .refuse h _
      · exact .completed (.other h rfl rfl)
  | out r devid =>
    simp only [exec, execOut]; split
    · exact .refuse h _
    · exact .completed (.other h rfl rfl)

/-- Accesses keep the cache invariants and the memory's canonical form. -/
theorem Accesses.keeps {s t : State} (h : Accesses s t) (hc : s.CacheInv) (hw : s.mem.wf = true) :
    t.CacheInv ∧ t.mem.wf = true := by
  induction h with
  | refl => exact ⟨hc, hw⟩
  | read a _ ih => exact ⟨State.memRead_cacheInv ih.1 a, by simpa using ih.2⟩
  | write a v _ _ ih => exact ⟨State.memWrite_cacheInv ih.1 ih.2 a v, State.memWrite_wf ih.2 a v⟩
  | other _ h1 h2 ih => exact ⟨(State.cacheInv_congr h1 h2).mpr ih.1, by rw [h1]; exact ih.2⟩

end Sys2Proof.Machine
end

