-- ==== Sys2Proof/Machine/Observer.lean ====
section
/-! DEFINITION. The observer port (spec/00_scope.md R8): the kinds of event a command emits. Payloads and texts
are not in the source; a kind is taken as emitted when a part of the state it reports differs (log 21). -/

namespace Sys2Proof.Machine

/-- The event kinds (R8). -/
inductive EventKind where
  | registerChanged
  | latchesChanged
  | conditionCodesChanged
  | cacheSummaryChanged
  | predictorStatsChanged
  | statusMessage
deriving DecidableEq, Repr

/-- A kind, if its condition holds. -/
def eventIf (cond : Bool) (k : EventKind) : List EventKind := if cond then [k] else []

/-- The kinds emitted by a command that took `s` to `t`, in the order R8 lists them; every change of state is seen
(60_exceptions.md R186, R189; `eventsBetween_eq_nil_iff`). DESIGN CHOICE (log 21), for R8 names no kind for these
parts: Carry is reported as a register, and memory, run state, PendingInput, icount, faults, the refusal mark and the
status messages of OUT and inert words are reported by a status message. So a Reset that changes one of the latter
parts, even by emptying a list, emits a status message, on which the spec is silent. -/
def eventsBetween (s t : State) : List EventKind :=
  eventIf (decide (t.gprs ≠ s.gprs ∨ t.ixrs ≠ s.ixrs ∨ t.frs ≠ s.frs ∨ t.carry ≠ s.carry)) .registerChanged
    ++ eventIf (decide (t.pc ≠ s.pc ∨ t.ir ≠ s.ir ∨ t.mar ≠ s.mar ∨ t.mbr ≠ s.mbr)) .latchesChanged
    ++ eventIf (decide (t.cc ≠ s.cc)) .conditionCodesChanged
    ++ eventIf (decide (t.cache ≠ s.cache)) .cacheSummaryChanged
    ++ eventIf (decide (t.bht ≠ s.bht ∨ t.predictions ≠ s.predictions ∨ t.correct ≠ s.correct)) .predictorStatsChanged
    ++ eventIf (decide (t.mem ≠ s.mem ∨ t.runState ≠ s.runState ∨ t.pending ≠ s.pending ∨ t.icount ≠ s.icount ∨
        t.faults ≠ s.faults ∨ t.refused ≠ s.refused ∨ t.status ≠ s.status)) .statusMessage

/-- The kinds a command emits; a rejected command changes nothing and emits none. -/
def commandEvents (c : Command) (s : State) : List EventKind :=
  match command c s with
  | .ran (.next t) => eventsBetween s t
  | .ran (.fault _) => []
  | .ran (.refused _) => []
  | .rejected _ => []

end Sys2Proof.Machine
end

