-- ==== Sys2Proof/Laws/Observer.lean ====
section
/-! SUPPORT. The observer port sees every change of state (60_exceptions.md R189). -/

namespace Sys2Proof.Machine

/-- A kind is absent exactly when its condition fails. -/
theorem eventIf_eq_nil_iff (cond : Bool) (k : EventKind) : eventIf cond k = [] ↔ cond = false := by
  cases cond <;> simp [eventIf]

/-- No event is emitted exactly when nothing changed: every part of the state is reported by some kind. -/
theorem eventsBetween_eq_nil_iff (s t : State) : eventsBetween s t = [] ↔ t = s := by
  cases s; cases t
  simp only [eventsBetween, List.append_eq_nil_iff, eventIf_eq_nil_iff, decide_eq_false_iff_not, not_or, not_not,
    State.mk.injEq]
  tauto

/-- A change of any part of the state is seen. -/
theorem eventsBetween_ne_nil {s t : State} {α : Type} (part : State → α) (h : part t ≠ part s) :
    eventsBetween s t ≠ [] :=
  fun e => h (congrArg part ((eventsBetween_eq_nil_iff s t).mp e))

end Sys2Proof.Machine
end

