-- ==== Sys2Proof/Laws/PerInstr.lean ====
section
/-! SUPPORT. Statements made for every instruction, one lemma per constructor of `Instr`. -/

/-- The encoded word of an instruction holds its mnemonic's opcode in bits [15:10] (spec/30_encoding.md R77, R98). -/
def Sys2Proof.Laws.OpcodeField.Statement (i : Sys2Proof.Instr) : Prop :=
  Sys2Proof.opcodeField (Sys2Proof.encode i) = Sys2Proof.courseOpcode i.mnemonic

namespace Sys2Proof.Laws

theorem OpcodeField.hlt : OpcodeField.Statement .hlt :=
  opcodeField_formatN ..

theorem OpcodeField.ldr (r ix : BitVec 2) (ind : Bool) (addr : BitVec 5) : OpcodeField.Statement (.ldr r ix ind addr) :=
  opcodeField_formatL ..

theorem OpcodeField.str (r ix : BitVec 2) (ind : Bool) (addr : BitVec 5) : OpcodeField.Statement (.str r ix ind addr) :=
  opcodeField_formatL ..

theorem OpcodeField.lda (r ix : BitVec 2) (ind : Bool) (addr : BitVec 5) : OpcodeField.Statement (.lda r ix ind addr) :=
  opcodeField_formatL ..

theorem OpcodeField.amr (r ix : BitVec 2) (ind : Bool) (addr : BitVec 5) : OpcodeField.Statement (.amr r ix ind addr) :=
  opcodeField_formatL ..

theorem OpcodeField.smr (r ix : BitVec 2) (ind : Bool) (addr : BitVec 5) : OpcodeField.Statement (.smr r ix ind addr) :=
  opcodeField_formatL ..

theorem OpcodeField.air (r : BitVec 2) (immed : BitVec 5) : OpcodeField.Statement (.air r immed) :=
  opcodeField_formatI ..

theorem OpcodeField.sir (r : BitVec 2) (immed : BitVec 5) : OpcodeField.Statement (.sir r immed) :=
  opcodeField_formatI ..

theorem OpcodeField.jz (r ix : BitVec 2) (ind : Bool) (addr : BitVec 5) : OpcodeField.Statement (.jz r ix ind addr) :=
  opcodeField_formatL ..

theorem OpcodeField.jne (r ix : BitVec 2) (ind : Bool) (addr : BitVec 5) : OpcodeField.Statement (.jne r ix ind addr) :=
  opcodeField_formatL ..

theorem OpcodeField.jcc (cc ix : BitVec 2) (ind : Bool) (addr : BitVec 5) : OpcodeField.Statement (.jcc cc ix ind addr) :=
  opcodeField_formatL ..

theorem OpcodeField.jma (ix : BitVec 2) (ind : Bool) (addr : BitVec 5) : OpcodeField.Statement (.jma ix ind addr) :=
  opcodeField_formatL ..

theorem OpcodeField.jsr (ix : BitVec 2) (ind : Bool) (addr : BitVec 5) : OpcodeField.Statement (.jsr ix ind addr) :=
  opcodeField_formatL ..

theorem OpcodeField.rfs (immed : BitVec 5) : OpcodeField.Statement (.rfs immed) :=
  opcodeField_formatI ..

theorem OpcodeField.sob (r ix : BitVec 2) (ind : Bool) (addr : BitVec 5) : OpcodeField.Statement (.sob r ix ind addr) :=
  opcodeField_formatL ..

theorem OpcodeField.jge (r ix : BitVec 2) (ind : Bool) (addr : BitVec 5) : OpcodeField.Statement (.jge r ix ind addr) :=
  opcodeField_formatL ..

theorem OpcodeField.mlt (rx ry : BitVec 2) : OpcodeField.Statement (.mlt rx ry) :=
  opcodeField_formatRR ..

theorem OpcodeField.dvd (rx ry : BitVec 2) : OpcodeField.Statement (.dvd rx ry) :=
  opcodeField_formatRR ..

theorem OpcodeField.trr (rx ry : BitVec 2) : OpcodeField.Statement (.trr rx ry) :=
  opcodeField_formatRR ..

theorem OpcodeField.and (rx ry : BitVec 2) : OpcodeField.Statement (.and rx ry) :=
  opcodeField_formatRR ..

theorem OpcodeField.orr (rx ry : BitVec 2) : OpcodeField.Statement (.orr rx ry) :=
  opcodeField_formatRR ..

theorem OpcodeField.not (rx : BitVec 2) : OpcodeField.Statement (.not rx) :=
  opcodeField_formatRR ..

theorem OpcodeField.src (r : BitVec 2) (al lr : Bool) (count : BitVec 4) : OpcodeField.Statement (.src r al lr count) :=
  opcodeField_formatS ..

theorem OpcodeField.rrc (r : BitVec 2) (al lr : Bool) (count : BitVec 4) : OpcodeField.Statement (.rrc r al lr count) :=
  opcodeField_formatS ..

theorem OpcodeField.fadd (r ix : BitVec 2) (ind : Bool) (addr : BitVec 5) : OpcodeField.Statement (.fadd r ix ind addr) :=
  opcodeField_formatL ..

theorem OpcodeField.fsub (r ix : BitVec 2) (ind : Bool) (addr : BitVec 5) : OpcodeField.Statement (.fsub r ix ind addr) :=
  opcodeField_formatL ..

theorem OpcodeField.vadd (r ix : BitVec 2) (ind : Bool) (addr : BitVec 5) : OpcodeField.Statement (.vadd r ix ind addr) :=
  opcodeField_formatL ..

theorem OpcodeField.vsub (r ix : BitVec 2) (ind : Bool) (addr : BitVec 5) : OpcodeField.Statement (.vsub r ix ind addr) :=
  opcodeField_formatL ..

theorem OpcodeField.cnvrt (r ix : BitVec 2) (ind : Bool) (addr : BitVec 5) : OpcodeField.Statement (.cnvrt r ix ind addr) :=
  opcodeField_formatL ..

theorem OpcodeField.ldx (ix : BitVec 2) (ind : Bool) (addr : BitVec 5) : OpcodeField.Statement (.ldx ix ind addr) :=
  opcodeField_formatL ..

theorem OpcodeField.stx (ix : BitVec 2) (ind : Bool) (addr : BitVec 5) : OpcodeField.Statement (.stx ix ind addr) :=
  opcodeField_formatL ..

theorem OpcodeField.ldfr (r ix : BitVec 2) (ind : Bool) (addr : BitVec 5) : OpcodeField.Statement (.ldfr r ix ind addr) :=
  opcodeField_formatL ..

theorem OpcodeField.stfr (r ix : BitVec 2) (ind : Bool) (addr : BitVec 5) : OpcodeField.Statement (.stfr r ix ind addr) :=
  opcodeField_formatL ..

theorem OpcodeField.inp (r : BitVec 2) (devid : BitVec 5) : OpcodeField.Statement (.inp r devid) :=
  opcodeField_formatI ..

theorem OpcodeField.out (r : BitVec 2) (devid : BitVec 5) : OpcodeField.Statement (.out r devid) :=
  opcodeField_formatI ..

end Sys2Proof.Laws
end

