-- ==== Sys2Proof/Machine/Text.lean ====
section
/-! DEFINITION. The two texts the host hands over: the console line (spec/47_io_control.md R169) and the load
file (spec/20_memory.md R48). Texts are lists of characters; which characters are white space is log 22. -/

namespace Sys2Proof.Machine

/-! ## Tokens -/

/-- The maximal runs of characters that are not separators; `acc` is the current run, reversed. -/
def tokensFrom (sep : Char → Bool) : List Char → List Char → List (List Char)
  | acc, [] => if acc.isEmpty then [] else [acc.reverse]
  | acc, c :: cs =>
    if sep c then (if acc.isEmpty then tokensFrom sep [] cs else acc.reverse :: tokensFrom sep [] cs)
    else tokensFrom sep (c :: acc) cs

/-- The tokens of a text, empty ones dropped. -/
def tokens (sep : Char → Bool) (text : List Char) : List (List Char) := tokensFrom sep [] text

/-- White space (log 22). -/
def isBlank (c : Char) : Bool := c == ' ' || c == '\t' || c == '\n' || c == '\r'

/-- The value of an ASCII digit below `base` (log 22). -/
def digitValue (base : Nat) (c : Char) : Option Nat :=
  if 48 ≤ c.toNat ∧ c.toNat < 48 + base then some (c.toNat - 48) else none

/-- The number of digits read onto `n`. -/
def readDigits (base : Nat) : Nat → List Char → Option Nat
  | n, [] => some n
  | n, c :: cs =>
    match digitValue base c with
    | some d => readDigits base (n * base + d) cs
    | none => none

/-- One or more digits. -/
def readNumber (base : Nat) (cs : List Char) : Option Nat := if cs.isEmpty then none else readDigits base 0 cs

/-! ## Console line (47_io_control.md R169) -/

/-- An optional sign and one or more decimal digits. -/
def readSigned (cs : List Char) : Option Int :=
  match cs with
  | '-' :: ds => (readNumber 10 ds).map fun n => -(n : Int)
  | '+' :: ds => (readNumber 10 ds).map fun n => (n : Int)
  | ds => (readNumber 10 ds).map fun n => (n : Int)

/-- A token's value, in -32768..32767. -/
def readValue (cs : List Char) : Option Int :=
  match readSigned cs with
  | some v => if -32768 ≤ v ∧ v ≤ 32767 then some v else none
  | none => none

/-- The values of a line, or none if a token is malformed. -/
def readValues : List (List Char) → Option (List Int)
  | [] => some []
  | t :: ts =>
    match readValue t, readValues ts with
    | some v, some vs => some (v :: vs)
    | _, _ => none

/-- `submit-console-input(text)`: a malformed text is rejected before `ConsoleSubmit` (R169). -/
def submitConsoleText (text : List Char) (s : State) : Reply :=
  match readValues (tokens (fun c => isBlank c || c == ',') text) with
  | some values => command (.consoleSubmit values) s
  | none => .rejected .malformedConsoleInput

/-! ## Load file (20_memory.md R48) -/

/-- A line without its trailing comment, introduced by ';', '#' or two slashes. -/
def stripComment : List Char → List Char
  | [] => []
  | ';' :: _ => []
  | '#' :: _ => []
  | '/' :: '/' :: _ => []
  | c :: cs => c :: stripComment cs

/-- What a line asks for: nothing, one `LoadWord`, or it is malformed. -/
inductive LoadLine where
  | skip
  | load (a w : Nat)
  | malformed
deriving DecidableEq, Repr

/-- One line: two tokens of octal digits, or empty after its comment is removed (R48). DESIGN CHOICE (log 28): a line of one
token, or of more than two, is malformed however its tokens read. -/
def readLoadLine (line : List Char) : LoadLine :=
  match tokens isBlank (stripComment line) with
  | [] => .skip
  | [a, w] =>
    match readNumber 8 a, readNumber 8 w with
    | some a, some w => .load a w
    | _, _ => .malformed
  | _ => .malformed

/-- The state after a load, and the number of the line it stopped at, if it stopped (R48; numbered as log 27 says). -/
structure LoadReport where
  state : State
  badLine : Option Nat
deriving DecidableEq, Repr

/-- The rejection of a load that stopped at a bad line (R48; 60_exceptions.md R176, R177). -/
def LoadReport.rejection (r : LoadReport) : Option Rejection := r.badLine.map fun _ => .malformedLoadFile

/-- `load-from-rom`, its lines from number `n` on: the first bad line ends the load, and the lines before it
stay written (R48). DESIGN CHOICE (log 27): a skipped line takes a number like any other. -/
def loadLines : Nat → List (List Char) → State → LoadReport
  | _, [], s => { state := s, badLine := none }
  | n, line :: rest, s =>
    match readLoadLine line with
    | .skip => loadLines (n + 1) rest s
    | .malformed => { state := s, badLine := some n }
    | .load a w =>
      match command (.loadWord a w) s with
      | .ran (.next t) => loadLines (n + 1) rest t
      | _ => { state := s, badLine := some n }

/-- A load file given as its lines (R48). DESIGN CHOICE (log 27): R48 asks for a line-numbered error without saying how
lines are numbered, and the model gives the first line the number 1. -/
def loadFile (lines : List (List Char)) (s : State) : LoadReport := loadLines 1 lines s

end Sys2Proof.Machine
end

