-- ==== Sys2Proof/Tests/Slice0.lean ====
section
/-! SUPPORT. Tests of the model: ill-formed instructions refused by WellFormed, a word of every instruction written out bit
by bit from spec/opcode_table.json, single steps with the results of spec/95_test_vectors.md, and for every statement of
Certificates/Slice0/Obligations.lean with hypotheses a witness that meets them. -/

namespace Sys2Proof.Tests

open Sys2Proof Sys2Proof.Machine

/-! ## WellFormed: one ill-formed term for each check of 30_encoding.md R94 -/

theorem test_mlt_odd_rx_ill_formed : WellFormed (.mlt 1 2) = false := by decide
theorem test_mlt_odd_ry_ill_formed : WellFormed (.mlt 0 3) = false := by decide
theorem test_dvd_odd_rx_ill_formed : WellFormed (.dvd 3 0) = false := by decide
theorem test_dvd_odd_ry_ill_formed : WellFormed (.dvd 2 1) = false := by decide
theorem test_fadd_selector_ill_formed : WellFormed (.fadd 2 0 false 20) = false := by decide
theorem test_fsub_selector_ill_formed : WellFormed (.fsub 2 0 false 20) = false := by decide
theorem test_vadd_selector_ill_formed : WellFormed (.vadd 2 0 false 20) = false := by decide
theorem test_vsub_selector_ill_formed : WellFormed (.vsub 2 0 false 20) = false := by decide
theorem test_ldfr_selector_ill_formed : WellFormed (.ldfr 2 0 false 20) = false := by decide
theorem test_stfr_selector_ill_formed : WellFormed (.stfr 2 0 false 20) = false := by decide
theorem test_ldx_zero_ill_formed : WellFormed (.ldx 0 false 10) = false := by decide
theorem test_stx_zero_ill_formed : WellFormed (.stx 0 true 10) = false := by decide
theorem test_in_device_ill_formed : WellFormed (.inp 0 1) = false := by decide
theorem test_out_device_ill_formed : WellFormed (.out 0 0) = false := by decide

/-! ## Decoding: a word of every row of spec/opcode_table.json, its ignored bits 1 -/

theorem test_decode_hlt : decode 0b0000001111111111 = .instr .hlt := by decide
theorem test_decode_ldr : decode 0b0000011001101101 = .instr (.ldr 2 1 true 13) := by decide
theorem test_decode_str : decode 0b0000101001101101 = .instr (.str 2 1 true 13) := by decide
theorem test_decode_lda : decode 0b0000111001101101 = .instr (.lda 2 1 true 13) := by decide
theorem test_decode_amr : decode 0b0001001001101101 = .instr (.amr 2 1 true 13) := by decide
theorem test_decode_smr : decode 0b0001011001101101 = .instr (.smr 2 1 true 13) := by decide
theorem test_decode_air : decode 0b0001101011110110 = .instr (.air 2 22) := by decide
theorem test_decode_sir : decode 0b0001111011110110 = .instr (.sir 2 22) := by decide
theorem test_decode_jz : decode 0b0010001001101101 = .instr (.jz 2 1 true 13) := by decide
theorem test_decode_jne : decode 0b0010011001101101 = .instr (.jne 2 1 true 13) := by decide
theorem test_decode_jcc : decode 0b0010100101101101 = .instr (.jcc 1 1 true 13) := by decide
theorem test_decode_jma : decode 0b0010111101101101 = .instr (.jma 1 true 13) := by decide
theorem test_decode_jsr : decode 0b0011001101101101 = .instr (.jsr 1 true 13) := by decide
theorem test_decode_rfs : decode 0b0011011111110110 = .instr (.rfs 22) := by decide
theorem test_decode_sob : decode 0b0011101001101101 = .instr (.sob 2 1 true 13) := by decide
theorem test_decode_jge : decode 0b0011111001101101 = .instr (.jge 2 1 true 13) := by decide
theorem test_decode_mlt : decode 0b0100001000111111 = .instr (.mlt 2 0) := by decide
theorem test_decode_dvd : decode 0b0100010010111111 = .instr (.dvd 0 2) := by decide
theorem test_decode_trr : decode 0b0100101011111111 = .instr (.trr 2 3) := by decide
theorem test_decode_and : decode 0b0100111011111111 = .instr (.and 2 3) := by decide
theorem test_decode_orr : decode 0b0101001011111111 = .instr (.orr 2 3) := by decide
theorem test_decode_not : decode 0b0101011011111111 = .instr (.not 2) := by decide
theorem test_decode_src : decode 0b0110011010111011 = .instr (.src 2 true false 11) := by decide
theorem test_decode_rrc : decode 0b0110101001111011 = .instr (.rrc 2 false true 11) := by decide
theorem test_decode_fadd : decode 0b0110111001101101 = .instr (.fadd 2 1 true 13) := by decide
theorem test_decode_fsub : decode 0b0111001001101101 = .instr (.fsub 2 1 true 13) := by decide
theorem test_decode_vadd : decode 0b0111011001101101 = .instr (.vadd 2 1 true 13) := by decide
theorem test_decode_vsub : decode 0b0111101001101101 = .instr (.vsub 2 1 true 13) := by decide
theorem test_decode_cnvrt : decode 0b0111111001101101 = .instr (.cnvrt 2 1 true 13) := by decide
theorem test_decode_ldx : decode 0b1000011101101101 = .instr (.ldx 1 true 13) := by decide
theorem test_decode_stx : decode 0b1000101101101101 = .instr (.stx 1 true 13) := by decide
theorem test_decode_ldfr : decode 0b1010001001101101 = .instr (.ldfr 2 1 true 13) := by decide
theorem test_decode_stfr : decode 0b1010011001101101 = .instr (.stfr 2 1 true 13) := by decide
theorem test_decode_inp : decode 0b1100011011110010 = .instr (.inp 2 18) := by decide
theorem test_decode_out : decode 0b1100101011100001 = .instr (.out 2 1) := by decide

/-- An opcode of no row is inert (30_encoding.md R93). -/
theorem test_decode_inert : decode 0b0101101111111111 = .inert 0b010110 := by decide

/-- The host's numbering of a table row's bits (one 16-bit word). -/
theorem test_decodeTableWord : decodeTableWord 16 0x050A = some (.ldr 1 0 false 10) := by decide

/-! ## One step of one word at address 16 (spec/95_test_vectors.md) -/

/-- The state one `Step` leaves that runs word `w` at 16, from Reset with the memory `mem` and the changes `f`. -/
def runAt (w : Word) (mem : Memory) (f : State → State) : State :=
  match step (State.withFetchWord (f { State.reset with mem := mem, pc := some 16 }) 16 w.toNat) with
  | .next t => t
  | .fault _ => State.powerOn
  | .refused _ => State.powerOn

/-- Vector T1. -/
theorem test_ldr_T1 :
    (runAt 0x050A [(10, 0x1234)] id).gpr 1 = 0x1234 := by decide

/-- Vector T9. -/
theorem test_ldr_indirect_T9 :
    (runAt 0x0432 [(18, 2148), (100, 0x0055)] id).gpr 0 = 0x0055 := by decide

/-- Vector T2. -/
theorem test_str_T2 :
    (runAt 0x0A14 [] (fun s => s.setGpr 2 0xBEEF)).mem.read 20 = 0xBEEF := by decide

/-- Vector T3. -/
theorem test_lda_T3 :
    (runAt 0x0C47 [] (fun s => s.setIxr .x1 100)).gpr 0 = 107 := by decide

/-- Vector T4. -/
theorem test_ldx_T4 :
    (runAt 0x848C [(12, 40)] id).ixrs.x2 = 40 := by decide

/-- Vector T5. -/
theorem test_stx_T5 :
    (runAt 0x884A [] (fun s => s.setIxr .x1 40)).mem.read 50 = 40 := by decide

/-- Vector T6. -/
theorem test_ldr_protected_T6 :
    (runAt 0x0403 [] id).faults = [⟨.illegalReservedAccess, some 16, some 0x0403⟩] ∧
      (runAt 0x0403 [] id).runState = .halted ∧
      (runAt 0x0403 [] id).pc = some 17 ∧
      (runAt 0x0403 [] id).icount = 0 := by decide

/-- Vector T7. -/
theorem test_ldr_above_2047_T7 :
    (runAt 0x044A [] (fun s => s.setIxr .x1 2040)).faults = [⟨.addressOutOfRange, some 16, some 0x044A⟩] := by decide

/-- Vector A1. -/
theorem test_amr_A1 :
    (runAt 0x1014 [(20, 1)] (fun s => s.setGpr 0 0x7FFF)).gpr 0 = 0x8000 ∧
      (runAt 0x1014 [(20, 1)] (fun s => s.setGpr 0 0x7FFF)).cc.overflow = true := by decide

/-- Vector A3. -/
theorem test_amr_A3 :
    (runAt 0x1014 [(20, 1)] (fun s => s.setGpr 0 0xFFFF)).gpr 0 = 0 ∧
      (runAt 0x1014 [(20, 1)] (fun s => s.setGpr 0 0xFFFF)).cc.overflow = false := by decide

/-- Vector A6. -/
theorem test_smr_A6 :
    (runAt 0x1414 [(20, 1)] (fun s => s.setGpr 0 0x8000)).gpr 0 = 0x7FFF ∧
      (runAt 0x1414 [(20, 1)] (fun s => s.setGpr 0 0x8000)).cc.underflow = true := by decide

/-- Vector A8. -/
theorem test_smr_A8 :
    (runAt 0x1414 [(20, 1)] id).gpr 0 = 0xFFFF ∧
      (runAt 0x1414 [(20, 1)] id).cc.underflow = false := by decide

/-- Vector A10. -/
theorem test_air_A10 :
    (runAt 0x1801 [] (fun s => s.setGpr 0 0x7FFF)).gpr 0 = 0x8000 ∧
      (runAt 0x1801 [] (fun s => s.setGpr 0 0x7FFF)).cc.overflow = false := by decide

/-- Vector A12. -/
theorem test_sir_A12 :
    (runAt 0x1E06 [] (fun s => s.setGpr 2 0x8005)).gpr 2 = 0x7FFF ∧
      (runAt 0x1E06 [] (fun s => s.setGpr 2 0x8005)).cc.underflow = true := by decide

/-- Vector A13. -/
theorem test_sir_A13 :
    (runAt 0x1C01 [] id).gpr 0 = 0xFFFF ∧
      (runAt 0x1C01 [] id).cc.underflow = false := by decide

/-- Vector B1. -/
theorem test_jz_B1 :
    (runAt 0x2114 [] id).pc = some 20 ∧
      (runAt 0x2114 [] id).correct = 0 ∧
      (runAt 0x2114 [] id).counter 16 = 2 := by decide

/-- Vector B2. -/
theorem test_jz_not_taken_B2 :
    (runAt 0x2114 [] (fun s => s.setGpr 1 5)).pc = some 17 ∧
      (runAt 0x2114 [] (fun s => s.setGpr 1 5)).correct = 1 ∧
      (runAt 0x2114 [] (fun s => s.setGpr 1 5)).counter 16 = 0 := by decide

/-- Vector B3. -/
theorem test_jne_B3 :
    (runAt 0x241E [] (fun s => s.setGpr 0 0xFFFF)).pc = some 30 := by decide

/-- Vector B4 (at 16 here). -/
theorem test_jcc_B4 :
    (runAt 0x2B17 [] (fun s => s.assignEqual true)).pc = some 23 := by decide

/-- Vector B5 (at 16 here). -/
theorem test_jcc_B5 :
    (runAt 0x2B17 [] id).pc = some 17 := by decide

/-- Vector B6. -/
theorem test_jma_B6 :
    (runAt 0x2C19 [] id).pc = some 25 := by decide

/-- Vector B7 (at 16 here). -/
theorem test_jsr_B7 :
    (runAt 0x3018 [] id).pc = some 24 ∧
      (runAt 0x3018 [] id).gpr 3 = 17 := by decide

/-- Vector B8 (at 16 here). -/
theorem test_rfs_B8 :
    (runAt 0x3400 [] (fun s => (s.setGpr 3 18).setGpr 0 7)).pc = some 18 ∧
      (runAt 0x3400 [] (fun s => (s.setGpr 3 18).setGpr 0 7)).gpr 0 = 0 := by decide

/-- Vector B9 (at 16 here). -/
theorem test_rfs_B9 :
    (runAt 0x3405 [] (fun s => (s.setGpr 3 3000).setGpr 0 7)).faults = [⟨.addressOutOfRange, some 16, some 0x3405⟩] ∧
      (runAt 0x3405 [] (fun s => (s.setGpr 3 3000).setGpr 0 7)).gpr 0 = 7 := by decide

/-- Vector B12. -/
theorem test_sob_B12 :
    (runAt 0x381E [] id).pc = some 17 ∧
      (runAt 0x381E [] id).gpr 0 = 0xFFFF := by decide

/-- Vector B13. -/
theorem test_sob_B13 :
    (runAt 0x381E [] (fun s => s.setGpr 0 0x8000)).pc = some 30 ∧
      (runAt 0x381E [] (fun s => s.setGpr 0 0x8000)).gpr 0 = 0x7FFF := by decide

/-- Vector B14. -/
theorem test_jge_B14 :
    (runAt 0x3E1E [] (fun s => s.setGpr 2 0xFFFE)).pc = some 17 := by decide

/-- Vector B15. -/
theorem test_jge_B15 :
    (runAt 0x3E1E [] id).pc = some 30 := by decide

/-- Vector M1. -/
theorem test_mlt_M1 :
    (runAt 0x4080 [] (fun s => (s.setGpr 0 300).setGpr 2 40)).gpr 0 = 0 ∧
      (runAt 0x4080 [] (fun s => (s.setGpr 0 300).setGpr 2 40)).gpr 1 = 0x2EE0 := by decide

/-- Vector M3. -/
theorem test_mlt_M3 :
    (runAt 0x4080 [] (fun s => (s.setGpr 0 0x8000).setGpr 2 0x8000)).gpr 0 = 0x4000 ∧
      (runAt 0x4080 [] (fun s => (s.setGpr 0 0x8000).setGpr 2 0x8000)).gpr 1 = 0 := by decide

/-- Vector D2. -/
theorem test_dvd_D2 :
    (runAt 0x4480 [] (fun s => (s.setGpr 0 0xFFF9).setGpr 2 2)).gpr 0 = 0xFFFD ∧
      (runAt 0x4480 [] (fun s => (s.setGpr 0 0xFFF9).setGpr 2 2)).gpr 1 = 0xFFFF := by decide

/-- Vector D5. -/
theorem test_dvd_zero_D5 :
    (runAt 0x4480 [] (fun s => s.setGpr 0 5)).cc.divZero = true ∧
      (runAt 0x4480 [] (fun s => s.setGpr 0 5)).gpr 0 = 5 ∧
      (runAt 0x4480 [] (fun s => s.setGpr 0 5)).faults = [⟨.divisionByZero, some 16, some 0x4480⟩] := by decide

/-- Vector Q1. -/
theorem test_trr_Q1 :
    (runAt 0x4980 [] (fun s => (s.setGpr 1 9).setGpr 2 9)).cc.equal = true := by decide

/-- Vector Q2. -/
theorem test_trr_Q2 :
    (runAt 0x4980 [] (fun s => ((s.setGpr 1 9).setGpr 2 8).assignEqual true)).cc.equal = true := by decide

/-- Vector L1. -/
theorem test_and_L1 :
    (runAt 0x4C40 [] (fun s => (s.setGpr 0 0x0F0F).setGpr 1 0x00FF)).gpr 0 = 0x000F := by decide

/-- Vector L2. -/
theorem test_orr_L2 :
    (runAt 0x5040 [] (fun s => (s.setGpr 0 0x0F0F).setGpr 1 0x00FF)).gpr 0 = 0x0FFF := by decide

/-- Vector L3. -/
theorem test_not_L3 :
    (runAt 0x5700 [] (fun s => s.setGpr 3 0x00F0)).gpr 3 = 0xFF0F := by decide

/-- Vector S2. -/
theorem test_src_S2 :
    (runAt 0x6401 [] (fun s => s.setGpr 0 0x8001)).gpr 0 = 0xC000 ∧
      (runAt 0x6401 [] (fun s => s.setGpr 0 0x8001)).carry = true ∧
      (runAt 0x6401 [] (fun s => s.setGpr 0 0x8001)).cc.equal = false := by decide

/-- Vector S5. -/
theorem test_src_S5 :
    (runAt 0x64C1 [] (fun s => s.setGpr 0 0x8000)).gpr 0 = 0 ∧
      (runAt 0x64C1 [] (fun s => s.setGpr 0 0x8000)).carry = true ∧
      (runAt 0x64C1 [] (fun s => s.setGpr 0 0x8000)).cc.equal = true := by decide

/-- Vector R2. -/
theorem test_rrc_R2 :
    (runAt 0x6884 [] (fun s => s.setGpr 0 0x12AB)).gpr 0 = 0xB12A ∧
      (runAt 0x6884 [] (fun s => s.setGpr 0 0x12AB)).carry = false := by decide

/-- Vector R5. -/
theorem test_rrc_R5 :
    (runAt 0x6848 [] (fun s => (s.setGpr 0 0x12AB).assignCarry true)).gpr 0 = 0xAB89 ∧
      (runAt 0x6848 [] (fun s => (s.setGpr 0 0x12AB).assignCarry true)).carry = false := by decide

/-- Vector F12. -/
theorem test_fadd_F12 :
    (runAt 0x6C14 [(20, 0x0A80)] (fun s => s.setFr .f0 0x0A00)).frs.f0 = 0x0B40 := by decide

/-- Vector F13. -/
theorem test_fsub_F13 :
    (runAt 0x7114 [(20, 0x0A00)] (fun s => s.setFr .f1 0x0A80)).frs.f1 = 0x0900 := by decide

/-- Vector F11. -/
theorem test_fadd_refused_F11 :
    (runAt 0x6C14 [(20, 0x0A00)] id).refused = true ∧
      (runAt 0x6C14 [(20, 0x0A00)] id).icount = 0 := by decide

/-- Vector F14. -/
theorem test_ldfr_F14 :
    (runAt 0xA114 [(20, 0x0A80)] id).frs.f1 = 0x0A80 := by decide

/-- Vector F16. -/
theorem test_ldfr_F16 :
    (runAt 0xA214 [] id).faults = [⟨.badRegisterSelector, some 16, some 0xA214⟩] := by decide

/-- Vector F15. -/
theorem test_stfr_F15 :
    (runAt 0xA415 [] (fun s => s.setFr .f0 0x0B40)).mem.read 21 = 0x0B40 := by decide

/-- Vector V1. -/
theorem test_vadd_V1 :
    (runAt 0x7414 [(20, 100), (21, 200), (100, 1), (101, 2), (200, 10), (201, 20)] (fun s => s.setFr .f0 2)).mem.read 100 = 11 ∧
      (runAt 0x7414 [(20, 100), (21, 200), (100, 1), (101, 2), (200, 10), (201, 20)] (fun s => s.setFr .f0 2)).mem.read 101 = 22 ∧
      (runAt 0x7414 [(20, 100), (21, 200), (100, 1), (101, 2), (200, 10), (201, 20)] (fun s => s.setFr .f0 2)).mem.read 200 = 10 := by decide

/-- Vector V2. -/
theorem test_vsub_V2 :
    (runAt 0x7814 [(20, 100), (21, 200), (100, 1), (101, 2), (200, 10), (201, 20)] (fun s => s.setFr .f0 2)).mem.read 100 = 0xFFF7 ∧
      (runAt 0x7814 [(20, 100), (21, 200), (100, 1), (101, 2), (200, 10), (201, 20)] (fun s => s.setFr .f0 2)).mem.read 101 = 0xFFEE := by decide

/-- Vector V3. -/
theorem test_vadd_fault_V3 :
    (runAt 0x7414 [(20, 2046), (21, 200), (200, 10), (201, 20)] (fun s => s.setFr .f0 3)).mem.read 2046 = 10 ∧
      (runAt 0x7414 [(20, 2046), (21, 200), (200, 10), (201, 20)] (fun s => s.setFr .f0 3)).mem.read 2047 = 20 ∧
      (runAt 0x7414 [(20, 2046), (21, 200), (200, 10), (201, 20)] (fun s => s.setFr .f0 3)).faults = [⟨.addressOutOfRange, some 16, some 0x7414⟩] := by decide

/-- Vector I6. -/
theorem test_in_I6 :
    (runAt 0xC600 [] (fun s => (s.setGpr 2 300).setGpr 3 0xFFFF)).pending = some ⟨2, 300, 20, false⟩ ∧
      (runAt 0xC600 [] (fun s => (s.setGpr 2 300).setGpr 3 0xFFFF)).runState = .waitingForInput ∧
      (runAt 0xC600 [] (fun s => (s.setGpr 2 300).setGpr 3 0xFFFF)).icount = 1 := by decide

/-- Vector I5. -/
theorem test_in_refused_I5 :
    (runAt 0xC401 [] id).refused = true ∧
      (runAt 0xC401 [] id).icount = 0 := by decide

/-- Vector O1. -/
theorem test_out_O1 :
    (runAt 0xC801 [] (fun s => (s.setGpr 0 5).setGpr 3 6)).status = [.guidance 5 6] ∧
      (runAt 0xC801 [] (fun s => (s.setGpr 0 5).setGpr 3 6)).pc = some 17 := by decide

/-- Vector H1. -/
theorem test_hlt_H1 :
    (runAt 0x0000 [] (fun s => { s with runState := .running })).runState = .halted ∧
      (runAt 0x0000 [] (fun s => { s with runState := .running })).pc = some 17 ∧
      (runAt 0x0000 [] (fun s => { s with runState := .running })).icount = 1 := by decide

/-- CNVRT (F17) runs whatever its two free conversions are: GPR[1] = 0 selects the conversion to fixed. -/
theorem test_cnvrt_F17 : (runAt 0x7D14 [] id).gpr 1 = Config.cnvrtToFixed 0 := by rfl

/-- An inert word counts and sends one status message (47_io_control.md R175). -/
theorem test_inert_step : (runAt 0x5800 [] id).icount = 1 ∧ (runAt 0x5800 [] id).status = [.inert 0x5800] := by decide

/-- Console text (47_io_control.md R169): white space or commas separate signed decimal tokens. -/
theorem test_console_line :
    readValues (tokens (fun c => isBlank c || c == ',') ['5', ',', ' ', '-', '1', ' ', '7']) = some [5, -1, 7] := by decide

/-- E10: a load-file line is two octal tokens, a comment after them ignored (20_memory.md R48). -/
theorem test_load_line : readLoadLine ['0', '1', '2', ' ', '0', '1', '2', '3', ' ', ';', 'x'] = .load 10 83 := by decide

/-- E3: three updates toward taken saturate the counter at 3 (43_branches.md R138, R141). -/
theorem test_predictor_saturates :
    (((State.reset.updateCounter 0x0105 true).updateCounter 0x0105 true).updateCounter 0x0105 true).counter 5 = 3 := by decide

/-- X1: a step with the PC unset (60_exceptions.md R176, code 6). -/
theorem test_pc_unset_X1 :
    step State.powerOn = .next { State.powerOn with faults := [⟨.pcUnset, none, none⟩] } := rfl

/-! ## Witnesses: for each statement with hypotheses, a concrete state and operands that meet them -/

/-- A state that executes the instruction fetched from 16: PC 17, empty cache, pointers at 18 and 19. -/
def sample : State :=
  { State.reset with
    gprs := #v[7, 300, 40, 18]
    frs := { f0 := 2, f1 := 0x0A00 }
    mem := [(18, 100), (19, 3), (20, 0x0A80), (30, 100), (31, 200), (40, 3), (41, 200), (100, 1), (101, 2), (200, 10), (201, 20)]
    pc := some 17
    ir := some 0x0432 }

theorem sample_cacheInv : sample.CacheInv := State.cacheInv_of_empty rfl

/-- `sample` with the block of 20 resident. -/
def cached : State := (sample.memRead 20).2

theorem cached_cacheInv : cached.CacheInv := State.memRead_cacheInv sample_cacheInv 20

/-- `sample` about to fetch the word `w` from 16. -/
def about (w : Word) : State := { sample with mem := Memory.write 16 w sample.mem, pc := some 16 }

theorem witness_DecodeInvertsEncode : Function.Injective courseOpcode ∧ courseOpcode .hlt = 0 :=
  ⟨courseOpcode_injective, rfl⟩

theorem witness_EncodedWordFollowsFormula :
    (Mnemonic.and, Instr.and) ∈ [(Mnemonic.mlt, Instr.mlt), (Mnemonic.and, Instr.and)] ∧
      (encodeWith courseOpcode (.and 3 1)).toNat = 0o23 * 1024 + 3 * 256 + 1 * 64 := ⟨by simp, by decide⟩

theorem witness_DecodeSelectsByOpcode :
    Function.Injective courseOpcode ∧ (courseOpcode .ldr = opcodeField 0x050A ∧ Mnemonic.ldr ≠ .hlt) ∧
      courseOpcode .hlt = opcodeField 0x0123 ∧ ∀ m, courseOpcode m ≠ opcodeField 0x5800 :=
  ⟨courseOpcode_injective, by decide, by decide, by intro m; cases m <;> decide⟩

theorem witness_UnusedBitsNeverMatter :
    opcodeField 0x3405 = courseOpcode .rfs ∧ (0x3405 : Word) &&& usedBits .rfs = 0x36E5 &&& usedBits .rfs := by decide

/-- R186, R189: Run, and a panel store to a block that is not resident, with MAR and MBR keeping their values, are
observed, and so is the count of an instruction that changes nothing else. -/
theorem test_changes_are_observed :
    commandEvents .run sample ≠ [] ∧ commandEvents .panelStore { sample with mar := some 300, mbr := some 1 } ≠ [] ∧
      eventsBetween sample sample.counted ≠ [] :=
  ⟨eventsBetween_ne_nil State.runState (by decide), eventsBetween_ne_nil State.mem (by decide),
    eventsBetween_ne_nil State.icount (by decide)⟩

/-- 60_exceptions.md R176: codes 4, 7 and 8 belong to rejections. -/
theorem test_rejection_codes :
    command (.setIxr 0 5) sample = .rejected .badIndexRegister ∧ Rejection.badIndexRegister.code = some 4 ∧
      Rejection.malformedConsoleInput.code = some 7 ∧
      (loadFile [['8', ' ', '1']] sample).rejection.bind Rejection.code = some 8 := ⟨rfl, rfl, rfl, by decide⟩

theorem witness_StepRunsDecodedInstruction :
    (about 0x050A).runState ≠ .waitingForInput ∧ (about 0x050A).pc = some (16 : Address).toNat ∧
      decode ((about 0x050A).word 16) = .instr (.ldr 1 0 false 10) := by decide

theorem witness_InertWordOnlyAdvances :
    (about 0x5800).runState ≠ .waitingForInput ∧ (about 0x5800).pc = some (16 : Address).toNat ∧
      ∀ m, courseOpcode m ≠ opcodeField ((about 0x5800).word 16) :=
  ⟨by decide, by decide, by intro m; cases m <;> decide⟩

theorem witness_StepWithoutFetch :
    { sample with runState := .waitingForInput : State }.runState = .waitingForInput ∧
      (State.powerOn.runState ≠ .waitingForInput ∧ State.powerOn.pc = none) ∧
      ({ sample with pc := some 2048 : State }.runState ≠ .waitingForInput ∧
        { sample with pc := some 2048 : State }.pc = some 2048) := by decide

theorem witness_TickStepsOnlyWhileRunning :
    { sample with runState := .running : State }.runState = .running ∧ sample.runState = .halted ∧
      { sample with runState := .waitingForInput : State }.runState = .waitingForInput := by decide

/-- The last clause at a running machine, and at its boundary address 2047. -/
theorem witness_InstructionRegisterOnlyFetched :
    exec .hlt sample = .next { sample with runState := .halted, icount := 1 } ∧
      command .halt sample = .ran (.next { sample with runState := .halted }) ∧
      ({ about 0 with runState := .running : State }.runState = .running ∧ (about 0).pc = some (16 : Address).toNat) ∧
      (sample.runState ≠ .waitingForInput ∧ { sample with pc := some 2047 : State }.pc = some (2047 : Address).toNat) :=
  ⟨rfl, rfl, by decide, by decide⟩

theorem witness_LookupFindsTheHittingLine :
    cached.cache.DistinctTags ∧ cached.cache.lines[(0 : Fin 16)].valid = true ∧
      cached.cache.lines[(0 : Fin 16)].tag = blockTag 20 := ⟨cached_cacheInv.2.1, by decide, by decide⟩

theorem witness_PromoteMovesLineToTail : cached.cache.OrderPermutes := cached_cacheInv.2.2

/-- Both clauses occur: a line is invalid in `cached`; all are valid here. -/
theorem witness_VictimIsFirstInvalidElseLru :
    cached.cache.OrderPermutes ∧
      { lines := Vector.replicate 16 { tag := 0, valid := true, data := Vector.replicate 8 0 }
        order := List.finRange 16 : Cache }.OrderPermutes := ⟨cached_cacheInv.2.2, List.Perm.refl _⟩

theorem witness_CacheLoadHitAndMiss :
    cached.cache.lookup 23 = some 0 ∧ cached.cache.lookup 24 = none := by decide

theorem witness_CacheStoreWritesThrough :
    cached.mem.wf = true ∧ cached.cache.lookup 23 = some 0 ∧
      (cached.cache.lookup 24 = none ∧ (1 : Fin 16) = cached.cache.victim) := by decide

theorem witness_LinesStayValid :
    Command.halt ≠ .reset ∧ command .halt cached = .ran (.next (commandHalt cached)) ∧
      cached.cache.lines[(0 : Fin 16)].valid = true ∧ command .reset cached = .ran (.next State.reset) :=
  ⟨by decide, rfl, by decide, rfl⟩

theorem witness_PredictorCounterSaturates : (127 : Nat) < 128 ∧ (0 : Nat) < 128 := by decide

/-- `sample` with IXR[1] = `x`. -/
def indexed (x : Word) : State := sample.setIxr .x1 x

/-- Each clause at its boundary addresses: 2048; 0 and 5; 6 and 2047 direct; 6 and 2047 indirect. -/
theorem witness_EffectiveAddressResolution :
    (indexed 2048).CacheInv ∧
      2048 = (0 : BitVec 5).toNat + (indexed 2048).ixrs.x1.toNat ∧
      (0 = (0 : BitVec 5).toNat + (indexed 0).ixrs.x1.toNat ∧ 5 = (5 : BitVec 5).toNat + (indexed 0).ixrs.x1.toNat) ∧
      (6 = (6 : BitVec 5).toNat + (indexed 0).ixrs.x1.toNat ∧
        2047 = (31 : BitVec 5).toNat + (indexed 2016).ixrs.x1.toNat) :=
  ⟨State.cacheInv_of_empty rfl, by decide, by decide, by decide⟩

theorem witness_AddressErrorAborts :
    WellFormed (.ldr 0 0 false 3) = true ∧ eaOperands (.ldr 0 0 false 3) = some (0, false, 3) ∧
      (sample.resolveEA 0 false 3).1 = .error .illegalReservedAccess ∧
      (sample.resolveEA 0 true 19).1 = .error .illegalReservedAccess := ⟨by decide, by decide, rfl, by decide⟩

theorem witness_IllegalSelectorChangesNothingElse :
    WellFormed (.dvd 1 0) = false ∧ WellFormed (.ldx 0 false 10) = false ∧ WellFormed (.inp 0 1) = false := by decide

/-- LDR, STR, AMR, SMR, LDA: a direct and an indirect address that resolve, and one that does not. -/
theorem witness_effective_address :
    sample.CacheInv ∧ sample.mem.wf = true ∧ (sample.resolveEA 0 false 20).1 = .ok 20 ∧
      (sample.resolveEA 0 true 18).1 = .ok 100 ∧ (sample.resolveEA 0 false 5).1 = .error .illegalReservedAccess :=
  ⟨sample_cacheInv, by decide, by decide, by decide, by decide⟩

theorem witness_LdrLoadsWord :
    opcodeField 0x050A = 0o01 ∧ sample.CacheInv ∧ (sample.resolveEA 0 false 20).1 = .ok 20 ∧
      (sample.resolveEA 0 false 3).1 = .error .illegalReservedAccess := ⟨by decide, sample_cacheInv, by decide, by decide⟩

theorem witness_StrStoresWord :
    opcodeField 0x0A14 = 0o02 ∧ sample.CacheInv ∧ sample.mem.wf = true ∧ (sample.resolveEA 0 false 20).1 = .ok 20 ∧
      (sample.resolveEA 0 false 3).1 = .error .illegalReservedAccess :=
  ⟨by decide, sample_cacheInv, by decide, by decide, by decide⟩

theorem witness_LdaLoadsAddress : (sample.resolveEA 0 true 18).1 = .ok 100 ∧ (sample.resolveEA 0 false 31).1 = .ok 31 := by
  decide

theorem witness_LdxAndStxMoveIndexRegister :
    IndexReg.ofSelector 1 = some .x1 ∧ sample.CacheInv ∧ sample.mem.wf = true ∧
      (sample.resolveEA (if true then 1 else 0) false 20).1 = .ok 20 ∧
      (sample.resolveEA (if false then 1 else 0) false 20).1 = .ok 20 ∧ (sample.resolveEA 1 false 20).1 = .ok 20 :=
  ⟨by decide, sample_cacheInv, by decide, by decide, by decide, by decide⟩

theorem witness_AmrAddsMemory :
    opcodeField 0x1014 = 0o04 ∧ sample.CacheInv ∧ (sample.resolveEA 0 false 20).1 = .ok 20 ∧
      (sample.resolveEA 0 false 3).1 = .error .illegalReservedAccess := ⟨by decide, sample_cacheInv, by decide, by decide⟩

theorem witness_SmrSubtractsMemory :
    opcodeField 0x1414 = 0o05 ∧ sample.CacheInv ∧ (sample.resolveEA 0 false 20).1 = .ok 20 ∧
      (sample.resolveEA 0 false 3).1 = .error .illegalReservedAccess := ⟨by decide, sample_cacheInv, by decide, by decide⟩

theorem witness_SirSubtractsImmediate : opcodeField 0x1E06 = 0o07 ∧ (0 : BitVec 5) = 0 := by decide

theorem witness_JumpsBranchOnTheirCondition :
    opcodeField 0x2114 = 0o10 ∧ opcodeField 0x241E = 0o11 ∧ opcodeField 0x2B17 = 0o12 ∧ opcodeField 0x2C19 = 0o13 ∧
      sample.pc = some (16 + 1) ∧ decide (sample.gpr 1 = 0) = false ∧ (sample.resolveEA 0 false 20).1 = .ok 20 ∧
      (sample.resolveEA 0 false 3).1 = .error .illegalReservedAccess := by decide

theorem witness_JgeBranchesOnNonNegative :
    sample.pc = some (16 + 1) ∧ (sample.resolveEA 0 false 20).1 = .ok 20 := by decide

/-- The boundary: the instruction at 2047. -/
theorem witness_JsrSavesReturnAddress :
    { sample with pc := some 2048 : State }.pc = some (2047 + 1) ∧
      ({ sample with pc := some 2048 : State }.resolveEA 0 false 20).1 = .ok 20 := by decide

/-- Return addresses 0, 2047 and 2048. -/
theorem witness_RfsReturnsOrFaults :
    sample.pc = some (16 + 1) ∧ ((sample.setGpr 3 0).gpr 3).toNat = 0 ∧ ((sample.setGpr 3 2047).gpr 3).toNat = 2047 ∧
      ((sample.setGpr 3 2048).gpr 3).toNat = 2048 := by decide

theorem witness_SobDecrementsAndBranches :
    sample.pc = some (16 + 1) ∧ (sample.resolveEA 0 false 20).1 = .ok 20 := by decide

theorem witness_MltMultiplies : ((0 : BitVec 2) = 0 ∨ (0 : BitVec 2) = 2) ∧ ((2 : BitVec 2) = 0 ∨ (2 : BitVec 2) = 2) := by decide

theorem witness_DvdDivides :
    ((2 : BitVec 2) = 0 ∨ (2 : BitVec 2) = 2) ∧ ((0 : BitVec 2) = 0 ∨ (0 : BitVec 2) = 2) ∧ sample.gpr 0 ≠ 0 ∧
      (sample.setGpr 0 0).gpr 0 = 0 := by decide

theorem witness_LogicalOperations :
    opcodeField 0x4C40 = 0o23 ∧ opcodeField 0x5040 = 0o24 ∧ opcodeField 0x5700 = 0o25 ∧ (1 : BitVec 2) = 1 := by decide

/-- Counts 0, 1 and 15. -/
theorem witness_SrcShifts : (0 : BitVec 4) = 0 ∧ (1 : BitVec 4) ≠ 0 ∧ (15 : BitVec 4) ≠ 0 := by decide

/-- Counts 0, 1 and 15. -/
theorem witness_RrcRotates : (0 : BitVec 4) = 0 ∧ (1 : BitVec 4) ≠ 0 ∧ (15 : BitVec 4) ≠ 0 := by decide

/-- FADD answers on 0x0A00 and 0x0A80 and refuses on a zero operand. -/
theorem witness_FaddAndFsubComplete :
    FloatReg.ofSelector 1 = some .f1 ∧ sample.CacheInv ∧ (sample.resolveEA 0 false 20).1 = .ok 20 ∧
      fpAddCore .unsigned (sample.fr .f1) (sample.word 20) false = .ok 0x0B40 ∧
      (sample.resolveEA 0 false 21).1 = .ok 21 ∧
      fpAddCore .unsigned (sample.fr .f1) (sample.word 21) false = .error .floatingPointCorner :=
  ⟨by decide, sample_cacheInv, by decide, by decide, by decide, by decide⟩

theorem witness_FloatSumIsExactUpToTruncation :
    fpAddCore .unsigned 0x0A00 0x0A80 false = .ok 0x0B40 ∧ fpAddCore .signMagnitude 0x0A80 0x0A00 true = .ok 0x0900 := by
  decide

/-- The alignment clauses at unequal exponents: F3 (10 and 8), F3 with its operands exchanged, F6 (gap 9), and their results
from spec/95_test_vectors.md section 2.6. -/
theorem witness_FloatSumIsExactUpToTruncation_alignment :
    exponentValue .unsigned (exponentField 0x0801) = 8 ∧ exponentValue .unsigned (exponentField 0x0A00) = 10 ∧
      alignedSum .unsigned 0x0A00 0x0801 false = (320, 10) ∧ fpAddCore .unsigned 0x0A00 0x0801 false = .ok 0x0A40 ∧
      alignedSum .unsigned 0x0801 0x0A00 true = (-192, 10) ∧ exponentValue .unsigned (exponentField 0x0100) = 1 ∧
      alignedSum .unsigned 0x0A00 0x0100 false = (256, 10) ∧ fpAddCore .unsigned 0x0A00 0x0100 false = .ok 0x0A00 := by decide

/-- The four refusals of 46_float_vector.md R157: a zero operand, x - x, exponent 128, and its example of (d). -/
theorem test_fpAddCore_corners :
    fpAddCore .unsigned 0x8000 0x0A00 false = .error .floatingPointCorner ∧
      fpAddCore .unsigned 0x0A00 0x0A00 true = .error .floatingPointCorner ∧
      fpAddCore .unsigned 0x7F00 0x7F00 false = .error .floatingPointCorner ∧
      fpAddCore .unsigned 0x0100 0x8180 false = .error .floatingPointCorner := by decide

theorem witness_CnvrtConverts :
    sample.CacheInv ∧ (sample.resolveEA 0 false 20).1 = .ok 20 ∧ sample.gpr 0 ≠ 0 ∧ (sample.setGpr 0 0).gpr 0 = 0 :=
  ⟨sample_cacheInv, by decide, by decide, by decide⟩

/-- Two vectors of two elements, and an empty one. -/
theorem witness_VectorElementsCombine :
    FloatReg.ofSelector 0 = some .f0 ∧ sample.CacheInv ∧ sample.mem.wf = true ∧
      (sample.resolveEA 0 false 30).1 = .ok 30 ∧ (30 : Address).toNat < 2047 ∧
      100 = (sample.mem.read 30).toNat % 2048 ∧ 200 = (sample.mem.read 31).toNat % 2048 ∧ 2 = (sample.fr .f0).toNat ∧
      (6 ≤ 100 ∧ 100 + 2 ≤ 2048 ∧ 6 ≤ 200 ∧ 200 + 2 ≤ 2048) ∧ 0 = ((sample.setFr .f0 0).fr .f0).toNat :=
  ⟨by decide, sample_cacheInv, by decide, by decide, by decide, by decide, by decide, by decide, by decide, by decide⟩

/-- `sample` with the first vector at 2047: element 0 is in range and element 1 is not. -/
def vectorEdge : State := { sample with mem := Memory.write 40 2047 sample.mem }

/-- The pointer pair at 2047; the first element in the protected region; element 1 past the end. -/
theorem witness_VectorFaultKeepsPrefix :
    FloatReg.ofSelector 0 = some .f0 ∧ sample.CacheInv ∧ sample.mem.wf = true ∧
      ((indexed 2027).resolveEA 1 false 20).1 = .ok 2047 ∧
      ((sample.resolveEA 0 false 31).1 = .ok 31 ∧ (31 : Address).toNat < 2047) ∧
      (0 < (sample.fr .f0).toNat ∧ checkAddr (3 + 0) = .error .illegalReservedAccess ∧
        3 = ((sample.mem.read 40).toNat % 2048)) ∧
      (vectorEdge.CacheInv ∧ vectorEdge.mem.wf = true ∧ 2047 = (vectorEdge.mem.read 40).toNat % 2048 ∧
        1 < (vectorEdge.fr .f0).toNat ∧ checkAddr (2047 + 1) = .error .addressOutOfRange) :=
  ⟨by decide, sample_cacheInv, by decide, by decide, by decide, by decide, State.cacheInv_of_empty rfl, by decide, by decide,
    by decide, by decide⟩

theorem witness_LdfrAndStfrMoveOneWord :
    FloatReg.ofSelector 1 = some .f1 ∧ sample.CacheInv ∧ sample.mem.wf = true ∧ (sample.resolveEA 0 false 20).1 = .ok 20 :=
  ⟨by decide, sample_cacheInv, by decide, by decide⟩

theorem witness_InSuspendsForInput :
    sample.pending = none ∧ { sample with pending := some ⟨0, 100, 3, false⟩ : State }.pending = some ⟨0, 100, 3, false⟩ := by
  decide

theorem witness_HltHalts : opcodeField 0x0123 = 0 := by decide

/-- `sample` with an IN of three values to address `base` outstanding. -/
def waiting (base : Word) : State :=
  { sample with pending := some ⟨0, base, 3, true⟩, runState := .waitingForInput }

/-- Too few values; destinations 6..8 and 2045..2047; destinations from 5 and up to 2048. -/
theorem witness_ConsoleSubmissionCompletes :
    ((waiting 6).pending = some ⟨0, 6, 3, true⟩ ∧ (waiting 6).mem.wf = true ∧ [1, 2].length < 3) ∧
      (3 ≤ [1, 2, 3].length ∧ 6 ≤ (6 : Word).toNat ∧ (6 : Word).toNat + 3 ≤ 2048) ∧ (2045 : Word).toNat + 3 ≤ 2048 ∧
      (5 : Word).toNat ≤ 5 ∧ 2048 < (2046 : Word).toNat + 3 := by decide

/-- Address 2047 and word 65535 are loaded; 2048 and 65536 are rejected. -/
theorem witness_LoadedWordIsSeenByProgram :
    sample.CacheInv ∧ sample.mem.wf = true ∧ (2047 ≤ 2047 ∧ 65535 ≤ 65535) ∧ (2048 ≤ 2048 ∨ 65536 ≤ 65535) :=
  ⟨sample_cacheInv, by decide, by decide, by decide⟩

theorem sample_inv : sample.Inv :=
  ⟨by decide, sample_cacheInv, by simp [State.PcInDomain, sample], by simp [State.PendingInv, sample, State.reset], by decide⟩

theorem witness_StepKeepsInvariant :
    (about 0).Inv ∧ step (about 0) = .next { (about 0) with runState := .halted, icount := 1, ir := some 0, pc := some 17, mar := some 16, mbr := some 0 } :=
  ⟨⟨by decide, State.cacheInv_of_empty rfl, by simp [State.PcInDomain, about],
    by simp [State.PendingInv, about, sample, State.reset], by decide⟩, by rfl⟩

theorem witness_CommandKeepsInvariant : sample.Inv ∧ command .halt sample = .ran (.next (commandHalt sample)) :=
  ⟨sample_inv, rfl⟩

theorem witness_OnlyListedInstructionsWriteEachPart :
    exec (.not 0) sample = .next ((sample.setGpr 0 0xFFF8).counted) ∧ ((sample.setGpr 0 0xFFF8).counted).gprs ≠ sample.gprs :=
  ⟨rfl, by decide⟩

theorem witness_ProtectedWordsNeverWritten : exec (.not 0) sample = .next ((sample.setGpr 0 0xFFF8).counted) ∧ 5 ≤ 5 :=
  ⟨rfl, by decide⟩

theorem witness_PredictorNeverMatters :
    sample.forgetPredictor = { sample with predictions := 9, correct := 4 : State }.forgetPredictor := rfl

theorem witness_CacheNeverMatters :
    sample.Inv ∧ cached.Inv ∧ sample.forgetCache = cached.forgetCache :=
  ⟨sample_inv,
    ⟨by decide, cached_cacheInv, by simp [State.PcInDomain, cached, sample],
      by simp [State.PendingInv, cached, sample, State.reset], by decide⟩, by simp [State.forgetCache, cached]⟩

end Sys2Proof.Tests
end

/-! PROOFS. The statements on the cache controller (spec/20_memory.md R50 to R59): address split, lookup, promotion, the
two accesses, and the life of a valid line over every command. -/

namespace Sys2Proof.Machine

/-! ## Address split (R50) -/

/-- Settles O13. -/
theorem addressSplitsIntoTagAndOffset : Obligations.AddressSplitsIntoTagAndOffset := fun a =>
  ⟨blockTag_toNat a, blockOffset_val a, fun t k =>
    ⟨blockWord_toNat t k, blockTag_blockWord t k, blockOffset_blockWord t k⟩⟩

/-! ## Lookup (R51) -/

theorem Cache.lookup_isSome_iff {c : Cache} {a : Address} :
    (c.lookup a).isSome = true ↔ ∃ i : Fin 16, c.lines[i].valid = true ∧ c.lines[i].tag = blockTag a := by
  cases h : c.lookup a with
  | some i => exact ⟨fun _ => ⟨i, Cache.lookup_some h⟩, fun _ => rfl⟩
  | none =>
    simp only [Option.isSome_none, Bool.false_eq_true, false_iff]
    rintro ⟨i, hv, ht⟩
    exact Cache.lookup_none h i hv ht

/-- With distinct tags a line that hits is the one the lookup finds (R57 (b)). -/
theorem Cache.lookup_eq_some_of_distinct {c : Cache} (hd : c.DistinctTags) {a : Address} {i : Fin 16}
    (hv : c.lines[i].valid = true) (ht : c.lines[i].tag = blockTag a) : c.lookup a = some i := by
  obtain ⟨j, hj⟩ := Option.isSome_iff_exists.mp (Cache.lookup_isSome_iff.mpr ⟨i, hv, ht⟩)
  obtain ⟨hjv, hjt⟩ := Cache.lookup_some hj
  rw [hj, hd j i hjv hv (hjt.trans ht.symm)]

/-- Settles O14. -/
theorem lookupFindsTheHittingLine : Obligations.LookupFindsTheHittingLine := fun _ _ =>
  ⟨Cache.lookup_isSome_iff, fun hd _ hv ht => Cache.lookup_eq_some_of_distinct hd hv ht⟩

/-! ## Promotion (R52) -/

/-- A permutation holds each line once, so erasing the promoted line is filtering it out. -/
theorem Cache.promote_order {c : Cache} (h : c.OrderPermutes) (i : Fin 16) :
    (c.promote i).order = (c.order.filter fun j => decide (j ≠ i)) ++ [i] := by
  have hn : c.order.Nodup := h.nodup_iff.mpr (List.nodup_finRange 16)
  simp only [Cache.promote, hn.erase_eq_filter, ne_eq, decide_not, bne, beq_eq_decide]

/-- Settles O15. -/
theorem promoteMovesLineToTail : Obligations.PromoteMovesLineToTail := fun c i h =>
  ⟨Cache.promote_order h i, Cache.promote_lines c i, Cache.promote_permutes h i⟩

/-! ## The allocated line (R53 to R56) -/

theorem State.allocate_of_hit {a : Address} {s : State} {i : Fin 16} (h : s.cache.lookup a = some i) :
    s.allocate a = (i, s) := by
  rcases State.allocate_cases a s with ⟨j, hj, he⟩ | ⟨hn, _⟩
  · obtain rfl : i = j := Option.some.inj (h.symm.trans hj)
    exact he
  · rw [h] at hn; cases hn

theorem State.allocate_of_miss {a : Address} {s : State} (h : s.cache.lookup a = none) :
    s.allocate a = (s.cache.victim, State.fill s.cache.victim (blockTag a) s) := by
  rcases State.allocate_cases a s with ⟨j, hj, _⟩ | ⟨_, he⟩
  · rw [h] at hj; cases hj
  · exact he

theorem State.fill_line_same (i : Fin 16) (t : BitVec 8) (s : State) :
    (State.fill i t s).cache.lines[i] = { tag := t, valid := true, data := s.block t } := by
  rw [State.fill_line, if_pos rfl]

theorem State.fill_line_of_ne {i j : Fin 16} (h : j ≠ i) (t : BitVec 8) (s : State) :
    (State.fill i t s).cache.lines[j] = s.cache.lines[j] := by
  rw [State.fill_line, if_neg h.symm]

theorem State.fill_data (i : Fin 16) (t : BitVec 8) (s : State) (k : Fin 8) :
    (State.fill i t s).cache.lines[i].data[k] = s.word (blockWord t k) := by
  rw [State.fill_line_same]; exact block_get s t k

theorem State.allocate_line_of_ne {a : Address} {s t : State} {i j : Fin 16} (h : s.allocate a = (i, t)) (hj : j ≠ i) :
    t.cache.lines[j] = s.cache.lines[j] := by
  rcases State.allocate_cases a s with ⟨_, _, he⟩ | ⟨_, he⟩
  · obtain ⟨rfl, rfl⟩ := Prod.mk.inj (h.symm.trans he)
    rfl
  · obtain ⟨rfl, rfl⟩ := Prod.mk.inj (h.symm.trans he)
    exact State.fill_line_of_ne hj _ s

/-- The allocated line's words: as they were on a hit, the block's on a miss. -/
theorem State.allocate_data {a : Address} {s t : State} {i : Fin 16} (h : s.allocate a = (i, t)) (k : Fin 8) :
    t.cache.lines[i].data[k] =
      if s.cache.lookup a = none then s.word (blockWord (blockTag a) k) else s.cache.lines[i].data[k] := by
  rcases State.allocate_cases a s with ⟨_, hl, he⟩ | ⟨hl, he⟩
  · obtain ⟨rfl, rfl⟩ := Prod.mk.inj (h.symm.trans he)
    rw [if_neg (by simp [hl])]
  · obtain ⟨rfl, rfl⟩ := Prod.mk.inj (h.symm.trans he)
    rw [if_pos hl]; exact State.fill_data _ _ s k

/-! ## Load (R55) -/

theorem State.cacheLoad_of_hit {a : Address} {s : State} {i : Fin 16} (h : s.cache.lookup a = some i) :
    s.cacheLoad a = (s.cache.lines[i].data[blockOffset a], s.promote i) :=
  State.cacheLoad_eq (State.allocate_of_hit h)

theorem State.cacheLoad_of_miss {a : Address} {s : State} (h : s.cache.lookup a = none) :
    s.cacheLoad a = (s.word a, (State.fill s.cache.victim (blockTag a) s).promote s.cache.victim) := by
  rw [State.cacheLoad_eq (State.allocate_of_miss h), State.fill_data, blockWord_split]

/-- Settles O17: one equation for the hit, one for the miss. -/
theorem cacheLoadHitAndMiss : Obligations.CacheLoadHitAndMiss := by
  intro s a
  constructor
  · intro i hit
    rw [State.cacheLoad_of_hit hit]
    exact ⟨rfl, rfl⟩
  · intro miss
    rw [State.cacheLoad_of_miss miss]
    have filled := State.fill_line_same s.cache.victim (blockTag a) s
    exact ⟨rfl, rfl, rfl, congrArg CacheLine.valid filled, congrArg CacheLine.tag filled,
      State.fill_data _ _ s, fun j hj => State.fill_line_of_ne hj _ s⟩

/-! ## Store (R56) -/

theorem State.cacheStore_cache {a : Address} {s t : State} {i : Fin 16} (v : Word) (h : s.allocate a = (i, t)) :
    (s.cacheStore a v).cache = (t.cache.setWord i (blockOffset a) v).promote i := by
  rw [State.cacheStore_eq v h]; rfl

theorem State.cacheStore_lines {a : Address} {s t : State} {i : Fin 16} (v : Word) (h : s.allocate a = (i, t)) :
    (s.cacheStore a v).cache.lines = (t.cache.setWord i (blockOffset a) v).lines := by
  rw [State.cacheStore_cache v h, Cache.promote_lines]

theorem State.cacheStore_order {a : Address} {s t : State} {i : Fin 16} (v : Word) (h : s.allocate a = (i, t)) :
    (s.cacheStore a v).cache.order = (s.cache.promote i).order := by
  have ho : t.cache.order = s.cache.order := by simpa [h] using State.allocate_order a s
  rw [State.cacheStore_cache v h]
  simp [Cache.promote, ho]

theorem State.cacheStore_line_of_ne {a : Address} {s t : State} {i j : Fin 16} (v : Word) (h : s.allocate a = (i, t))
    (hj : j ≠ i) : (s.cacheStore a v).cache.lines[j] = s.cache.lines[j] := by
  rw [State.cacheStore_lines v h, Cache.setWord_line, if_neg hj.symm, State.allocate_line_of_ne h hj]

theorem State.cacheStore_valid {a : Address} {s t : State} {i : Fin 16} (v : Word) (h : s.allocate a = (i, t)) :
    (s.cacheStore a v).cache.lines[i].valid = true := by
  rw [State.cacheStore_lines v h, Cache.setWord_valid, (State.allocate_holds_of_eq h).1]

theorem State.cacheStore_tag {a : Address} {s t : State} {i : Fin 16} (v : Word) (h : s.allocate a = (i, t)) :
    (s.cacheStore a v).cache.lines[i].tag = blockTag a := by
  rw [State.cacheStore_lines v h, Cache.setWord_tag, (State.allocate_holds_of_eq h).2]

theorem State.cacheStore_data {a : Address} {s t : State} {i : Fin 16} (v : Word) (h : s.allocate a = (i, t))
    (k : Fin 8) :
    (s.cacheStore a v).cache.lines[i].data[k] =
      if k = blockOffset a then v
      else if s.cache.lookup a = none then s.word (blockWord (blockTag a) k) else s.cache.lines[i].data[k] := by
  rw [State.cacheStore_lines v h, Cache.setWord_data, State.allocate_data h]
  simp only [true_and, eq_comm]

/-- A store writes the array through, whatever the cache does. -/
theorem State.cacheStore_sameMemoryBut (a : Address) (v : Word) (s : State) : SameMemoryBut a s (s.cacheStore a v) :=
  fun _ hb => (congrArg (Memory.read _) (State.memWrite_mem a v s)).trans (Memory.read_write_of_ne hb v s.mem)

/-- Settles O18: the store goes to the line that `allocate` answers, on a hit and on a miss alike. -/
theorem cacheStoreWritesThrough : Obligations.CacheStoreWritesThrough := by
  intro s a v i hwf hline
  have halloc : ∃ t, s.allocate a = (i, t) := by
    rcases hline with hit | ⟨miss, rfl⟩
    · exact ⟨_, State.allocate_of_hit hit⟩
    · exact ⟨_, State.allocate_of_miss miss⟩
  obtain ⟨t, h⟩ := halloc
  exact ⟨State.memWrite_word_same hwf a v, State.cacheStore_sameMemoryBut a v s, State.cacheStore_order v h,
    State.cacheStore_valid v h, State.cacheStore_tag v h, State.cacheStore_data v h,
    fun _ hj => State.cacheStore_line_of_ne v h hj⟩

/-! ## A step as a chain of accesses -/

theorem Accesses.trans {s t u : State} (h1 : Accesses s t) (h2 : Accesses t u) : Accesses s u := by
  induction h2 with
  | refl => exact h1
  | read a _ ih => exact ih.read a
  | write a v h6 _ ih => exact ih.write a v h6
  | other _ hm hc ih => exact ih.other hm hc

/-- All that a fetch can do: record a fault, or go on in the fetched state with an instruction or an inert word. -/
theorem State.fetchDecode_cases (s : State) :
    (∃ e, fetchAddress s.pc = .error e ∧ s.fetchDecode = .done (s.recordFault e s.pc)) ∨
      (∃ a i, fetchAddress s.pc = .ok a ∧ decode (s.word a) = .instr i ∧ s.fetchDecode = .execute i (s.advance a)) ∨
      ∃ a op, fetchAddress s.pc = .ok a ∧ decode (s.word a) = .inert op ∧
        s.fetchDecode = .inert (s.word a) (s.advance a) := by
  unfold State.fetchDecode
  cases fetchAddress s.pc with
  | error e => exact .inl ⟨e, rfl, rfl⟩
  | ok a =>
    dsimp only
    cases hd : decode (s.word a) with
    | instr i => exact .inr (.inl ⟨a, i, rfl, hd, rfl⟩)
    | inert op => exact .inr (.inr ⟨a, op, rfl, hd, rfl⟩)

/-- A step does nothing while waiting for input, else it fetches (R99). -/
theorem State.beginStep_cases (s : State) :
    (s.runState = .waitingForInput ∧ s.beginStep = .done s) ∨
      (s.runState ≠ .waitingForInput ∧ s.beginStep = s.fetchDecode) := by
  unfold State.beginStep
  cases s.runState with
  | waitingForInput => exact .inl ⟨rfl, rfl⟩
  | running => exact .inr ⟨nofun, rfl⟩
  | halted => exact .inr ⟨nofun, rfl⟩

/-- Every step answers a next state, and what it did to the array and the cache is a chain of accesses. -/
theorem step_onlyAccesses (s : State) : OnlyAccesses s (step s) := by
  have advanced (a : Address) : Accesses s (s.advance a) := .other .refl rfl rfl
  unfold step
  rcases s.beginStep_cases with ⟨_, hb⟩ | ⟨_, hb⟩ <;> rw [hb]
  · exact ⟨s, rfl, .refl⟩
  · rcases s.fetchDecode_cases with ⟨e, _, hf⟩ | ⟨a, i, _, _, hf⟩ | ⟨a, op, _, _, hf⟩ <;> rw [hf]
    · exact ⟨_, rfl, .other .refl rfl rfl⟩
    · obtain ⟨t, ht, hacc⟩ := exec_onlyAccesses i (s.advance a)
      exact ⟨t, ht, (advanced a).trans hacc⟩
    · exact .completed (.other (advanced a) rfl rfl)

/-! ## Valid lines stay valid (R59) -/

/-- Every valid line of `c` is valid in `d`. -/
def Cache.StaysValid (c d : Cache) : Prop := ∀ i : Fin 16, c.lines[i].valid = true → d.lines[i].valid = true

theorem Cache.StaysValid.refl (c : Cache) : c.StaysValid c := fun _ hv => hv

theorem Cache.StaysValid.trans {c d e : Cache} (h1 : c.StaysValid d) (h2 : d.StaysValid e) : c.StaysValid e :=
  fun i hv => h2 i (h1 i hv)

theorem Cache.setWord_staysValid (c : Cache) (i : Fin 16) (k : Fin 8) (v : Word) : c.StaysValid (c.setWord i k v) :=
  fun j hv => (Cache.setWord_valid c i j k v).trans hv

theorem Cache.refresh_staysValid (c : Cache) (a : Address) (v : Word) : c.StaysValid (c.refresh a v) := by
  unfold Cache.refresh
  cases c.lookup a with
  | some i => exact c.setWord_staysValid i _ v
  | none => exact .refl c

/-- Allocation makes its line valid and leaves the others. -/
theorem State.allocate_staysValid (a : Address) (s : State) : s.cache.StaysValid (s.allocate a).2.cache := by
  intro j hv
  by_cases hj : j = (s.allocate a).1
  · rw [hj]; exact (State.allocate_holds a s).1
  · rw [State.allocate_line_of_ne (Prod.mk.eta (p := s.allocate a)).symm hj]; exact hv

theorem State.memRead_staysValid (a : Address) (s : State) : s.cache.StaysValid (s.memRead a).2.cache :=
  State.allocate_staysValid a s

theorem State.memWrite_staysValid (a : Address) (v : Word) (s : State) : s.cache.StaysValid (s.memWrite a v).cache :=
  (State.allocate_staysValid a s).trans (Cache.setWord_staysValid _ _ _ v)

theorem State.directWrite_staysValid (a : Address) (v : Word) (s : State) : s.cache.StaysValid (s.directWrite a v).cache :=
  s.cache.refresh_staysValid a v

theorem Accesses.staysValid {s t : State} (h : Accesses s t) : s.cache.StaysValid t.cache := by
  induction h with
  | refl => exact .refl _
  | read a _ ih => exact ih.trans (State.memRead_staysValid a _)
  | write a v _ _ ih => exact ih.trans (State.memWrite_staysValid a v _)
  | other _ _ hc ih => rw [hc]; exact ih

theorem writeValues_staysValid (a : Nat) (vs : List Int) (s : State) :
    s.cache.StaysValid (writeValues a vs s).cache := by
  induction vs generalizing a s with
  | nil => exact .refl _
  | cons v vs ih => exact (State.memWrite_staysValid _ _ s).trans (ih (a + 1) _)

theorem writeFirst_cache (dest : BitVec 2) (values : List Int) (s : State) :
    (writeFirst dest values s).cache = s.cache := by
  cases values <;> rfl

/-- A state the command answers has every valid line of `s` valid. -/
def Reply.StaysValid (s : State) (r : Reply) : Prop := ∀ t, r = .ran (.next t) → s.cache.StaysValid t.cache

theorem Reply.StaysValid.accept {s t : State} (h : s.cache.StaysValid t.cache) : Reply.StaysValid s (accept t) := by
  rintro _ ⟨⟩; exact h

theorem Reply.StaysValid.rejected (s : State) (why : Rejection) : Reply.StaysValid s (.rejected why) := by
  simp [Reply.StaysValid]

theorem Reply.StaysValid.ran {s : State} {r : Result} (h : OnlyAccesses s r) : Reply.StaysValid s (.ran r) := by
  obtain ⟨t, rfl, hacc⟩ := h
  exact .accept hacc.staysValid

/-- A command that leaves the cache as it was. -/
theorem Reply.StaysValid.sameCache {s t : State} (h : t.cache = s.cache) : Reply.StaysValid s (Machine.accept t) :=
  .accept (h ▸ .refl _)

theorem commandSetIxr_staysValid (i : BitVec 2) (v : Int) (s : State) : Reply.StaysValid s (commandSetIxr i v s) := by
  unfold commandSetIxr
  cases IndexReg.ofSelector i with
  | some x => exact .sameCache (State.setIxr_cache x _ s)
  | none => exact .rejected s _

theorem commandRun_cache (s : State) : (commandRun s).cache = s.cache := by
  unfold commandRun; split <;> rfl

theorem commandTick_staysValid (s : State) : Reply.StaysValid s (.ran (commandTick s)) := by
  unfold commandTick
  cases s.runState with
  | running => exact .ran (step_onlyAccesses s)
  | waitingForInput => exact .sameCache rfl
  | halted => exact .sameCache rfl

@[simp] theorem State.incrementMar_cache (s : State) : s.incrementMar.cache = s.cache := rfl

theorem panelLoadThen_staysValid {k : State → State} (hk : ∀ t, (k t).cache = t.cache) (s : State) :
    Reply.StaysValid s (panelLoadThen k s) := by
  unfold panelLoadThen
  cases s.mar with
  | none => exact .rejected s _
  | some a => exact .sameCache (hk _)

theorem panelStoreThen_staysValid {k : State → State} (hk : ∀ t, (k t).cache = t.cache) (s : State) :
    Reply.StaysValid s (panelStoreThen k s) := by
  unfold panelStoreThen
  cases s.mar with
  | none => exact .rejected s _
  | some a =>
    cases s.mbr with
    | none => exact .rejected s _
    | some v => exact .accept (by rw [hk]; exact s.directWrite_staysValid a v)

theorem commandLoadWord_staysValid (a w : Nat) (s : State) : Reply.StaysValid s (commandLoadWord a w s) := by
  unfold commandLoadWord
  split
  · exact .rejected s _
  · exact .accept (s.directWrite_staysValid _ _)

theorem commandConsoleSubmit_staysValid (values : List Int) (s : State) :
    Reply.StaysValid s (commandConsoleSubmit values s) := by
  unfold commandConsoleSubmit
  cases s.pending with
  | none => exact .rejected s _
  | some p =>
    dsimp only
    split
    · exact .rejected s _
    · cases destinationError p.base.toNat p.count with
      | some e => exact .sameCache rfl
      | none =>
        have written := writeValues_staysValid p.base.toNat (values.take p.count)
          (writeFirst p.dest (values.take p.count) s)
        rw [writeFirst_cache] at written
        exact .accept written

theorem command_staysValid {c : Command} (hc : c ≠ .reset) (s : State) : Reply.StaysValid s (command c s) := by
  cases c with
  | setGpr i v => exact .sameCache rfl
  | setIxr i v => exact commandSetIxr_staysValid i v s
  | setPc v => exact .sameCache rfl
  | setMar v => exact .sameCache rfl
  | setMbr v => exact .sameCache rfl
  | step => exact .ran (step_onlyAccesses s)
  | run => exact .sameCache (commandRun_cache s)
  | tick => exact commandTick_staysValid s
  | halt => exact .sameCache rfl
  | reset => exact absurd rfl hc
  | panelLoad => exact panelLoadThen_staysValid (fun _ => rfl) s
  | panelStore => exact panelStoreThen_staysValid (fun _ => rfl) s
  | panelLoadPlus => exact panelLoadThen_staysValid State.incrementMar_cache s
  | panelStorePlus => exact panelStoreThen_staysValid State.incrementMar_cache s
  | loadWord a w => exact commandLoadWord_staysValid a w s
  | consoleSubmit values => exact commandConsoleSubmit_staysValid values s

theorem State.reset_line_invalid : ∀ i : Fin 16, State.reset.cache.lines[i].valid = false := by decide

/-- Settles O19, command by command: only data accesses and refreshes touch the lines, and neither clears a valid bit. -/
theorem linesStayValid : Obligations.LinesStayValid := by
  constructor
  · intro c s t i hc h
    exact command_staysValid hc s t h i
  · rintro s _ i ⟨⟩
    exact State.reset_line_invalid i

end Sys2Proof.Machine

/-! ## Decoding by the opcode field (R90, R92) -/

namespace Sys2Proof

/-- A word that holds a mnemonic's opcode decodes as that mnemonic, HLT by the `HLT_MATCH` reading. -/
theorem decodeWith_of_opcodeField_eq {map : OpcodeMap} (hinj : Function.Injective map) (hlt : HltMatch) {m : Mnemonic}
    {w : Word} (hm : map m = opcodeField w) :
    decodeWith map hlt w = if m = .hlt then decodeHlt hlt w else .instr (instrOf m w) := by
  have hsel : selectMnemonic map (opcodeField w) = some m := hm ▸ selectMnemonic_self hinj m
  simp only [decodeWith, hsel]

/-- A word whose opcode belongs to no mnemonic is inert. -/
theorem decodeWith_of_opcodeField_ne {map : OpcodeMap} (hlt : HltMatch) {w : Word} (hw : ∀ m, map m ≠ opcodeField w) :
    decodeWith map hlt w = .inert (opcodeField w) := by
  simp only [decodeWith, selectMnemonic_none hw]

/-- Settles O3, by the mnemonic the opcode selects: one other than HLT, HLT under each reading, or none. -/
theorem decodeSelectsByOpcode : Obligations.DecodeSelectsByOpcode := by
  intro map hinj hlt w
  refine ⟨fun m hm hne => ?other, fun hm => ⟨?hltByOpcode, ?hltByWord⟩, decodeWith_of_opcodeField_ne hlt⟩
  case other => rw [decodeWith_of_opcodeField_eq hinj hlt hm, if_neg hne]
  case hltByOpcode => exact decodeWith_of_opcodeField_eq hinj .opcode hm
  case hltByWord => exact decodeWith_of_opcodeField_eq hinj .wholeWord hm

end Sys2Proof

/-! ## Tick by run state (R101) -/

namespace Sys2Proof.Machine

theorem commandTick_of_running {s : State} (h : s.runState = .running) : commandTick s = step s := by
  simp only [commandTick, h]

theorem commandTick_of_not_running {s : State} (h : s.runState ≠ .running) : commandTick s = .next s := by
  unfold commandTick
  cases hs : s.runState with
  | running => exact absurd hs h
  | waitingForInput => rfl
  | halted => rfl

/-- Settles O11, by the run state: a tick is a step while running, and both other run states leave the machine. -/
theorem tickStepsOnlyWhileRunning : Obligations.TickStepsOnlyWhileRunning := by
  intro s
  refine ⟨fun h => ?running, fun h => ?halted, fun h => ?waiting⟩
  case running => exact congrArg Reply.ran (commandTick_of_running h)
  case halted => exact congrArg Reply.ran (commandTick_of_not_running (by simp [h]))
  case waiting => exact congrArg Reply.ran (commandTick_of_not_running (by simp [h]))

end Sys2Proof.Machine

/-! ## Decoding under the course map (R88, R90) -/

namespace Sys2Proof

/-- A word that holds the course opcode of a mnemonic other than HLT decodes as that mnemonic. -/
theorem decode_of_opcodeField_eq {m : Mnemonic} (hne : m ≠ .hlt) {w : Word} (hw : opcodeField w = courseOpcode m) :
    decode w = .instr (instrOf m w) :=
  (decodeWith_of_opcodeField_eq courseOpcode_injective defaultHltMatch hw.symm).trans (if_neg hne)

end Sys2Proof

/-! ## Frames of an instruction under way (40_execution_cycle.md R104, R108) -/

namespace Sys2Proof.Machine

/-- `t` is a state inside an instruction started in `s` that is no branch and no control instruction: registers, array,
cache and latches aside it is `s`. `StaysInPlace.counted` ties it to `CompletesInPlace`. -/
structure StaysInPlace (s t : State) : Prop extends SameControl s t where
  pc : t.pc = s.pc
  icount : t.icount = s.icount

theorem StaysInPlace.trans {s t u : State} (h1 : StaysInPlace s t) (h2 : StaysInPlace t u) : StaysInPlace s u where
  bht := h2.bht.trans h1.bht
  predictions := h2.predictions.trans h1.predictions
  correct := h2.correct.trans h1.correct
  runState := h2.runState.trans h1.runState
  pending := h2.pending.trans h1.pending
  faults := h2.faults.trans h1.faults
  refused := h2.refused.trans h1.refused
  status := h2.status.trans h1.status
  ir := h2.ir.trans h1.ir
  pc := h2.pc.trans h1.pc
  icount := h2.icount.trans h1.icount

theorem StaysInPlace.counted {s t : State} (h : StaysInPlace s t) : CompletesInPlace s t.counted where
  toSameControl := { h.toSameControl with }
  pc := h.pc
  icount := congrArg (· + 1) h.icount

theorem State.resolveEA_staysInPlace (ix : BitVec 2) (ind : Bool) (addr : BitVec 5) (s : State) :
    StaysInPlace s (s.resolveEA ix ind addr).2 :=
  ⟨by constructor <;> simp, by simp, by simp⟩

theorem State.memRead_staysInPlace (a : Address) (s : State) : StaysInPlace s (s.memRead a).2 :=
  ⟨by constructor <;> simp, by simp, by simp⟩

theorem State.memWrite_staysInPlace (a : Address) (v : Word) (s : State) : StaysInPlace s (s.memWrite a v) :=
  ⟨by constructor <;> simp, by simp, by simp⟩

theorem State.setGpr_staysInPlace (r : BitVec 2) (v : Word) (s : State) : StaysInPlace s (s.setGpr r v) :=
  ⟨by constructor <;> simp, by simp, by simp⟩

/-- A fault taken after EA resolution leaves what the program sees as it was before the resolution. -/
theorem State.resolveEA_takeFault_aborted (ix : BitVec 2) (ind : Bool) (addr : BitVec 5) (s : State) (e : Fault) :
    Aborted e s ((s.resolveEA ix ind addr).2.takeFault e) := by
  constructor
  case toSameOtherRegs => constructor <;> simp
  case memory => intro a; simp
  all_goals simp

/-- An address error aborts the instruction, whatever it would have done at the address. -/
theorem withEA_aborts_of_error {ix : BitVec 2} {ind : Bool} {addr : BitVec 5} {s : State} {e : Fault}
    (h : (s.resolveEA ix ind addr).1 = .error e) (k : Address → State → Result) :
    ∃ t, withEA ix ind addr s k = .next t ∧ Aborted e s t :=
  ⟨_, withEA_error h, State.resolveEA_takeFault_aborted ix ind addr s e⟩

/-! ## LDR (R114) -/

theorem exec_ldr_of_ok {r ix : BitVec 2} {ind : Bool} {addr : BitVec 5} {s : State} {ea : Address} (hinv : s.CacheInv)
    (hea : (s.resolveEA ix ind addr).1 = .ok ea) :
    exec (.ldr r ix ind addr) s =
      .next (((s.resolveEA ix ind addr).2.memRead ea).2.setGpr r (s.word ea)).counted := by
  have value : ((s.resolveEA ix ind addr).2.memRead ea).1 = s.word ea :=
    (State.memRead_value (State.resolveEA_cacheInv hinv ix ind addr) ea).trans (State.word_resolveEA ..)
  have run : exec (.ldr r ix ind addr) s = _ := withEA_ok hea
  rw [run]
  simp only [value, State.completed_eq]

/-- Settles O24. -/
theorem ldrLoadsWord : Obligations.LdrLoadsWord := by
  refine ⟨fun w hw => decode_of_opcodeField_eq (m := .ldr) (by decide) hw, fun r ix ind addr s =>
    ⟨fun ea hinv hea => ⟨_, exec_ldr_of_ok hinv hea, ?loaded, ?resident, ?otherGprs, ?otherRegs, ?memory, ?control⟩,
      fun e he => withEA_aborts_of_error he _⟩⟩
  case loaded => simp
  case resident => exact State.memRead_resident ea _
  case otherGprs => intro q hq; simp [hq]
  case otherRegs => constructor <;> simp
  case memory => intro a; simp
  case control =>
    exact (((State.resolveEA_staysInPlace ..).trans (State.memRead_staysInPlace ..)).trans
      (State.setGpr_staysInPlace ..)).counted

/-! ## STR (R115) -/

/-- After a write the resident copy is the word written (R56, R57). -/
theorem State.memWrite_cachedCopy {s : State} (hinv : s.CacheInv) (hwf : s.mem.wf = true) (a : Address) (v : Word) :
    ∃ i, (s.memWrite a v).cache.lookup a = some i ∧ (s.memWrite a v).cache.lines[i].data[blockOffset a] = v := by
  obtain ⟨i, hi⟩ := Option.isSome_iff_exists.mp (State.memWrite_resident a v s)
  exact ⟨i, hi, (State.lookup_value (State.memWrite_cacheInv hinv hwf a v) hi).trans (State.memWrite_word_same hwf a v)⟩

theorem exec_str_of_ok {r ix : BitVec 2} {ind : Bool} {addr : BitVec 5} {s : State} {ea : Address}
    (hea : (s.resolveEA ix ind addr).1 = .ok ea) :
    exec (.str r ix ind addr) s = .next ((s.resolveEA ix ind addr).2.memWrite ea (s.gpr r)).counted := by
  have run : exec (.str r ix ind addr) s = _ := withEA_ok hea
  rw [run, State.gpr_resolveEA, State.completed_eq]

/-- Settles O25: the store runs in the state that EA resolution leaves, which has the same array and the cache
invariants. -/
theorem strStoresWord : Obligations.StrStoresWord := by
  refine ⟨fun w hw => decode_of_opcodeField_eq (m := .str) (by decide) hw, fun r ix ind addr s =>
    ⟨fun ea hinv hwf hea => ?ok, fun e he => withEA_aborts_of_error he _⟩⟩
  case ok =>
    have hinv' := State.resolveEA_cacheInv hinv ix ind addr
    have hwf' : (s.resolveEA ix ind addr).2.mem.wf = true := by rwa [State.resolveEA_mem]
    refine ⟨_, exec_str_of_ok hea, ?stored, ?otherWords, ?copy, ?gprs, ?otherRegs, ?control⟩
    case stored => exact State.memWrite_word_same hwf' ea _
    case otherWords => intro b hb; simp [Memory.read_write_of_ne hb]
    case copy => exact State.memWrite_cachedCopy hinv' hwf' ea _
    case gprs => simp
    case otherRegs => constructor <;> simp
    case control => exact ((State.resolveEA_staysInPlace ..).trans (State.memWrite_staysInPlace ..)).counted

end Sys2Proof.Machine

/-! ## Sum, difference and their flags (42_arithmetic.md R119, R120) -/

namespace Sys2Proof.Machine

theorem sumWord_toNat (a b : Word) : (sumWord a b).toNat = (a.toNat + b.toNat) % 65536 :=
  BitVec.toNat_add a b

theorem differenceWord_toNat (a b : Word) :
    ((differenceWord a b).toNat : Int) = ((a.toNat : Int) - b.toNat) % 65536 := by
  have sub : (differenceWord a b).toNat = (65536 - b.toNat + a.toNat) % 65536 := BitVec.toNat_sub a b
  have bound : b.toNat < 65536 := b.isLt
  omega

theorem differenceWord_zero (a : Word) : differenceWord a 0 = a := BitVec.sub_zero a

theorem immediateWord_toNat (k : BitVec 5) : (immediateWord k).toNat = k.toNat :=
  BitVec.toNat_setWidth_of_le (by decide)

/-- A zero-extended immediate is below 2^15 (30_encoding.md R86). -/
theorem sign_immediateWord (k : BitVec 5) : sign (immediateWord k) = false := by
  have bound : k.toNat < 32 := k.isLt
  rw [sign, BitVec.msb_eq_false_iff_two_mul_lt, immediateWord_toNat]
  omega

theorem addOverflows_iff {a b res : Word} : addOverflows a b res = true ↔ sign a = sign b ∧ sign res ≠ sign a := by
  simp [addOverflows]

theorem subUnderflows_iff {a b res : Word} : subUnderflows a b res = true ↔ sign a ≠ sign b ∧ sign res ≠ sign a := by
  simp [subUnderflows]

/-- An immediate is never negative, so only a negative minuend can underflow. -/
theorem subUnderflows_immediateWord_iff {a res : Word} {k : BitVec 5} :
    subUnderflows a (immediateWord k) res = true ↔ sign a = true ∧ sign res = false := by
  rw [subUnderflows_iff, sign_immediateWord, ne_eq, Bool.not_eq_false]
  refine and_congr_right fun negative => ?_
  rw [negative, ne_eq, Bool.not_eq_true]

/-- A result equal to the minuend has its sign. -/
theorem subUnderflows_self (a b : Word) : subUnderflows a b a = false :=
  Bool.eq_false_iff.mpr fun h => (subUnderflows_iff.mp h).2 rfl

/-- A set-only flag (R120) is set when its condition holds and otherwise keeps its old value. -/
theorem setOnly_eq_ite {old cond : Bool} {P : Prop} [Decidable P] (h : cond = true ↔ P) :
    (old || cond) = if P then true else old := by
  split
  next hP => rw [h.mpr hP, Bool.or_true]
  next hP => rw [Bool.eq_false_iff.mpr (mt h.mp hP), Bool.or_false]

theorem State.noteOverflow_staysInPlace (b : Bool) (s : State) : StaysInPlace s (s.noteOverflow b) :=
  ⟨by constructor <;> simp, by simp, by simp⟩

theorem State.noteUnderflow_staysInPlace (b : Bool) (s : State) : StaysInPlace s (s.noteUnderflow b) :=
  ⟨by constructor <;> simp, by simp, by simp⟩

theorem State.noteUnderflow_false (s : State) : s.noteUnderflow false = s := by
  simp [State.noteUnderflow]

theorem State.setGpr_gpr_self (r : BitVec 2) (s : State) : s.setGpr r (s.gpr r) = s := by
  simp [State.setGpr, State.gpr]

/-! ### GPR[R] <- GPR[R] + b, with OVERFLOW -/

/-- What AMR does with its operand; `exec_amr_of_ok` ties it to the instruction. -/
def State.addToGpr (r : BitVec 2) (b : Word) (s : State) : State :=
  (s.setGpr r (sumWord (s.gpr r) b)).noteOverflow (addOverflows (s.gpr r) b (sumWord (s.gpr r) b))

@[simp] theorem State.gpr_addToGpr (r q : BitVec 2) (b : Word) (s : State) :
    (s.addToGpr r b).gpr q = if q = r then sumWord (s.gpr r) b else s.gpr q := by
  simp [State.addToGpr]

theorem State.addToGpr_cc (r : BitVec 2) (b : Word) (s : State) :
    (s.addToGpr r b).cc = { s.cc with overflow := s.cc.overflow || addOverflows (s.gpr r) b (sumWord (s.gpr r) b) } :=
  rfl

@[simp] theorem State.addToGpr_ixrs (r : BitVec 2) (b : Word) (s : State) : (s.addToGpr r b).ixrs = s.ixrs := rfl
@[simp] theorem State.addToGpr_frs (r : BitVec 2) (b : Word) (s : State) : (s.addToGpr r b).frs = s.frs := rfl
@[simp] theorem State.addToGpr_carry (r : BitVec 2) (b : Word) (s : State) : (s.addToGpr r b).carry = s.carry := rfl
@[simp] theorem State.addToGpr_mem (r : BitVec 2) (b : Word) (s : State) : (s.addToGpr r b).mem = s.mem := rfl

theorem State.addToGpr_staysInPlace (r : BitVec 2) (b : Word) (s : State) : StaysInPlace s (s.addToGpr r b) :=
  (State.setGpr_staysInPlace ..).trans (State.noteOverflow_staysInPlace ..)

/-! ### GPR[R] <- GPR[R] - b, with UNDERFLOW -/

/-- What SMR and SIR do with their operand; `exec_smr_of_ok` and `exec_sir` tie it to the instructions. -/
def State.subtractFromGpr (r : BitVec 2) (b : Word) (s : State) : State :=
  (s.setGpr r (differenceWord (s.gpr r) b)).noteUnderflow (subUnderflows (s.gpr r) b (differenceWord (s.gpr r) b))

@[simp] theorem State.gpr_subtractFromGpr (r q : BitVec 2) (b : Word) (s : State) :
    (s.subtractFromGpr r b).gpr q = if q = r then differenceWord (s.gpr r) b else s.gpr q := by
  simp [State.subtractFromGpr]

theorem State.subtractFromGpr_cc (r : BitVec 2) (b : Word) (s : State) :
    (s.subtractFromGpr r b).cc =
      { s.cc with underflow := s.cc.underflow || subUnderflows (s.gpr r) b (differenceWord (s.gpr r) b) } :=
  rfl

@[simp] theorem State.subtractFromGpr_ixrs (r : BitVec 2) (b : Word) (s : State) :
    (s.subtractFromGpr r b).ixrs = s.ixrs := rfl
@[simp] theorem State.subtractFromGpr_frs (r : BitVec 2) (b : Word) (s : State) :
    (s.subtractFromGpr r b).frs = s.frs := rfl
@[simp] theorem State.subtractFromGpr_carry (r : BitVec 2) (b : Word) (s : State) :
    (s.subtractFromGpr r b).carry = s.carry := rfl
@[simp] theorem State.subtractFromGpr_mem (r : BitVec 2) (b : Word) (s : State) :
    (s.subtractFromGpr r b).mem = s.mem := rfl

theorem State.subtractFromGpr_sameMemorySide (r : BitVec 2) (b : Word) (s : State) :
    SameMemorySide s (s.subtractFromGpr r b) :=
  ⟨rfl, rfl, rfl, rfl⟩

theorem State.subtractFromGpr_staysInPlace (r : BitVec 2) (b : Word) (s : State) :
    StaysInPlace s (s.subtractFromGpr r b) :=
  (State.setGpr_staysInPlace ..).trans (State.noteUnderflow_staysInPlace ..)

/-- Subtracting 0 writes GPR[R] back and does not underflow. -/
theorem State.subtractFromGpr_zero (r : BitVec 2) (s : State) : s.subtractFromGpr r 0 = s := by
  rw [State.subtractFromGpr, differenceWord_zero, subUnderflows_self, State.setGpr_gpr_self, State.noteUnderflow_false]

/-! ## AMR (R121) and SMR (R122) -/

/-- The operand that an instruction reads at its effective address, after an indirect resolution too. -/
theorem State.memRead_resolveEA_value {s : State} (hinv : s.CacheInv) (ix : BitVec 2) (ind : Bool) (addr : BitVec 5)
    (a : Address) : ((s.resolveEA ix ind addr).2.memRead a).1 = s.word a :=
  (State.memRead_value (State.resolveEA_cacheInv hinv ix ind addr) a).trans (State.word_resolveEA ..)

theorem State.memRead_resolveEA_staysInPlace (ix : BitVec 2) (ind : Bool) (addr : BitVec 5) (a : Address) (s : State) :
    StaysInPlace s ((s.resolveEA ix ind addr).2.memRead a).2 :=
  (State.resolveEA_staysInPlace ..).trans (State.memRead_staysInPlace ..)

theorem exec_amr_of_ok {r ix : BitVec 2} {ind : Bool} {addr : BitVec 5} {s : State} {ea : Address} (hinv : s.CacheInv)
    (hea : (s.resolveEA ix ind addr).1 = .ok ea) :
    exec (.amr r ix ind addr) s =
      .next (((s.resolveEA ix ind addr).2.memRead ea).2.addToGpr r (s.word ea)).counted := by
  have run : exec (.amr r ix ind addr) s = _ := withEA_ok hea
  simp only [run, State.memRead_resolveEA_value hinv, State.addToGpr, State.gpr_memRead, State.completed_eq]

theorem exec_smr_of_ok {r ix : BitVec 2} {ind : Bool} {addr : BitVec 5} {s : State} {ea : Address} (hinv : s.CacheInv)
    (hea : (s.resolveEA ix ind addr).1 = .ok ea) :
    exec (.smr r ix ind addr) s =
      .next (((s.resolveEA ix ind addr).2.memRead ea).2.subtractFromGpr r (s.word ea)).counted := by
  have run : exec (.smr r ix ind addr) s = _ := withEA_ok hea
  simp only [run, State.memRead_resolveEA_value hinv, State.subtractFromGpr, State.gpr_memRead, State.completed_eq]

/-- Settles O28. -/
theorem amrAddsMemory : Obligations.AmrAddsMemory := by
  refine ⟨fun w hw => decode_of_opcodeField_eq (m := .amr) (by decide) hw, fun r ix ind addr s =>
    ⟨fun ea hinv hea => ⟨_, exec_amr_of_ok hinv hea, ?sum, ?flags, ?otherGprs, ?ixrs, ?frs, ?carry, ?memory, ?control⟩,
      fun e he => withEA_aborts_of_error he _⟩⟩
  case sum => simp [sumWord_toNat]
  case flags => simp [State.addToGpr_cc, setOnly_eq_ite addOverflows_iff]
  case otherGprs => intro q hq; simp [hq]
  case ixrs => simp
  case frs => simp
  case carry => simp
  case memory => intro a; simp
  case control => exact ((State.memRead_resolveEA_staysInPlace ..).trans (State.addToGpr_staysInPlace ..)).counted

/-- Settles O29. -/
theorem smrSubtractsMemory : Obligations.SmrSubtractsMemory := by
  refine ⟨fun w hw => decode_of_opcodeField_eq (m := .smr) (by decide) hw, fun r ix ind addr s =>
    ⟨fun ea hinv hea =>
      ⟨_, exec_smr_of_ok hinv hea, ?difference, ?flags, ?otherGprs, ?ixrs, ?frs, ?carry, ?memory, ?control⟩,
      fun e he => withEA_aborts_of_error he _⟩⟩
  case difference => simp [differenceWord_toNat]
  case flags => simp [State.subtractFromGpr_cc, setOnly_eq_ite subUnderflows_iff]
  case otherGprs => intro q hq; simp [hq]
  case ixrs => simp
  case frs => simp
  case carry => simp
  case memory => intro a; simp
  case control => exact ((State.memRead_resolveEA_staysInPlace ..).trans (State.subtractFromGpr_staysInPlace ..)).counted

/-! ## SIR (R124) -/

/-- One equation for every immediate: R124's no-op on 0 is the subtraction of 0. -/
theorem exec_sir (r : BitVec 2) (k : BitVec 5) (s : State) :
    exec (.sir r k) s = .next (s.subtractFromGpr r (immediateWord k)).counted := by
  by_cases hk : k = 0
  case neg => exact if_neg hk
  case pos =>
    have zero : immediateWord k = 0 := by rw [hk]; rfl
    rw [zero, State.subtractFromGpr_zero]
    exact if_pos hk

/-- Settles O31. -/
theorem sirSubtractsImmediate : Obligations.SirSubtractsImmediate := by
  refine ⟨fun w hw => decode_of_opcodeField_eq (m := .sir) (by decide) hw, fun r k s =>
    ⟨_, exec_sir r k s, ?difference, ?flags, ?zero, ?otherGprs, ?ixrs, ?frs, ?carry, ?memorySide, ?control⟩⟩
  case difference => simp [differenceWord_toNat, immediateWord_toNat]
  case flags => simp [State.subtractFromGpr_cc, setOnly_eq_ite subUnderflows_immediateWord_iff]
  case zero =>
    rintro rfl
    have unchanged : s.subtractFromGpr r (immediateWord 0) = s := State.subtractFromGpr_zero r s
    rw [unchanged]
    exact ⟨State.gpr_counted s r, State.counted_cc s⟩
  case otherGprs => intro q hq; simp [hq]
  case ixrs => simp
  case frs => simp
  case carry => simp
  case memorySide => exact { State.subtractFromGpr_sameMemorySide r (immediateWord k) s with }
  case control => exact (State.subtractFromGpr_staysInPlace ..).counted

end Sys2Proof.Machine

/-! PROOFS. The statements on the predictor and the plain jumps (spec/43_branches.md R127 to R131, R136 to R143): the
counters of the BHT, and one lemma for every branch whose outcome is a condition on the registers. -/

namespace Sys2Proof.Machine

/-! ## The predictor's counters (R136 to R138) -/

/-- The model's index is R136's mask of the branch address. -/
theorem bhtIndex_val_eq_and (a : Nat) : (bhtIndex a).val = a &&& 0x7F :=
  (Nat.and_two_pow_sub_one_eq_mod a 7).symm

theorem State.bht_getElem_eq_counter (s : State) {k : Nat} (hk : k < 128) : s.bht[k] = s.counter k := by
  have index : (bhtIndex k).val = k := Nat.mod_eq_of_lt hk
  simp only [State.counter, Fin.getElem_fin, index]

/-- Settles O20. -/
theorem predictorCounterSaturates : Obligations.PredictorCounterSaturates := by
  refine ⟨fun s a => ?predict, fun s a taken k hk => ?update⟩
  case predict =>
    simp only [← bhtIndex_val_eq_and]
    exact State.predict_iff a s
  case update =>
    rw [State.bht_getElem_eq_counter _ hk, State.bht_getElem_eq_counter _ hk, State.counter_updateCounter,
      Nat.mod_eq_of_lt hk, ← bhtIndex_val_eq_and, bhtIndex_val]
    by_cases entry : k = a % 128
    case neg => rw [if_neg entry, if_neg entry]
    case pos =>
      rw [if_pos entry, if_pos entry, saturate_toNat]
      cases taken
      case true => rfl
      case false =>
        simp only [Bool.false_eq_true, if_false]
        omega

/-! ## A branch at its effective address (R127) -/

/-- `Branched` reads its start state only where an instruction under way leaves it alone: EA resolution, and a register
that the branch writes before it commits, may come first. -/
theorem Branched.of_staysInPlace {ia target : Nat} {taken : Bool} {s u t : State} (h : StaysInPlace s u)
    (hmem : u.mem = s.mem) (b : Branched ia taken target u t) : Branched ia taken target s t where
  pc := b.pc
  predictions := by rw [b.predictions, h.predictions]
  correct := by rw [b.correct, h.correct, State.counter_congr h.bht]
  counter k hk := by rw [b.counter k hk, State.counter_congr h.bht]
  runState := b.runState.trans h.runState
  pending := b.pending.trans h.pending
  faults := b.faults.trans h.faults
  refused := b.refused.trans h.refused
  status := b.status.trans h.status
  ir := b.ir.trans h.ir
  icount := by rw [b.icount, h.icount]
  memory a := by rw [b.memory a, hmem]

/-- The end of a branch that resolved its effective address in `s` and writes no register. -/
theorem commit_resolveEA_branched {ia : Nat} {s : State} (hpc : s.pc = some (ia + 1)) (ix : BitVec 2) (ind : Bool)
    (addr : BitVec 5) (taken : Bool) (target : Nat) :
    ∃ t, commit taken target (s.resolveEA ix ind addr).2 = .next t ∧ Branched ia taken target s t ∧ t.gprs = s.gprs ∧
      SameOtherRegs s t := by
  have resolvedPc : (s.resolveEA ix ind addr).2.pc = some (ia + 1) := (State.resolveEA_pc ..).trans hpc
  obtain ⟨t, run, branched, gprs, regs⟩ := commit_branched resolvedPc taken target
  refine ⟨t, run, branched.of_staysInPlace (State.resolveEA_staysInPlace ..) (State.resolveEA_mem ..),
    gprs.trans (State.resolveEA_gprs ..), ?regs⟩
  exact {
    ixrs := regs.ixrs.trans (State.resolveEA_ixrs ..)
    frs := regs.frs.trans (State.resolveEA_frs ..)
    cc := regs.cc.trans (State.resolveEA_cc ..)
    carry := regs.carry.trans (State.resolveEA_carry ..) }

/-! ## JZ, JNE, JCC and JMA (R128 to R131) -/

/-- All that a branch on a condition `cond` of the state does, its outcome known: it branches at a legal effective
address and aborts at any other, whatever the outcome. -/
theorem withEA_commit_branches_or_aborts {ia : Nat} {s : State} (hpc : s.pc = some (ia + 1)) {ix : BitVec 2} {ind : Bool}
    {addr : BitVec 5} {cond : State → Bool} {taken : Bool} (hcond : cond (s.resolveEA ix ind addr).2 = taken) :
    (∀ ea, (s.resolveEA ix ind addr).1 = .ok ea →
      ∃ t, withEA ix ind addr s (fun ea u => commit (cond u) ea.toNat u) = .next t ∧
        Branched ia taken ea.toNat s t ∧ t.gprs = s.gprs ∧ SameOtherRegs s t) ∧
    (∀ e, (s.resolveEA ix ind addr).1 = .error e →
      ∃ t, withEA ix ind addr s (fun ea u => commit (cond u) ea.toNat u) = .next t ∧ Aborted e s t) := by
  refine ⟨fun ea hea => ?ok, fun e he => withEA_aborts_of_error he _⟩
  rw [withEA_ok hea, hcond]
  exact commit_resolveEA_branched hpc ix ind addr taken ea.toNat

/-- Settles O32: each jump is `withEA` and `commit` on its condition, which EA resolution leaves as it was. -/
theorem jumpsBranchOnTheirCondition : Obligations.JumpsBranchOnTheirCondition := by
  refine ⟨⟨fun w hw => decode_of_opcodeField_eq (m := .jz) (by decide) hw,
    fun w hw => decode_of_opcodeField_eq (m := .jne) (by decide) hw,
    fun w hw => decode_of_opcodeField_eq (m := .jcc) (by decide) hw,
    fun w hw => decode_of_opcodeField_eq (m := .jma) (by decide) hw⟩, fun r ix ind addr s ia i taken hpc jump => ?_⟩
  obtain ⟨rfl, rfl⟩ | ⟨rfl, rfl⟩ | ⟨rfl, rfl⟩ | ⟨rfl, rfl⟩ := jump
  · exact withEA_commit_branches_or_aborts hpc (cond := fun u => u.gpr r == 0)
      (by simp only [State.gpr_resolveEA, beq_eq_decide])
  · exact withEA_commit_branches_or_aborts hpc (cond := fun u => u.gpr r != 0)
      (by simp only [State.gpr_resolveEA, bne, beq_eq_decide, ne_eq, decide_not])
  · exact withEA_commit_branches_or_aborts hpc (cond := fun u => u.ccBit r) (State.ccBit_resolveEA ..)
  · exact withEA_commit_branches_or_aborts hpc (cond := fun _ => true) rfl

end Sys2Proof.Machine

/-! PROOFS. The statement on the logical operations (spec/44_register_register.md R148 to R150): one frame for every
instruction whose only effect is a write of one general register. -/

namespace Sys2Proof.Machine

/-- All that an instruction leaves alone which writes GPR[R] and completes. -/
theorem State.setGpr_counted_frame (r : BitVec 2) (v : Word) (s : State) :
    SameGprsBut r s (s.setGpr r v).counted ∧ SameOtherRegs s (s.setGpr r v).counted ∧
      SameMemorySide s (s.setGpr r v).counted ∧ CompletesInPlace s (s.setGpr r v).counted := by
  refine ⟨?otherGprs, ?otherRegs, ?memorySide, (State.setGpr_staysInPlace r v s).counted⟩
  case otherGprs => intro q hq; simp [hq]
  case otherRegs => constructor <;> simp
  case memorySide => constructor <;> simp

theorem State.gpr_setGpr_counted_same (r : BitVec 2) (v : Word) (s : State) : (s.setGpr r v).counted.gpr r = v := by
  simp

/-! ## AND (R148), ORR (R149) and NOT (R150) -/

theorem exec_and (rx ry : BitVec 2) (s : State) :
    exec (.and rx ry) s = .next (s.setGpr rx (s.gpr rx &&& s.gpr ry)).counted := rfl

theorem exec_orr (rx ry : BitVec 2) (s : State) :
    exec (.orr rx ry) s = .next (s.setGpr rx (s.gpr rx ||| s.gpr ry)).counted := rfl

theorem exec_not (rx : BitVec 2) (s : State) :
    exec (.not rx) s = .next (s.setGpr rx (~~~ (s.gpr rx))).counted := rfl

/-- R150's complement as the subtraction from 0xFFFF. -/
theorem complement_toNat (a : Word) : (~~~ a).toNat = 65535 - a.toNat := BitVec.toNat_not

/-- Settles O40: each operation writes its word to GPR[RX] and completes, so the frame is that of one register write; a
register combined with itself is unchanged. -/
theorem logicalOperations : Obligations.LogicalOperations := by
  refine ⟨⟨fun w hw => decode_of_opcodeField_eq (m := .and) (by decide) hw,
    fun w hw => decode_of_opcodeField_eq (m := .orr) (by decide) hw,
    fun w hw => decode_of_opcodeField_eq (m := .not) (by decide) hw⟩, fun rx ry s =>
    ⟨⟨_, exec_and rx ry s, fun k => ?andBits, ?andSelf, State.setGpr_counted_frame ..⟩,
      ⟨_, exec_orr rx ry s, fun k => ?orBits, ?orSelf, State.setGpr_counted_frame ..⟩,
      ⟨_, exec_not rx s, ?complement, State.setGpr_counted_frame ..⟩⟩⟩
  case andBits => rw [State.gpr_setGpr_counted_same, BitVec.getLsbD_and]
  case andSelf => rintro rfl; rw [State.gpr_setGpr_counted_same, BitVec.and_self]
  case orBits => rw [State.gpr_setGpr_counted_same, BitVec.getLsbD_or]
  case orSelf => rintro rfl; rw [State.gpr_setGpr_counted_same, BitVec.or_self]
  case complement => rw [State.gpr_setGpr_counted_same, complement_toNat]

end Sys2Proof.Machine

/-! PROOFS. The statement on HLT (spec/47_io_control.md R174): its two readings of a word (R92) and its effect. -/

namespace Sys2Proof

/-- Opcode 0 selects HLT under the course map, and `HLT_MATCH` decides the rest (R92). -/
theorem decodeWith_of_opcodeField_zero (hlt : HltMatch) {w : Word} (hw : opcodeField w = 0) :
    decodeWith courseOpcode hlt w = decodeHlt hlt w :=
  decodeWith_of_opcodeField_eq courseOpcode_injective (m := .hlt) hlt hw.symm

theorem decodeHlt_opcode (w : Word) : decodeHlt .opcode w = .instr .hlt := rfl

theorem decodeHlt_zero (hlt : HltMatch) : decodeHlt hlt 0 = .instr .hlt := by
  cases hlt with
  | opcode => exact decodeHlt_opcode 0
  | wholeWord => rfl

end Sys2Proof

namespace Sys2Proof.Machine

theorem exec_hlt (s : State) : exec .hlt s = .next { s with runState := .halted }.counted := rfl

/-- Settles O51: opcode 0 leaves the word to the reading of HLT, which takes every word under `opcode` and 0x0000 under
both; the completion adds only the count to the halt. -/
theorem hltHalts : Obligations.HltHalts := by
  refine ⟨fun w hw => ?byOpcode, fun hlt => ?zeroWord, exec_hlt⟩
  case byOpcode => exact (decodeWith_of_opcodeField_zero .opcode hw).trans (decodeHlt_opcode w)
  case zeroWord => exact (decodeWith_of_opcodeField_zero hlt (by decide)).trans (decodeHlt_zero hlt)

end Sys2Proof.Machine

/-! PROOFS. The statement on Reset (spec/70_reset_and_hazards.md R191): one lemma for what each read of the machine
returns in the state of 10_state.md R38. The elements without a read function of their own are fields of `State.reset`. -/

namespace Sys2Proof.Machine

/-! ## Registers and flags -/

theorem State.reset_gpr (r : BitVec 2) : State.reset.gpr r = 0 := Vector.getElem_replicate r.toFin.isLt

theorem State.reset_ixr (x : IndexReg) : State.reset.ixr x = 0 := by cases x <;> rfl

theorem State.reset_fr (f : FloatReg) : State.reset.fr f = 0 := by cases f <;> rfl

theorem State.reset_ccBit (k : BitVec 2) : State.reset.ccBit k = false := by
  simp only [State.ccBit, State.reset, ite_self]

/-! ## Memory, cache and predictor -/

/-- An address that the empty array does not list holds 0. -/
theorem State.reset_word (a : Address) : State.reset.word a = 0 := rfl

theorem State.reset_line (i : Fin 16) : State.reset.cache.lines[i] = CacheLine.empty :=
  Vector.getElem_replicate i.isLt

theorem CacheLine.empty_data (k : Fin 8) : CacheLine.empty.data[k] = 0 := Vector.getElem_replicate k.isLt

theorem State.reset_cacheLine (i : Fin 16) :
    State.reset.cache.lines[i].valid = false ∧ State.reset.cache.lines[i].tag = 0 ∧
      ∀ k : Fin 8, State.reset.cache.lines[i].data[k] = 0 := by
  rw [State.reset_line]
  exact ⟨rfl, rfl, CacheLine.empty_data⟩

theorem State.reset_order :
    State.reset.cache.order = [0, 1, 2, 3, 4, 5, 6, 7, 8, 9, 10, 11, 12, 13, 14, 15] := by decide

theorem State.reset_counter (a : Nat) : State.reset.counter a = 1 := Vector.getElem_replicate (bhtIndex a).isLt

/-! ## The command (R191) -/

theorem command_reset (s : State) : command .reset s = .ran (.next State.reset) := rfl

/-- Settles O6: Reset answers the same state from every state, and each read of that state is one of the lemmas above. -/
theorem resetAssignsEveryElement : Obligations.ResetAssignsEveryElement := by
  refine fun s => ⟨State.reset, command_reset s, State.reset_gpr, State.reset_ixr, State.reset_fr, State.reset_ccBit,
    ?carry, ?pc, ?ir, ?mar, ?mbr, State.reset_word, State.reset_cacheLine, State.reset_order, State.reset_counter,
    ?predictions, ?correct, ?pending, ?runState, ?icount, ?faults, ?refused⟩
  all_goals rfl

end Sys2Proof.Machine

/-! PROOFS. The statements on the encoding (spec/30_encoding.md sections 3 and 4): the layouts as numbers, the round trip
under every opcode map, and the bits that decoding reads. -/

namespace Sys2Proof

/-! ## The layouts as numbers (R98) -/

theorem formatL_toNat (op : BitVec 6) (r ix : BitVec 2) (ind : Bool) (addr : BitVec 5) :
    (formatL op r ix ind addr).toNat =
      op.toNat * 1024 + r.toNat * 256 + ix.toNat * 64 + ind.toNat * 32 + addr.toNat := by
  simp only [formatL, toNat_append_mul, BitVec.toNat_ofBool]
  omega

theorem formatI_toNat (op : BitVec 6) (r : BitVec 2) (low : BitVec 5) :
    (formatI op r low).toNat = op.toNat * 1024 + r.toNat * 256 + low.toNat := by
  simp only [formatI, toNat_append_mul, BitVec.ofNat_eq_ofNat, BitVec.toNat_ofNat]
  omega

theorem formatRR_toNat (op : BitVec 6) (rx ry : BitVec 2) :
    (formatRR op rx ry).toNat = op.toNat * 1024 + rx.toNat * 256 + ry.toNat * 64 := by
  simp only [formatRR, toNat_append_mul, BitVec.ofNat_eq_ofNat, BitVec.toNat_ofNat]
  omega

theorem formatS_toNat (op : BitVec 6) (r : BitVec 2) (al lr : Bool) (count : BitVec 4) :
    (formatS op r al lr count).toNat =
      op.toNat * 1024 + r.toNat * 256 + al.toNat * 128 + lr.toNat * 64 + count.toNat := by
  simp only [formatS, toNat_append_mul, BitVec.toNat_ofBool, BitVec.ofNat_eq_ofNat, BitVec.toNat_ofNat]
  omega

theorem formatN_toNat (op : BitVec 6) : (formatN op).toNat = op.toNat * 1024 := by
  simp only [formatN, toNat_append_mul, BitVec.ofNat_eq_ofNat, BitVec.toNat_ofNat]
  omega

/-- Settles O2: each instruction's word is one of the layouts, its ignored fields 0. -/
theorem encodedWordFollowsFormula : Obligations.EncodedWordFollowsFormula := by
  refine ⟨formatL_toNat, formatI_toNat, formatRR_toNat, formatS_toNat, fun map r ix ind al lr low count =>
    ⟨?addressed, ?indexed, ?immediate, ?rfs, ?pairs, ?not, ?shifts, formatN_toNat (map .hlt)⟩⟩
  case addressed =>
    simp only [List.forall_mem_cons, List.not_mem_nil, false_imp_iff, implies_true, encodeWith, formatL_toNat, and_self]
  case indexed =>
    have noR (op : BitVec 6) : (formatL op 0 ix ind low).toNat = op.toNat * 1024 + ix.toNat * 64 + ind.toNat * 32 + low.toNat := by
      simp [formatL_toNat]
    simp only [List.forall_mem_cons, List.not_mem_nil, false_imp_iff, implies_true, encodeWith, noR, and_self]
  case immediate =>
    simp only [List.forall_mem_cons, List.not_mem_nil, false_imp_iff, implies_true, encodeWith, formatI_toNat, and_self]
  case rfs => simp [encodeWith, formatI_toNat]
  case pairs =>
    simp only [List.forall_mem_cons, List.not_mem_nil, false_imp_iff, implies_true, encodeWith, formatRR_toNat, and_self]
  case not => simp [encodeWith, formatRR_toNat]
  case shifts =>
    simp only [List.forall_mem_cons, List.not_mem_nil, false_imp_iff, implies_true, encodeWith, formatS_toNat, and_self]

/-! ## The round trip (R90, R98) -/

/-- The encoded word holds its mnemonic's opcode, whatever the map. -/
theorem opcodeField_encodeWith (map : OpcodeMap) (i : Instr) : opcodeField (encodeWith map i) = map i.mnemonic := by
  cases i <;>
    simp only [encodeWith, Instr.mnemonic, opcodeField_formatL, opcodeField_formatI, opcodeField_formatRR,
      opcodeField_formatS, opcodeField_formatN]

/-- The fields that an instruction's format reads from its encoded word are its operands. -/
theorem instrOf_encodeWith (map : OpcodeMap) (i : Instr) : instrOf i.mnemonic (encodeWith map i) = i := by
  cases i <;>
    simp only [encodeWith, Instr.mnemonic, instrOf, rField_formatL, ixField_formatL, iField_formatL, lowField_formatL,
      rField_formatI, lowField_formatI, rField_formatRR, ixField_formatRR, rField_formatS, alField_formatS,
      lrField_formatS, countField_formatS]

theorem Instr.eq_hlt_of_mnemonic {i : Instr} (h : i.mnemonic = .hlt) : i = .hlt := by
  cases i <;> simp_all [Instr.mnemonic]

/-- Settles O1: the word's opcode selects the instruction's own mnemonic, whose format reads the operands back; HLT's word
is 0x0000, which both readings of `HLT_MATCH` take as HLT. -/
theorem decodeInvertsEncode : Obligations.DecodeInvertsEncode := by
  intro map hinj hzero hlt i
  rw [decodeWith_of_opcodeField_eq hinj hlt (opcodeField_encodeWith map i).symm]
  by_cases hi : i.mnemonic = .hlt
  case neg => rw [if_neg hi, instrOf_encodeWith]
  case pos =>
    obtain rfl := Instr.eq_hlt_of_mnemonic hi
    have word : encodeWith map .hlt = 0 := by rw [encodeWith, hzero]; rfl
    rw [if_pos hi, word, decodeHlt_zero]

/-! ## The bits that decoding reads (R91) -/

/-- A field whose bits a mask names reads the same from the masked word. -/
theorem extractLsb'_and_of_named {w k : Word} {i n : Nat} (h : k.extractLsb' i n = BitVec.allOnes n) :
    (w &&& k).extractLsb' i n = w.extractLsb' i n := by
  rw [BitVec.extractLsb'_and, h, BitVec.and_allOnes]

theorem getLsbD_and_of_named {w k : Word} {i : Nat} (h : k.getLsbD i = true) : (w &&& k).getLsbD i = w.getLsbD i := by
  rw [BitVec.getLsbD_and, h, Bool.and_true]

end Sys2Proof

namespace Sys2Proof.Machine

/-- Every instruction's named bits hold the opcode. -/
theorem opcodeField_and_usedBits (m : Mnemonic) (w : Word) : opcodeField (w &&& usedBits m) = opcodeField w :=
  extractLsb'_and_of_named (by cases m <;> decide)

/-- An instruction's format reads only the bits that its encoding names. -/
theorem instrOf_and_usedBits (m : Mnemonic) (w : Word) : instrOf m (w &&& usedBits m) = instrOf m w := by
  cases m <;>
    simp (disch := decide) only [instrOf, usedBits, rField, ixField, iField, lowField, alField, lrField, countField,
      extractLsb'_and_of_named, getLsbD_and_of_named]

/-- Under the default `HLT_MATCH` a word that holds a mnemonic's course opcode decodes by that mnemonic's format. -/
theorem decode_eq_instrOf {m : Mnemonic} {w : Word} (hw : opcodeField w = courseOpcode m) : decode w = .instr (instrOf m w) := by
  by_cases hm : m = .hlt
  case neg => exact decode_of_opcodeField_eq hm hw
  case pos =>
    subst hm
    exact (decodeWith_of_opcodeField_zero .opcode hw).trans (decodeHlt_opcode w)

/-- Settles O4: the named bits give the opcode, which selects the format, and the format's fields. -/
theorem unusedBitsNeverMatter : Obligations.UnusedBitsNeverMatter := by
  intro m v w hv hvw
  have hw : opcodeField w = courseOpcode m := by
    rw [← opcodeField_and_usedBits m, ← hvw, opcodeField_and_usedBits m, hv]
  rw [decode_eq_instrOf hv, decode_eq_instrOf hw, ← instrOf_and_usedBits m v, hvw, instrOf_and_usedBits]

/-- Settles O5, word by word. -/
theorem specWordsDecode : Obligations.SpecWordsDecode := by
  refine ⟨?_, ?_, ?_, ?_, ?_, ?_, ?_, ?_, ?_, ?_, ?_, ?_, ?_⟩ <;> decide

end Sys2Proof.Machine

/-! PROOFS. The statements on steps and on the invariant (spec/40_execution_cycle.md sections 1 and 2, spec/10_state.md
sections 5 and 6): all that a step can do, one lemma per shape, and what every instruction and command keeps. -/

namespace Sys2Proof.Machine

/-! ## All that a step can do (R99, R104 to R106) -/

theorem fetchAddress_of_address {pc : Option Nat} {a : Address} (h : pc = some a.toNat) : fetchAddress pc = .ok a := by
  have bound : ¬ memorySize ≤ a.toNat := Nat.not_le.mpr a.isLt
  simp only [h, fetchAddress, if_neg bound, BitVec.ofNat_toNat, BitVec.setWidth_eq]

theorem fetchAddress_of_past {pc : Option Nat} {a : Nat} (h : pc = some a) (ha : 2048 ≤ a) :
    fetchAddress pc = .error .addressOutOfRange := by
  have past : memorySize ≤ a := ha
  simp only [h, fetchAddress, if_pos past]

/-- A fetch succeeds at an address only. -/
theorem pc_of_fetchAddress_ok {pc : Option Nat} {a : Address} (h : fetchAddress pc = .ok a) : pc = some a.toNat := by
  cases pc with
  | none => cases h
  | some n =>
    unfold fetchAddress at h
    dsimp only at h
    split at h
    next => cases h
    next hn =>
      have bound : n < 2048 := Nat.not_le.mp hn
      cases h
      rw [BitVec.toNat_ofNat, Nat.mod_eq_of_lt bound]

theorem step_of_waiting {s : State} (h : s.runState = .waitingForInput) : step s = .next s := by
  simp only [step, State.beginStep, h]

theorem State.beginStep_of_not_waiting {s : State} (h : s.runState ≠ .waitingForInput) : s.beginStep = s.fetchDecode :=
  s.beginStep_cases.elim (fun hw => absurd hw.1 h) And.right

theorem step_of_fetchFault {s : State} {e : Fault} (h : s.runState ≠ .waitingForInput) (hf : fetchAddress s.pc = .error e) :
    step s = .next (s.recordFault e s.pc) := by
  simp only [step, State.beginStep_of_not_waiting h, State.fetchDecode, hf]

theorem step_of_instr {s : State} {a : Address} {i : Instr} (h : s.runState ≠ .waitingForInput)
    (hf : fetchAddress s.pc = .ok a) (hd : decode (s.word a) = .instr i) : step s = exec i (s.advance a) := by
  simp only [step, State.beginStep_of_not_waiting h, State.fetchDecode, hf, hd]

theorem step_of_inert {s : State} {a : Address} {op : BitVec 6} (h : s.runState ≠ .waitingForInput)
    (hf : fetchAddress s.pc = .ok a) (hd : decode (s.word a) = .inert op) :
    step s = execInert (s.word a) (s.advance a) := by
  simp only [step, State.beginStep_of_not_waiting h, State.fetchDecode, hf, hd]

/-- The four shapes of a step. -/
theorem step_cases (s : State) :
    (s.runState = .waitingForInput ∧ step s = .next s) ∨
      (s.runState ≠ .waitingForInput ∧
        ((∃ e, fetchAddress s.pc = .error e ∧ step s = .next (s.recordFault e s.pc)) ∨
          (∃ a i, fetchAddress s.pc = .ok a ∧ decode (s.word a) = .instr i ∧ step s = exec i (s.advance a)) ∨
          ∃ a op, fetchAddress s.pc = .ok a ∧ decode (s.word a) = .inert op ∧
            step s = execInert (s.word a) (s.advance a))) := by
  by_cases h : s.runState = .waitingForInput
  · exact .inl ⟨h, step_of_waiting h⟩
  · refine .inr ⟨h, ?_⟩
    rcases s.fetchDecode_cases with ⟨e, hf, _⟩ | ⟨a, i, hf, hd, _⟩ | ⟨a, op, hf, hd, _⟩
    · exact .inl ⟨e, hf, step_of_fetchFault h hf⟩
    · exact .inr (.inl ⟨a, i, hf, hd, step_of_instr h hf hd⟩)
    · exact .inr (.inr ⟨a, op, hf, hd, step_of_inert h hf hd⟩)

/-- Settles O8: the state that `advance` leaves, its latches by the default policy. -/
theorem stepRunsDecodedInstruction : Obligations.StepRunsDecodedInstruction :=
  fun _ _ _ hrun hpc hd => step_of_instr hrun (fetchAddress_of_address hpc) hd

/-- Settles O9. -/
theorem inertWordOnlyAdvances : Obligations.InertWordOnlyAdvances := by
  intro s a hrun hpc hop
  have inert : decode (s.word a) = .inert (opcodeField (s.word a)) := decodeWith_of_opcodeField_ne defaultHltMatch hop
  exact ⟨_, step_of_inert hrun (fetchAddress_of_address hpc) inert, rfl, ⟨rfl, rfl, rfl, rfl⟩, rfl, rfl, rfl, rfl, rfl,
    ⟨_, rfl⟩, rfl, rfl, rfl, rfl, rfl, rfl, rfl⟩

/-- Settles O10. -/
theorem stepWithoutFetch : Obligations.StepWithoutFetch := by
  refine ⟨fun s => step_of_waiting, fun s hrun hpc => ?unset, fun s a hrun hpc ha => ?past⟩
  case unset =>
    rw [step_of_fetchFault (e := .pcUnset) hrun (by rw [hpc]; rfl), hpc]
    simp only [State.recordFault, hpc]
  case past =>
    rw [step_of_fetchFault hrun (fetchAddress_of_past hpc ha)]
    simp only [State.recordFault, hpc]

/-! ## Who writes the IR (R26) -/

theorem exec_ir {i : Instr} {s t : State} (h : exec i s = .next t) : t.ir = s.ir := by
  obtain ⟨u, hu, ends⟩ := exec_ends i s
  obtain rfl : u = t := by simpa [hu] using h
  rcases ends with inPlace | branch | waiting
  · exact inPlace.ir
  · exact branch.ir
  · exact waiting.ir

/-- A step that fetches leaves the word fetched in the IR. -/
theorem step_ir_of_fetch {s : State} {a : Address} (hrun : s.runState ≠ .waitingForInput) (hf : fetchAddress s.pc = .ok a) :
    ∃ t, step s = .next t ∧ t.ir = some (s.word a) := by
  cases hd : decode (s.word a) with
  | instr i =>
    obtain ⟨t, ht, _⟩ := exec_ends i (s.advance a)
    exact ⟨t, (step_of_instr hrun hf hd).trans ht, exec_ir ht⟩
  | inert op => exact ⟨_, step_of_inert hrun hf hd, rfl⟩

/-- A step fetches from the PC or leaves the IR. -/
theorem step_ir {s t : State} (h : step s = .next t) : t.ir = s.ir ∨ ∃ a : Address, s.pc = some a.toNat ∧ t.ir = some (s.word a) := by
  by_cases hrun : s.runState = .waitingForInput
  · obtain rfl : s = t := by simpa [step_of_waiting hrun] using h
    exact .inl rfl
  · cases hf : fetchAddress s.pc with
    | error e =>
      obtain rfl : s.recordFault e s.pc = t := by simpa [step_of_fetchFault hrun hf] using h
      exact .inl rfl
    | ok a =>
      obtain ⟨u, hu, hir⟩ := step_ir_of_fetch hrun hf
      obtain rfl : u = t := by simpa [hu] using h
      exact .inr ⟨a, pc_of_fetchAddress_ok hf, hir⟩

/-! ## What every answer of a command satisfies -/

/-- Every state that the reply runs to satisfies `P`. -/
def Reply.Always (P : State → Prop) (r : Reply) : Prop := ∀ t, r = .ran (.next t) → P t

theorem Reply.Always.accept {P : State → Prop} {t : State} (h : P t) : Reply.Always P (accept t) := by
  rintro _ ⟨⟩; exact h

theorem Reply.Always.rejected {P : State → Prop} (why : Rejection) : Reply.Always P (.rejected why) := by
  simp [Reply.Always]

theorem Reply.Always.ran {P : State → Prop} {r : Result} (h : ∀ t, r = .next t → P t) : Reply.Always P (.ran r) := by
  rintro t ⟨⟩; exact h t rfl

theorem commandSetIxr_always {P : State → Prop} {s : State} {v : Int} (h : ∀ x, P (s.setIxr x (mask16 v))) (i : BitVec 2) :
    Reply.Always P (commandSetIxr i v s) := by
  unfold commandSetIxr
  cases IndexReg.ofSelector i with
  | some x => exact .accept (h x)
  | none => exact .rejected _

theorem panelLoadThen_always {P : State → Prop} {k : State → State} {s : State}
    (h : ∀ a, P (k { s with mbr := some (s.word a) })) : Reply.Always P (panelLoadThen k s) := by
  unfold panelLoadThen
  split
  next => exact .rejected _
  next a _ => exact .accept (h a)

theorem panelStoreThen_always {P : State → Prop} {k : State → State} {s : State} (h : ∀ a v, P (k (s.directWrite a v))) :
    Reply.Always P (panelStoreThen k s) := by
  unfold panelStoreThen
  cases s.mar with
  | none => exact .rejected _
  | some a =>
    cases s.mbr with
    | none => exact .rejected _
    | some v => exact .accept (h a v)

theorem commandLoadWord_always {P : State → Prop} {s : State} (h : ∀ a v, P (s.directWrite a v)) (a w : Nat) :
    Reply.Always P (commandLoadWord a w s) := by
  unfold commandLoadWord
  split
  · exact .rejected _
  · exact .accept (h _ _)

/-- A console submission is rejected, faults, or writes its values (R170). -/
theorem commandConsoleSubmit_always {P : State → Prop} {s : State}
    (fault : ∀ e, P { s.recordFault e s.pc with pending := none })
    (done : ∀ (p : PendingInput) (v : List Int) (r : RunState), r ≠ .waitingForInput →
      P { writeValues p.base.toNat v (writeFirst p.dest v s) with pending := none, runState := r }) (values : List Int) :
    Reply.Always P (commandConsoleSubmit values s) := by
  unfold commandConsoleSubmit
  cases s.pending with
  | none => exact .rejected _
  | some p =>
    dsimp only
    split
    · exact .rejected _
    · cases destinationError p.base.toNat p.count with
      | some e => exact .accept (fault e)
      | none => exact .accept (done p _ _ (by cases p.resumeRun <;> nofun))

theorem commandTick_always {P : State → Prop} {s : State} (stay : P s) (run : ∀ t, step s = .next t → P t) :
    Reply.Always P (.ran (commandTick s)) := by
  by_cases h : s.runState = .running
  · rw [commandTick_of_running h]; exact .ran run
  · rw [commandTick_of_not_running h]; exact .accept stay

/-! ## What a console submission writes (R170) -/

theorem writeFirst_ir (dest : BitVec 2) (values : List Int) (s : State) :
    (writeFirst dest values s).ir = s.ir := by
  cases values <;> rfl

/-- The memory writes of a submission leave everything beside memory. -/
theorem writeValues_forgetMemory (a : Nat) (vs : List Int) (s : State) :
    (writeValues a vs s).forgetMemory = s.forgetMemory := by
  induction vs generalizing a s with
  | nil => rfl
  | cons v vs ih => exact (ih (a + 1) _).trans (State.forgetMemory_memWrite _ _ s)

theorem commandTick_ir {s t : State} (h : command .tick s = .ran (.next t)) :
    t.ir = s.ir ∨ ∃ a : Address, s.pc = some a.toNat ∧ t.ir = some (s.word a) :=
  commandTick_always (P := fun u => u.ir = s.ir ∨ ∃ a : Address, s.pc = some a.toNat ∧ u.ir = some (s.word a))
    (.inl rfl) (fun _ => step_ir) t h

theorem commandRun_ir (s : State) : (commandRun s).ir = s.ir := by
  unfold commandRun; split <;> rfl

/-- A command that is no step, no tick and no Reset leaves the IR. -/
theorem command_ir {c : Command} (hs : c ≠ .step) (ht : c ≠ .tick) (hr : c ≠ .reset) (s : State) :
    (command c s).Always fun t => t.ir = s.ir := by
  cases c with
  | setGpr i v => exact .accept rfl
  | setIxr i v => exact commandSetIxr_always (fun x => State.setIxr_ir x _ s) i
  | setPc v => exact .accept rfl
  | setMar v => exact .accept rfl
  | setMbr v => exact .accept rfl
  | step => exact absurd rfl hs
  | run => exact .accept (commandRun_ir s)
  | tick => exact absurd rfl ht
  | halt => exact .accept rfl
  | reset => exact absurd rfl hr
  | panelLoad => exact panelLoadThen_always fun _ => rfl
  | panelStore => exact panelStoreThen_always fun _ _ => rfl
  | panelLoadPlus => exact panelLoadThen_always fun _ => rfl
  | panelStorePlus => exact panelStoreThen_always fun _ _ => rfl
  | loadWord a w => exact commandLoadWord_always (fun _ _ => rfl) a w
  | consoleSubmit values =>
    refine commandConsoleSubmit_always (fun _ => rfl) (fun p v _ _ => ?_) values
    exact (congrArg State.ir (writeValues_forgetMemory p.base.toNat v _)).trans (writeFirst_ir p.dest v s)

/-- Settles O12: of the commands only Reset, a step and a tick write the IR, and the last two only by their fetch. -/
theorem instructionRegisterOnlyFetched : Obligations.InstructionRegisterOnlyFetched := by
  refine ⟨fun i s t => exec_ir, fun c s t h => ?command, fun s a hrun hpc => ?fetch⟩
  case command =>
    by_cases hs : c = .step
    · subst hs
      have ran : step s = .next t := by simpa [command] using h
      exact (step_ir ran).imp_right fun fetched => .inr ⟨.inl rfl, fetched⟩
    by_cases ht : c = .tick
    · subst ht
      exact (commandTick_ir h).imp_right fun fetched => .inr ⟨.inr rfl, fetched⟩
    by_cases hr : c = .reset
    · exact .inr (.inl hr)
    · exact .inl (command_ir hs ht hr s t h)
  case fetch =>
    obtain ⟨t, ht, hir⟩ := step_ir_of_fetch hrun (fetchAddress_of_address hpc)
    refine ⟨t, ht, hir, congrArg Reply.ran ht, fun running => ?_⟩
    exact congrArg Reply.ran ((commandTick_of_running running).trans ht)

/-! ## The invariant (R25, R28, R57) -/

/-- An operation that leaves the run state and PendingInput of a machine that does not wait, or halts it. -/
theorem pendingInv_of_not_waiting {s t : State} (h : s.PendingInv) (hs : s.runState ≠ .waitingForInput)
    (hp : t.pending = s.pending) (ht : t.runState ≠ .waitingForInput) : t.PendingInv := by
  refine ⟨fun p hpt => ?_, fun hw => absurd hw ht⟩
  obtain ⟨h1, h2, h3⟩ := h.1 p (hp ▸ hpt)
  exact ⟨h1, h2, fun _ => h3 hs⟩

theorem pendingInv_of_none {t : State} (hp : t.pending = none) (ht : t.runState ≠ .waitingForInput) : t.PendingInv :=
  ⟨by simp [hp], fun hw => absurd hw ht⟩

/-- A write that keeps the memory side and leaves control keeps the invariant. -/
theorem inv_of_sameControl {s t : State} (h : s.Inv) (hmem : t.mem.wf = true ∧ t.CacheInv) (hpc : t.pc = s.pc)
    (hpend : t.pending = s.pending) (hrun : t.runState = s.runState) (hpred : t.predictions = s.predictions)
    (hcorr : t.correct = s.correct) : t.Inv := by
  obtain ⟨_, _, pc, pend, corr⟩ := h
  refine ⟨hmem.1, hmem.2, ?_, ?_, by rw [hcorr, hpred]; exact corr⟩
  · unfold State.PcInDomain; rw [hpc]; exact pc
  · unfold State.PendingInv; rw [hpend, hrun]; exact pend

/-- A register or latch write keeps the invariant. -/
theorem inv_of_sameMemory {s t : State} (h : s.Inv) (hmem : t.mem = s.mem) (hcache : t.cache = s.cache) (hpc : t.pc = s.pc)
    (hpend : t.pending = s.pending) (hrun : t.runState = s.runState) (hpred : t.predictions = s.predictions)
    (hcorr : t.correct = s.correct) : t.Inv :=
  inv_of_sameControl h ⟨hmem ▸ h.1, (State.cacheInv_congr hmem hcache).mpr h.2.1⟩ hpc hpend hrun hpred hcorr

/-- The invariant holds where memory, cache, predictor counts and PendingInput are those after Reset. -/
theorem inv_of_clear {t : State} (hmem : t.mem = []) (hcache : t.cache = Cache.empty) (hpc : t.PcInDomain)
    (hpend : t.pending = none) (hrun : t.runState = .halted) (hcorr : t.correct = 0) : t.Inv :=
  ⟨by rw [hmem]; rfl, State.cacheInv_of_empty hcache, hpc, pendingInv_of_none hpend (by simp [hrun]), by simp [hcorr]⟩

theorem reset_inv : State.reset.Inv := inv_of_clear rfl rfl (by simp [State.PcInDomain, State.reset]) rfl rfl rfl

/-- Settles O7. -/
theorem invariantHoldsInitially : Obligations.InvariantHoldsInitially :=
  ⟨reset_inv, inv_of_clear rfl rfl (by simp [State.PcInDomain, State.powerOn]) rfl rfl rfl⟩

/-- An executing instruction's PC is the advanced one, so a branch that falls through stays in the domain. -/
theorem nextPc_le {s : State} (h : s.PcInDomain) : s.nextPc ≤ 2048 := by
  unfold State.nextPc
  cases hp : s.pc with
  | none => simp
  | some a => exact h a hp

/-- Every instruction keeps the invariant of a machine that does not wait. -/
theorem exec_inv {i : Instr} {s t : State} (h : s.Inv) (hrun : s.runState ≠ .waitingForInput) (he : exec i s = .next t) :
    t.Inv := by
  obtain ⟨u, hu, acc⟩ := exec_onlyAccesses i s
  obtain rfl : u = t := by simpa [hu] using he
  obtain ⟨v, hv, ends⟩ := exec_ends i s
  obtain rfl : v = u := by simpa [hv] using hu
  obtain ⟨wf, cache, pc, pend, corr⟩ := h
  obtain ⟨hc, hm⟩ := acc.keeps cache wf
  rcases ends with inPlace | branch | waiting
  · refine ⟨hm, hc, ?_, pendingInv_of_not_waiting pend hrun inPlace.pending ?_, ?_⟩
    · unfold State.PcInDomain; rw [inPlace.pc]; exact pc
    · rcases inPlace.runState with hr | hr <;> simp [hr, hrun]
    · rw [inPlace.correct, inPlace.predictions]; exact corr
  · refine ⟨hm, hc, fun a ha => ?_, pendingInv_of_not_waiting pend hrun branch.pending (branch.runState ▸ hrun), ?_⟩
    · obtain ⟨x, hx, hle⟩ := branch.pc
      obtain rfl : x = a := by simpa [hx] using ha
      have := nextPc_le pc
      omega
    · have := branch.correct
      rw [branch.predictions]
      omega
  · obtain ⟨p, hp, h1, h2⟩ := waiting.pending
    refine ⟨hm, hc, ?_, ⟨fun q hq => ?_, fun _ => by simp [hp]⟩, ?_⟩
    · unfold State.PcInDomain; rw [waiting.pc]; exact pc
    · obtain rfl : p = q := by simpa [hp] using hq
      exact ⟨h1, h2, fun hn => absurd waiting.runState hn⟩
    · rw [waiting.correct, waiting.predictions]; exact corr

theorem advance_inv {s : State} (h : s.Inv) (a : Address) : (s.advance a).Inv := by
  obtain ⟨wf, cache, _, pend, corr⟩ := h
  refine ⟨wf, cache, fun x hx => ?_, pend, corr⟩
  obtain rfl : a.toNat + 1 = x := by simpa using hx
  have := a.isLt
  omega

theorem recordFault_inv {s : State} (h : s.Inv) (hrun : s.runState ≠ .waitingForInput) (e : Fault) (a : Option Nat) :
    (s.recordFault e a).Inv := by
  obtain ⟨wf, cache, pc, pend, corr⟩ := h
  exact ⟨wf, cache, pc, pendingInv_of_not_waiting pend hrun rfl nofun, corr⟩

/-- Settles O54, by the four shapes of a step: a wait, a fetch fault, an instruction, an inert word. -/
theorem stepKeepsInvariant : Obligations.StepKeepsInvariant := by
  intro s t h hstep
  rcases step_cases s with ⟨_, run⟩ | ⟨hrun, ⟨e, _, run⟩ | ⟨a, i, _, _, run⟩ | ⟨a, op, _, _, run⟩⟩ <;> rw [run] at hstep
  · cases hstep; exact h
  · cases hstep; exact recordFault_inv h hrun e _
  · exact exec_inv (advance_inv h a) hrun hstep
  · cases hstep; exact inv_of_sameMemory (advance_inv h a) rfl rfl rfl rfl rfl rfl rfl

/-! ## The invariant over the commands (R7) -/

theorem directWrite_inv {s : State} (h : s.Inv) (a : Address) (v : Word) : (s.directWrite a v).Inv :=
  inv_of_sameControl h ⟨Memory.write_wf h.1 a v, State.directWrite_cacheInv h.2.1 h.1 a v⟩ rfl rfl rfl rfl rfl

theorem commandRun_inv {s : State} (h : s.Inv) : (commandRun s).Inv := by
  obtain ⟨wf, cache, pc, pend, corr⟩ := h
  unfold commandRun
  cases hr : s.runState with
  | halted => exact ⟨wf, cache, pc, pendingInv_of_not_waiting pend (by simp [hr]) rfl nofun, corr⟩
  | running => exact ⟨wf, cache, pc, pend, corr⟩
  | waitingForInput =>
    refine ⟨wf, cache, pc, ⟨fun q hq => ?_, fun _ => by simpa using pend.2 hr⟩, corr⟩
    obtain ⟨p, hp, rfl⟩ := Option.map_eq_some_iff.mp hq
    obtain ⟨h1, h2, _⟩ := pend.1 p hp
    exact ⟨h1, h2, fun hn => absurd rfl hn⟩

theorem commandHalt_inv {s : State} (h : s.Inv) : (commandHalt s).Inv := by
  obtain ⟨wf, cache, pc, pend, corr⟩ := h
  refine ⟨wf, cache, pc, ⟨fun q hq => ?_, nofun⟩, corr⟩
  obtain ⟨p, hp, rfl⟩ := Option.map_eq_some_iff.mp hq
  obtain ⟨h1, h2, _⟩ := pend.1 p hp
  exact ⟨h1, h2, fun _ => rfl⟩

theorem writeFirst_inv {s : State} (h : s.Inv) (dest : BitVec 2) (values : List Int) : (writeFirst dest values s).Inv := by
  cases values with
  | nil => exact h
  | cons v vs => exact inv_of_sameMemory h rfl rfl rfl rfl rfl rfl rfl

theorem memWrite_inv {s : State} (h : s.Inv) (a : Address) (v : Word) : (s.memWrite a v).Inv :=
  inv_of_sameControl h ⟨State.memWrite_wf h.1 a v, State.memWrite_cacheInv h.2.1 h.1 a v⟩ (by simp) (by simp) (by simp)
    (by simp) (by simp)

theorem writeValues_inv {s : State} (h : s.Inv) (a : Nat) (vs : List Int) : (writeValues a vs s).Inv := by
  induction vs generalizing a s with
  | nil => exact h
  | cons v vs ih => exact ih (memWrite_inv h _ _) (a + 1)

theorem consoleFault_inv {s : State} (h : s.Inv) (e : Fault) : { s.recordFault e s.pc with pending := none }.Inv := by
  obtain ⟨wf, cache, pc, _, corr⟩ := h
  exact ⟨wf, cache, pc, pendingInv_of_none rfl nofun, corr⟩

theorem consoleDone_inv {s : State} (h : s.Inv) {r : RunState} (hr : r ≠ .waitingForInput) :
    { s with pending := none, runState := r }.Inv := by
  obtain ⟨wf, cache, pc, _, corr⟩ := h
  exact ⟨wf, cache, pc, pendingInv_of_none rfl hr, corr⟩

theorem command_inv (c : Command) {s : State} (h : s.Inv) : (command c s).Always State.Inv := by
  cases c with
  | setGpr i v => exact .accept (inv_of_sameMemory h rfl rfl rfl rfl rfl rfl rfl)
  | setIxr i v =>
    exact commandSetIxr_always
      (fun x => inv_of_sameMemory h (by simp) (by simp) (by simp) (by simp) (by simp) (by simp) (by simp)) i
  | setPc v =>
    obtain ⟨wf, cache, _, pend, corr⟩ := h
    refine .accept ⟨wf, cache, fun x hx => ?_, pend, corr⟩
    obtain rfl : (mask11 v).toNat = x := by simpa using hx
    exact (mask11 v).isLt.le
  | setMar v => exact .accept (inv_of_sameMemory h rfl rfl rfl rfl rfl rfl rfl)
  | setMbr v => exact .accept (inv_of_sameMemory h rfl rfl rfl rfl rfl rfl rfl)
  | step => exact .ran fun t => stepKeepsInvariant s t h
  | run => exact .accept (commandRun_inv h)
  | tick => exact commandTick_always h fun t => stepKeepsInvariant s t h
  | halt => exact .accept (commandHalt_inv h)
  | reset => exact .accept reset_inv
  | panelLoad => exact panelLoadThen_always fun _ => inv_of_sameMemory h rfl rfl rfl rfl rfl rfl rfl
  | panelStore => exact panelStoreThen_always fun a v => directWrite_inv h a v
  | panelLoadPlus => exact panelLoadThen_always fun _ => inv_of_sameMemory h rfl rfl rfl rfl rfl rfl rfl
  | panelStorePlus =>
    exact panelStoreThen_always fun a v => inv_of_sameMemory (directWrite_inv h a v) rfl rfl rfl rfl rfl rfl rfl
  | loadWord a w => exact commandLoadWord_always (directWrite_inv h) a w
  | consoleSubmit values =>
    exact commandConsoleSubmit_always (consoleFault_inv h)
      (fun p v _ hr => consoleDone_inv (writeValues_inv (writeFirst_inv h p.dest v) _ v) hr) values

/-- Settles O55, command by command. -/
theorem commandKeepsInvariant : Obligations.CommandKeepsInvariant := fun c _ t h => command_inv c h t

end Sys2Proof.Machine

/-! PROOFS. The statements on effective addresses and selector checks (spec/20_memory.md section 6, spec/30_encoding.md
section 3): what resolution answers, and that an error aborts every instruction. -/

namespace Sys2Proof.Machine

/-! ## Effective-address resolution (R67 to R69) -/

theorem bitVec2_cases (b : BitVec 2) : b = 0 ∨ b = 1 ∨ b = 2 ∨ b = 3 := by
  revert b; decide

/-- R68's indexed address, by the selector. -/
theorem indexedAddress_eq (s : State) (ix : BitVec 2) (addr : BitVec 5) :
    s.indexedAddress ix addr = addr.toNat +
      (if ix = 1 then s.ixrs.x1.toNat else if ix = 2 then s.ixrs.x2.toNat else if ix = 3 then s.ixrs.x3.toNat else 0) := by
  rcases bitVec2_cases ix with rfl | rfl | rfl | rfl <;> rfl

theorem resolveEA_of_error {s : State} {ix : BitVec 2} {addr : BitVec 5} {e : Fault}
    (h : checkAddr (s.indexedAddress ix addr) = .error e) (ind : Bool) : s.resolveEA ix ind addr = (.error e, s) := by
  simp only [State.resolveEA, h]

theorem resolveEA_direct {s : State} {ix : BitVec 2} {addr : BitVec 5} {a : Address}
    (h : checkAddr (s.indexedAddress ix addr) = .ok a) : s.resolveEA ix false addr = (.ok a, s) := by
  simp only [State.resolveEA, h, Bool.false_eq_true, if_false]

theorem resolveEA_indirect {s : State} {ix : BitVec 2} {addr : BitVec 5} {a : Address}
    (h : checkAddr (s.indexedAddress ix addr) = .ok a) :
    s.resolveEA ix true addr = (checkAddr (lowAddress (s.memRead a).1).toNat, (s.memRead a).2) := by
  simp only [State.resolveEA, h, if_true]

theorem lowAddress_toNat (w : Word) : (lowAddress w).toNat = w.toNat % 2048 := BitVec.toNat_setWidth 11 w

/-- The check of a pointer word's low eleven bits can only find the protected region. -/
theorem checkAddr_lowAddress (w : Word) :
    checkAddr (lowAddress w).toNat =
      if w.toNat % 2048 ≤ 5 then .error .illegalReservedAccess else .ok (BitVec.ofNat 11 w.toNat) := by
  rw [lowAddress_toNat]
  split
  next low => exact checkAddr_error.mpr (.inr ⟨low, rfl⟩)
  next high => exact checkAddr_ok.mpr ⟨by omega, by omega, BitVec.toNat_ofNat ..⟩

theorem forgetCache_memRead (a : Address) (s : State) : (s.memRead a).2.forgetCache = s.forgetCache := by
  simp [State.forgetCache]

/-- Settles O21: the check of the indexed address decides, and an indirection checks the pointer word once more. -/
theorem effectiveAddressResolution : Obligations.EffectiveAddressResolution := by
  intro s ix ind addr base hinv hbase
  rw [← indexedAddress_eq] at hbase
  subst hbase
  refine ⟨fun past => ?past, fun low => ?low, fun h6 h2047 hind => ?direct, fun h6 h2047 hind => ?indirect⟩
  case past => exact resolveEA_of_error (checkAddr_error.mpr (.inl ⟨past, rfl⟩)) ind
  case low => exact resolveEA_of_error (checkAddr_error.mpr (.inr ⟨low, rfl⟩)) ind
  case direct =>
    subst hind
    exact resolveEA_direct (checkAddr_of_range h6 (by omega))
  case indirect =>
    subst hind
    have word : s.word (BitVec.ofNat 11 (s.indexedAddress ix addr)) = s.mem.read (s.indexedAddress ix addr) := by
      rw [State.word, BitVec.toNat_ofNat, Nat.mod_eq_of_lt (by omega)]
    rw [resolveEA_indirect (checkAddr_of_range h6 (by omega)), State.memRead_value hinv, word]
    exact ⟨checkAddr_lowAddress _, forgetCache_memRead .., State.memRead_cacheInv hinv _⟩

/-! ## An address error aborts (R108) -/

/-- A well-formed instruction with effective-address operands is their resolution and a continuation. -/
theorem exec_eq_withEA {i : Instr} {ix : BitVec 2} {ind : Bool} {addr : BitVec 5} (hwf : WellFormed i = true)
    (hop : eaOperands i = some (ix, ind, addr)) (s : State) : ∃ k, exec i s = withEA ix ind addr s k := by
  cases i <;> cases hop
  case ldr | str | lda | amr | smr | jz | jne | jcc | jma | jsr | sob | jge | cnvrt => exact ⟨_, rfl⟩
  case fadd | fsub | vadd | vsub | ldfr | stfr =>
    obtain ⟨f, hf⟩ := FloatReg.exists_of_selector hwf
    exact ⟨_, withFloatReg_some hf s _⟩
  case ldx | stx =>
    obtain ⟨x, hx⟩ := IndexReg.exists_of_selector hwf
    exact ⟨_, withIndexReg_some hx s _⟩

/-- Settles O22. -/
theorem addressErrorAborts : Obligations.AddressErrorAborts := by
  intro i s ix ind addr e hwf hop he
  obtain ⟨k, hk⟩ := exec_eq_withEA hwf hop s
  rw [hk]
  exact withEA_aborts_of_error he k

/-! ## An illegal selector (R94) -/

theorem withPairs_of_illegal {rx ry : BitVec 2} (h : pairSelectors rx ry = false) (s : State) (k : Result) :
    withPairs rx ry s k = .next (s.takeFault .badRegisterSelector) := by
  simp [withPairs, h]

theorem withFloatReg_of_illegal {r : BitVec 2} (h : floatSelector r = false) (s : State) (k : FloatReg → Result) :
    withFloatReg r s k = .next (s.takeFault .badRegisterSelector) := by
  have none : FloatReg.ofSelector r = none := by revert h; revert r; decide
  simp [withFloatReg, none]

theorem withIndexReg_of_illegal {ix : BitVec 2} (h : indexTarget ix = false) (s : State) (k : IndexReg → Result) :
    withIndexReg ix s k = .next (s.takeFault .badIndexRegister) := by
  have none : IndexReg.ofSelector ix = none := by revert h; revert ix; decide
  simp [withIndexReg, none]

/-- Settles O23, by the check that the instruction makes. -/
theorem illegalSelectorChangesNothingElse : Obligations.IllegalSelectorChangesNothingElse := by
  intro i s h
  cases i <;> try cases h
  case mlt | dvd => exact withPairs_of_illegal h s _
  case fadd | fsub | vadd | vsub | ldfr | stfr => exact withFloatReg_of_illegal h s _
  case ldx | stx => exact withIndexReg_of_illegal h s _
  case inp r devid => exact if_pos (by simpa [WellFormed] using h)
  case out r devid => exact if_pos (by simpa [WellFormed] using h)

end Sys2Proof.Machine

/-! PROOFS. The statements on transfers, AIR and the branches that write a register (spec/41_transfer.md, spec/42_arithmetic.md
section AIR, spec/43_branches.md): each instruction's outcome as an equation, its frame from the operations in it. -/

namespace Sys2Proof.Machine

/-! ## Frames of the register operations -/

theorem StaysInPlace.refl (s : State) : StaysInPlace s s :=
  ⟨⟨rfl, rfl, rfl, rfl, rfl, rfl, rfl, rfl, rfl⟩, rfl, rfl⟩

theorem State.setIxr_staysInPlace (x : IndexReg) (v : Word) (s : State) : StaysInPlace s (s.setIxr x v) :=
  ⟨by constructor <;> simp, by simp, by simp⟩

theorem State.setFr_staysInPlace (f : FloatReg) (v : Word) (s : State) : StaysInPlace s (s.setFr f v) :=
  ⟨by constructor <;> simp, by simp, by simp⟩

theorem State.resolveEA_sameOtherRegs (ix : BitVec 2) (ind : Bool) (addr : BitVec 5) (s : State) :
    SameOtherRegs s (s.resolveEA ix ind addr).2 := by
  constructor <;> simp

/-- A direct resolution touches nothing. -/
theorem resolveEA_state_of_direct (ix : BitVec 2) (addr : BitVec 5) (s : State) : (s.resolveEA ix false addr).2 = s := by
  rcases State.resolveEA_cases ix false addr s with same | ⟨_, _, hind, _⟩
  · exact same
  · cases hind

/-- What a store to a resolved address leaves in memory. -/
theorem memWrite_resolveEA_stores {s : State} (hwf : s.mem.wf = true) (ix : BitVec 2) (ind : Bool) (addr : BitVec 5)
    (ea : Address) (v : Word) :
    ((s.resolveEA ix ind addr).2.memWrite ea v).counted.word ea = v ∧
      SameMemoryBut ea s ((s.resolveEA ix ind addr).2.memWrite ea v).counted := by
  constructor
  · rw [State.word_counted]; exact State.memWrite_word_same (by rwa [State.resolveEA_mem]) ea v
  · intro b hb; simp [Memory.read_write_of_ne hb]

theorem memWrite_resolveEA_frame (ix : BitVec 2) (ind : Bool) (addr : BitVec 5) (ea : Address) (v : Word) (s : State) :
    ((s.resolveEA ix ind addr).2.memWrite ea v).counted.gprs = s.gprs ∧
      SameOtherRegs s ((s.resolveEA ix ind addr).2.memWrite ea v).counted ∧
      CompletesInPlace s ((s.resolveEA ix ind addr).2.memWrite ea v).counted :=
  ⟨by simp, by constructor <;> simp, ((State.resolveEA_staysInPlace ..).trans (State.memWrite_staysInPlace ..)).counted⟩

/-! ## LDA (R116) -/

theorem exec_lda_of_ok {r ix : BitVec 2} {ind : Bool} {addr : BitVec 5} {s : State} {ea : Address}
    (hea : (s.resolveEA ix ind addr).1 = .ok ea) :
    exec (.lda r ix ind addr) s = .next ((s.resolveEA ix ind addr).2.setGpr r (ea.setWidth 16)).counted :=
  withEA_ok hea

/-- Settles O26. -/
theorem ldaLoadsAddress : Obligations.LdaLoadsAddress := by
  intro r ix ind addr s ea hea
  refine ⟨_, exec_lda_of_ok hea, ?address, ?otherGprs, ?otherRegs, ?memory, ?control, ?direct⟩
  case address => rw [State.gpr_setGpr_counted_same, BitVec.toNat_setWidth_of_le (by decide)]
  case otherGprs => intro q hq; simp [hq]
  case otherRegs => constructor <;> simp
  case memory => intro a; simp
  case control => exact ((State.resolveEA_staysInPlace ..).trans (State.setGpr_staysInPlace ..)).counted
  case direct =>
    rintro rfl
    rw [resolveEA_state_of_direct]
    exact (State.setGpr_counted_frame ..).2.2.1

/-! ## LDX (R117) and STX (R118), under both readings of `LDX_EA_INDEXED` -/

theorem loadIndex_of_ok {indexed : Bool} {ix : BitVec 2} {x : IndexReg} {ind : Bool} {addr : BitVec 5} {s : State}
    {ea : Address} (hx : IndexReg.ofSelector ix = some x) (hinv : s.CacheInv)
    (hea : (s.resolveEA (transferIndex indexed ix) ind addr).1 = .ok ea) :
    loadIndex indexed ix ind addr s =
      .next (((s.resolveEA (transferIndex indexed ix) ind addr).2.memRead ea).2.setIxr x (s.word ea)).counted := by
  rw [loadIndex, withIndexReg_some hx, withEA_ok hea]
  simp only [State.memRead_resolveEA_value hinv, State.completed_eq]

theorem storeIndex_of_ok {indexed : Bool} {ix : BitVec 2} {x : IndexReg} {ind : Bool} {addr : BitVec 5} {s : State}
    {ea : Address} (hx : IndexReg.ofSelector ix = some x) (hea : (s.resolveEA (transferIndex indexed ix) ind addr).1 = .ok ea) :
    storeIndex indexed ix ind addr s =
      .next ((s.resolveEA (transferIndex indexed ix) ind addr).2.memWrite ea (s.ixr x)).counted := by
  rw [storeIndex, withIndexReg_some hx, withEA_ok hea]
  simp only [State.ixr_resolveEA, State.completed_eq]

/-- Settles O27: the default reading is the one that indexes by the target. -/
theorem ldxAndStxMoveIndexRegister : Obligations.LdxAndStxMoveIndexRegister := by
  intro ix x ind addr s ea hx hinv hwf
  have moves (indexed : Bool) (hea : (s.resolveEA (transferIndex indexed ix) ind addr).1 = .ok ea) :
      (∃ t, loadIndex indexed ix ind addr s = .next t ∧ t.ixr x = s.word ea ∧ (∀ y, y ≠ x → t.ixr y = s.ixr y) ∧
        t.gprs = s.gprs ∧ t.frs = s.frs ∧ t.cc = s.cc ∧ t.carry = s.carry ∧ SameMemory s t ∧ CompletesInPlace s t) ∧
      (∃ t, storeIndex indexed ix ind addr s = .next t ∧ t.word ea = s.ixr x ∧ SameMemoryBut ea s t ∧
        t.gprs = s.gprs ∧ SameOtherRegs s t ∧ CompletesInPlace s t) := by
    refine ⟨⟨_, loadIndex_of_ok hx hinv hea, ?loaded, ?otherIxrs, ?gprs, ?frs, ?cc, ?carry, ?memory, ?control⟩,
      ⟨_, storeIndex_of_ok hx hea, ?store⟩⟩
    case loaded => simp
    case otherIxrs => intro y hy; simp [hy]
    case gprs => simp
    case frs => simp
    case cc => simp
    case carry => simp
    case memory => intro a; simp
    case control => exact ((State.memRead_resolveEA_staysInPlace ..).trans (State.setIxr_staysInPlace ..)).counted
    case store =>
      obtain ⟨stored, others⟩ := memWrite_resolveEA_stores hwf (transferIndex indexed ix) ind addr ea (s.ixr x)
      exact ⟨stored, others, memWrite_resolveEA_frame ..⟩
  exact ⟨moves, moves true⟩

/-! ## AIR (R123) -/

/-- One equation for every immediate: R123's no-op on 0 is the addition of 0. -/
theorem exec_air (r : BitVec 2) (k : BitVec 5) (s : State) :
    exec (.air r k) s = .next (s.setGpr r (sumWord (s.gpr r) (immediateWord k))).counted := by
  by_cases hk : k = 0
  case neg => exact if_neg hk
  case pos =>
    have unchanged : sumWord (s.gpr r) (immediateWord k) = s.gpr r := by rw [hk]; exact BitVec.add_zero _
    rw [unchanged, State.setGpr_gpr_self]
    exact if_pos hk

/-- Settles O30. -/
theorem airAddsImmediate : Obligations.AirAddsImmediate := by
  intro r k s
  refine ⟨_, exec_air r k s, ?sum, State.setGpr_counted_frame ..⟩
  rw [State.gpr_setGpr_counted_same, sumWord_toNat, immediateWord_toNat]

/-! ## JGE (R135) -/

/-- A word is not negative exactly below 2^15. -/
theorem zero_le_s16_iff (w : Word) : 0 ≤ s16 w ↔ w.toNat < 32768 := by
  have bound : w.toNat < 65536 := w.isLt
  rw [s16, BitVec.toInt_eq_toNat_cond]
  split <;> omega

/-- Settles O33. -/
theorem jgeBranchesOnNonNegative : Obligations.JgeBranchesOnNonNegative := by
  intro r ix ind addr s ia ea hpc hea
  have cond : decide (0 ≤ s16 ((s.resolveEA ix ind addr).2.gpr r)) = decide ((s.gpr r).toNat < 32768) := by
    rw [State.gpr_resolveEA, decide_eq_decide]; exact zero_le_s16_iff _
  exact (withEA_commit_branches_or_aborts hpc (cond := fun u => decide (0 ≤ s16 (u.gpr r))) cond).1 ea hea

/-! ## Branches that write a register first (JSR, RFS, SOB) -/

/-- The end of a branch started in `s` that, in a state with the registers and the array of `s`, writes GPR[r]. -/
theorem commit_setGpr_branched {ia : Nat} {s u : State} (hpc : s.pc = some (ia + 1)) (hu : StaysInPlace s u)
    (hmem : u.mem = s.mem) (hgprs : u.gprs = s.gprs) (hregs : SameOtherRegs s u) (r : BitVec 2) (v : Word) (taken : Bool)
    (target : Nat) :
    ∃ t, commit taken target (u.setGpr r v) = .next t ∧ Branched ia taken target s t ∧ t.gpr r = v ∧
      SameGprsBut r s t ∧ SameOtherRegs s t := by
  have writtenPc : (u.setGpr r v).pc = some (ia + 1) := hu.pc.trans hpc
  obtain ⟨t, run, branched, gprs, regs⟩ := commit_branched writtenPc taken target
  refine ⟨t, run, branched.of_staysInPlace (hu.trans (State.setGpr_staysInPlace ..)) hmem, ?written, ?otherGprs, ?otherRegs⟩
  case written => rw [State.gpr_congr gprs, State.gpr_setGpr, if_pos rfl]
  case otherGprs => intro q hq; rw [State.gpr_congr gprs, State.gpr_setGpr, if_neg hq, State.gpr_congr hgprs]
  case otherRegs =>
    exact ⟨regs.ixrs.trans hregs.ixrs, regs.frs.trans hregs.frs, regs.cc.trans hregs.cc, regs.carry.trans hregs.carry⟩

/-- The same after EA resolution. -/
theorem commit_setGpr_resolveEA_branched {ia : Nat} {s : State} (hpc : s.pc = some (ia + 1)) (ix : BitVec 2) (ind : Bool)
    (addr : BitVec 5) (r : BitVec 2) (v : Word) (taken : Bool) (target : Nat) :
    ∃ t, commit taken target ((s.resolveEA ix ind addr).2.setGpr r v) = .next t ∧ Branched ia taken target s t ∧
      t.gpr r = v ∧ SameGprsBut r s t ∧ SameOtherRegs s t :=
  commit_setGpr_branched hpc (State.resolveEA_staysInPlace ..) (State.resolveEA_mem ..) (State.resolveEA_gprs ..)
    (State.resolveEA_sameOtherRegs ..) r v taken target

/-- Settles O34. -/
theorem jsrSavesReturnAddress : Obligations.JsrSavesReturnAddress := by
  intro ix ind addr s ia ea hpc hia hea
  obtain ⟨t, run, branched, saved, frame⟩ := commit_setGpr_resolveEA_branched hpc ix ind addr 3 (mask16 s.nextPc) true ea.toNat
  have exec_eq : exec (.jsr ix ind addr) s = _ := withEA_ok hea
  refine ⟨t, ?run, branched, ?saved, frame⟩
  case run => rw [exec_eq, State.nextPc_resolveEA, run]
  case saved =>
    have advanced : s.nextPc = ia + 1 := by simp [State.nextPc, hpc]
    rw [saved, mask16, advanced, BitVec.ofInt_natCast, BitVec.toNat_ofNat, Nat.mod_eq_of_lt (by omega)]

/-- Settles O35, by the range of the return address. -/
theorem rfsReturnsOrFaults : Obligations.RfsReturnsOrFaults := by
  intro k s ia hpc
  refine ⟨fun inRange => ?returns, fun past => ?faults⟩
  case returns =>
    have notPast : ¬ memorySize ≤ (s.gpr 3).toNat := by simp only [memorySize]; omega
    have exec_eq : exec (.rfs k) s = _ := if_neg notPast
    obtain ⟨t, run, branched, loaded, frame⟩ :=
      commit_setGpr_branched hpc (.refl s) rfl rfl ⟨rfl, rfl, rfl, rfl⟩ 0 (k.setWidth 16) true (s.gpr 3).toNat
    exact ⟨t, exec_eq.trans run, branched, by rw [loaded]; exact immediateWord_toNat k, frame⟩
  case faults =>
    have exec_eq : exec (.rfs k) s = .next (s.takeFault .addressOutOfRange) := if_pos past
    refine ⟨_, exec_eq, ?_, ⟨rfl, rfl, rfl, rfl⟩⟩
    exact ⟨⟨rfl, rfl, rfl, rfl⟩, rfl, fun _ => rfl, rfl, rfl, rfl, rfl, rfl, rfl, rfl, rfl, rfl, rfl, rfl⟩

/-- The signed test of R134 on a word, unsigned. -/
theorem zero_lt_s16_iff (w : Word) : 0 < s16 w ↔ 1 ≤ w.toNat ∧ w.toNat ≤ 32767 := by
  have bound : w.toNat < 65536 := w.isLt
  rw [s16, BitVec.toInt_eq_toNat_cond]
  split <;> omega

/-- Settles O36. -/
theorem sobDecrementsAndBranches : Obligations.SobDecrementsAndBranches := by
  intro r ix ind addr s ia ea hpc hea
  obtain ⟨t, run, branched, written, frame⟩ := commit_setGpr_resolveEA_branched hpc ix ind addr r (s.gpr r - 1)
    (decide (0 < s16 (s.gpr r - 1))) ea.toNat
  have exec_eq : exec (.sob r ix ind addr) s = _ := withEA_ok hea
  refine ⟨t, ?run, ?decrement, ?branch, frame⟩
  case run => rw [exec_eq]; simp only [State.gpr_resolveEA]; exact run
  case decrement =>
    rw [written, BitVec.toNat_sub, Nat.add_comm]
    rfl
  case branch => rw [written, ← decide_eq_decide.mpr (zero_lt_s16_iff _)]; exact branched

end Sys2Proof.Machine

/-! PROOFS. The statements on TRR, CNVRT, FADD, FSUB, LDFR, STFR, IN and OUT (spec/44_register_register.md section TRR,
spec/46_float_vector.md, spec/47_io_control.md). -/

namespace Sys2Proof.Machine

/-! ## TRR (R147), under both values of `TRR_EQUAL_MODE` -/

theorem State.assignEqual_staysInPlace (b : Bool) (s : State) : StaysInPlace s (s.assignEqual b) :=
  ⟨by constructor <;> simp, by simp, by simp⟩

theorem testEqual_eq (mode : TrrEqualMode) (rx ry : BitVec 2) (s : State) :
    testEqual mode rx ry s = .next (s.assignEqual (trrEqual mode s.cc.equal (s.gpr rx == s.gpr ry))).counted := rfl

/-- Settles O39: both modes assign EQUAL and nothing else. -/
theorem trrTestsEquality : Obligations.TrrTestsEquality := by
  intro rx ry s
  have frame (b : Bool) : (s.assignEqual b).counted.gprs = s.gprs ∧ (s.assignEqual b).counted.ixrs = s.ixrs ∧
      (s.assignEqual b).counted.frs = s.frs ∧ (s.assignEqual b).counted.carry = s.carry ∧
      SameMemorySide s (s.assignEqual b).counted ∧ CompletesInPlace s (s.assignEqual b).counted :=
    ⟨rfl, rfl, rfl, rfl, ⟨rfl, rfl, rfl, rfl⟩, (State.assignEqual_staysInPlace b s).counted⟩
  refine ⟨⟨_, testEqual_eq .setOnly rx ry s, ?setOnly, frame _⟩, ⟨_, testEqual_eq .assign rx ry s, ?assign, frame _⟩⟩
  case setOnly => simp only [State.counted_cc, State.assignEqual_cc, trrEqual, setOnly_eq_ite beq_iff_eq]
  case assign => simp only [State.counted_cc, State.assignEqual_cc, trrEqual, beq_eq_decide]

/-! ## CNVRT (R161) -/

theorem exec_cnvrt_of_ok {r ix : BitVec 2} {ind : Bool} {addr : BitVec 5} {s : State} {ea : Address} (hinv : s.CacheInv)
    (hea : (s.resolveEA ix ind addr).1 = .ok ea) :
    exec (.cnvrt r ix ind addr) s =
      if s.gpr r = 0 then
        .next (((s.resolveEA ix ind addr).2.memRead ea).2.setGpr r (Config.cnvrtToFixed (s.word ea))).counted
      else .next (((s.resolveEA ix ind addr).2.memRead ea).2.setFr .f0 (Config.cnvrtToFloat (s.word ea))).counted := by
  have run : exec (.cnvrt r ix ind addr) s = _ := withEA_ok hea
  simp only [run, State.memRead_resolveEA_value hinv, State.gpr_resolveEA, State.completed_eq]

/-- Settles O45, by the value of GPR[R]. -/
theorem cnvrtConverts : Obligations.CnvrtConverts := by
  intro r ix ind addr s ea hinv hea
  have run := exec_cnvrt_of_ok (r := r) hinv hea
  by_cases hr : s.gpr r = 0
  case pos =>
    rw [if_pos hr] at run
    refine ⟨_, run, fun _ => ⟨?fixed, ?otherGprs, ?frs⟩, fun hne => absurd hr hne, ?ixrs, ?cc, ?carry, ?memory, ?control⟩
    case fixed => simp
    case otherGprs => intro q hq; simp [hq]
    case frs => simp
    case ixrs => simp
    case cc => simp
    case carry => simp
    case memory => intro a; simp
    case control => exact ((State.memRead_resolveEA_staysInPlace ..).trans (State.setGpr_staysInPlace ..)).counted
  case neg =>
    rw [if_neg hr] at run
    refine ⟨_, run, fun h => absurd h hr, fun _ => ⟨?float, ?otherFr, ?gprs⟩, ?ixrs, ?cc, ?carry, ?memory, ?control⟩
    case float => simp
    case otherFr => simp
    case gprs => simp
    case ixrs => simp
    case cc => simp
    case carry => simp
    case memory => intro a; simp
    case control => exact ((State.memRead_resolveEA_staysInPlace ..).trans (State.setFr_staysInPlace ..)).counted

/-! ## One floating-point register written from memory (R159, R160, R165) -/

/-- What an instruction leaves that reads the word at its effective address and writes FR[f]. -/
theorem setFr_memRead_frame (ix : BitVec 2) (ind : Bool) (addr : BitVec 5) (ea : Address) (f : FloatReg) (v : Word) {s t : State}
    (ht : t = (((s.resolveEA ix ind addr).2.memRead ea).2.setFr f v).counted) :
    t.fr f = v ∧ (∀ g, g ≠ f → t.fr g = s.fr g) ∧
      t.gprs = s.gprs ∧ t.ixrs = s.ixrs ∧ t.cc = s.cc ∧ t.carry = s.carry ∧ SameMemory s t ∧ CompletesInPlace s t := by
  subst ht
  refine ⟨?written, ?otherFrs, ?gprs, ?ixrs, ?cc, ?carry, ?memory, ?control⟩
  case written => simp
  case otherFrs => intro g hg; simp [hg]
  case gprs => simp
  case ixrs => simp
  case cc => simp
  case carry => simp
  case memory => intro a; simp
  case control => exact ((State.memRead_resolveEA_staysInPlace ..).trans (State.setFr_staysInPlace ..)).counted

theorem exec_ldfr_of_ok {r ix : BitVec 2} {f : FloatReg} {ind : Bool} {addr : BitVec 5} {s : State} {ea : Address}
    (hf : FloatReg.ofSelector r = some f) (hinv : s.CacheInv) (hea : (s.resolveEA ix ind addr).1 = .ok ea) :
    exec (.ldfr r ix ind addr) s =
      .next (((s.resolveEA ix ind addr).2.memRead ea).2.setFr f (s.word ea)).counted := by
  rw [exec, execLdfr, withFloatReg_some hf, withEA_ok hea]
  simp only [State.memRead_resolveEA_value hinv, State.completed_eq]

theorem exec_stfr_of_ok {r ix : BitVec 2} {f : FloatReg} {ind : Bool} {addr : BitVec 5} {s : State} {ea : Address}
    (hf : FloatReg.ofSelector r = some f) (hea : (s.resolveEA ix ind addr).1 = .ok ea) :
    exec (.stfr r ix ind addr) s = .next ((s.resolveEA ix ind addr).2.memWrite ea (s.fr f)).counted := by
  rw [exec, execStfr, withFloatReg_some hf, withEA_ok hea]
  simp only [State.fr_resolveEA, State.completed_eq]

/-- Settles O48. -/
theorem ldfrAndStfrMoveOneWord : Obligations.LdfrAndStfrMoveOneWord := by
  intro r ix f ind addr s ea hf hinv hwf hea
  refine ⟨⟨_, exec_ldfr_of_ok hf hinv hea, setFr_memRead_frame ix ind addr ea f _ rfl⟩, ⟨_, exec_stfr_of_ok hf hea, ?store⟩⟩
  obtain ⟨stored, others⟩ := memWrite_resolveEA_stores hwf ix ind addr ea (s.fr f)
  exact ⟨stored, others, memWrite_resolveEA_frame ..⟩

/-! ## FADD (R159) and FSUB (R160) -/

theorem floatAdd_of_ok {order : FpExpOrder} {negateB : Bool} {r ix : BitVec 2} {f : FloatReg} {ind : Bool} {addr : BitVec 5}
    {s : State} {ea : Address} (hf : FloatReg.ofSelector r = some f) (hinv : s.CacheInv)
    (hea : (s.resolveEA ix ind addr).1 = .ok ea) :
    floatAdd order negateB r ix ind addr s =
      match fpAddCore order (s.fr f) (s.word ea) negateB with
      | .ok w => .next (((s.resolveEA ix ind addr).2.memRead ea).2.setFr f w).counted
      | .error why => .next (((s.resolveEA ix ind addr).2.memRead ea).2.takeRefusal why) := by
  rw [floatAdd, withFloatReg_some hf, withEA_ok hea]
  simp only [State.memRead_resolveEA_value hinv, State.fr_resolveEA]
  cases fpAddCore order (s.fr f) (s.word ea) negateB <;> rfl

theorem exec_faddOrFsub (negateB : Bool) (r ix : BitVec 2) (ind : Bool) (addr : BitVec 5) (s : State) :
    exec (if negateB then .fsub r ix ind addr else .fadd r ix ind addr) s =
      floatAdd .unsigned negateB r ix ind addr s := by
  cases negateB <;> rfl

/-- Settles O43, by the answer of `FPAddCore`. -/
theorem faddAndFsubComplete : Obligations.FaddAndFsubComplete := by
  intro negateB r ix f ind addr s ea i hi hf hinv hea
  have run := (exec_faddOrFsub negateB r ix ind addr s).trans (floatAdd_of_ok (negateB := negateB) hf hinv hea)
  rw [← hi] at run
  refine ⟨fun w hw => ?answers, fun why hwhy => ?refuses⟩
  case answers =>
    rw [hw] at run
    exact ⟨_, run, setFr_memRead_frame ix ind addr ea f w rfl⟩
  case refuses =>
    rw [hwhy] at run
    have same := State.memRead_resolveEA_staysInPlace ix ind addr ea s
    refine ⟨_, run, rfl, rfl, ?gprs, ?otherRegs, ?memory, same.pc, same.ir, same.icount, same.faults, same.status,
      same.pending, same.bht, same.predictions, same.correct⟩
    case gprs => simp
    case otherRegs => constructor <;> simp
    case memory => intro a; simp

/-! ## IN (R168) and OUT (R172) -/

/-- R168's count in unsigned terms. -/
theorem inputCount_eq (k : Word) : inputCount k = if 1 ≤ k.toNat ∧ k.toNat ≤ 32767 then k.toNat else 20 := by
  have positive := zero_lt_s16_iff k
  have value : k.toNat ≤ 32767 → s16 k = k.toNat := fun h => BitVec.toInt_eq_toNat_of_lt (by omega)
  unfold inputCount
  split_ifs <;> omega

/-- Settles O49: the device is legal, so the outstanding input decides. -/
theorem inSuspendsForInput : Obligations.InSuspendsForInput := by
  intro r s
  refine ⟨fun hp => ?waits, fun p hp => ?refused⟩
  case waits =>
    rw [← inputCount_eq]
    simp [exec, execInp, hp, State.counted]
  case refused => simp [exec, execInp, hp, State.takeRefusal]

/-- Settles O50. -/
theorem outSendsGuidance : Obligations.OutSendsGuidance := fun _ _ => rfl

end Sys2Proof.Machine

/-! PROOFS. The statements on the victim line, the load file and the console submission (spec/20_memory.md sections 1 and 2,
spec/47_io_control.md section 1). -/

namespace Sys2Proof.Machine

/-! ## The victim (R53) -/

/-- Settles O16, by whether the recency order holds an invalid line. -/
theorem victimIsFirstInvalidElseLru : Obligations.VictimIsFirstInvalidElseLru := by
  intro c hperm
  cases hf : c.order.find? fun i => !c.lines[i].valid with
  | some i =>
    have victim : c.victim = i := by simp only [Cache.victim, hf]
    obtain ⟨invalid, before, after, horder, hbefore⟩ := List.find?_eq_some_iff_append.mp hf
    subst victim
    exact .inl ⟨before, after, horder, by simpa using invalid, fun j hj => by simpa using hbefore j hj⟩
  | none =>
    have victim : c.victim = c.order.headD 0 := by simp only [Cache.victim, hf]
    have allValid (i : Fin 16) : c.lines[i].valid = true := by
      simpa using List.find?_eq_none.mp hf i (hperm.mem_iff.mpr (List.mem_finRange i))
    refine .inr ⟨allValid, ?_⟩
    rw [victim]
    cases ho : c.order with
    | nil => exact absurd (ho ▸ hperm.length_eq) (by simp)
    | cons i rest => rfl

/-! ## The load file (R47, R49) -/

theorem Cache.refresh_line (c : Cache) (a : Address) (v : Word) (i : Fin 16) :
    (c.refresh a v).lines[i].valid = c.lines[i].valid ∧ (c.refresh a v).lines[i].tag = c.lines[i].tag := by
  unfold Cache.refresh
  cases c.lookup a with
  | some j => exact ⟨Cache.setWord_valid .., Cache.setWord_tag ..⟩
  | none => exact ⟨rfl, rfl⟩

theorem Cache.refresh_order (c : Cache) (a : Address) (v : Word) : (c.refresh a v).order = c.order := by
  unfold Cache.refresh
  cases c.lookup a with
  | some j => rfl
  | none => rfl

theorem commandLoadWord_of_range {a w : Nat} (ha : a ≤ 2047) (hw : w ≤ 65535) (s : State) :
    commandLoadWord a w s = .ran (.next (s.directWrite (BitVec.ofNat 11 a) (BitVec.ofNat 16 w))) :=
  if_neg (by unfold memorySize; omega)

/-- Settles O53: the direct write keeps the cache coherent, so the next read finds the array's word. -/
theorem loadedWordIsSeenByProgram : Obligations.LoadedWordIsSeenByProgram := by
  intro s a w hinv hwf
  refine ⟨fun ha hw => ⟨_, commandLoadWord_of_range ha hw s, ?loaded, ?others, ?seen, State.directWrite_cacheInv hinv hwf _ _,
    Cache.refresh_order .., Cache.refresh_line _ _ _, rfl, ⟨rfl, rfl, rfl, rfl⟩,
    ⟨rfl, rfl, rfl, rfl, rfl, rfl, rfl, rfl, rfl⟩, rfl, rfl⟩, fun h => if_pos (by unfold memorySize; omega)⟩
  all_goals have address : (BitVec.ofNat 11 a).toNat = a := by rw [BitVec.toNat_ofNat, Nat.mod_eq_of_lt (by omega)]
  case loaded => rw [State.directWrite_mem, address]; exact Memory.read_write_same hwf a _
  case others => intro b hb; rw [State.directWrite_mem, address]; exact Memory.read_write_of_ne hb _ _
  case seen =>
    rw [State.memRead_value (State.directWrite_cacheInv hinv hwf _ _)]
    exact Memory.read_write_same hwf _ _

/-! ## The destination check of a console submission (R170) -/

/-- A destination inside 6..2047 has no error. -/
theorem destinationError_of_range {a n : Nat} (h6 : 6 ≤ a) (h : a + n ≤ 2048) : destinationError a n = none := by
  induction n generalizing a with
  | zero => rfl
  | succ n ih => simp only [destinationError, checkAddr_of_range h6 (by omega), ih (a := a + 1) (by omega) (by omega)]

/-- A destination that begins above the protected region can only run past the end. -/
theorem destinationError_of_past {a n : Nat} (h6 : 6 ≤ a) (hn : 1 ≤ n) (h : 2048 < a + n) :
    destinationError a n = some .addressOutOfRange := by
  induction n generalizing a with
  | zero => omega
  | succ n ih =>
    by_cases ha : 2048 ≤ a
    · simp only [destinationError, checkAddr_error.mpr (.inl ⟨ha, rfl⟩)]
    · simp only [destinationError, checkAddr_of_range h6 (by omega), ih (a := a + 1) (by omega) (by omega) (by omega)]

theorem destinationError_of_low {a n : Nat} (h : a ≤ 5) (hn : 1 ≤ n) :
    destinationError a n = some .illegalReservedAccess := by
  obtain ⟨n, rfl⟩ := Nat.exists_eq_add_of_le' hn
  simp only [destinationError, checkAddr_error.mpr (.inr ⟨h, rfl⟩)]

/-! ## What a console submission writes (R170) -/

theorem writeValues_cons {a : Nat} (ha : a < 2048) (v : Int) (vs : List Int) (s : State) :
    writeValues a (v :: vs) s = writeValues (a + 1) vs (s.memWrite (BitVec.ofNat 11 a) (mask16 v)) ∧
      (s.memWrite (BitVec.ofNat 11 a) (mask16 v)).mem = s.mem.write a (mask16 v) := by
  refine ⟨rfl, ?_⟩
  rw [State.memWrite_mem, BitVec.toNat_ofNat, Nat.mod_eq_of_lt ha]

/-- The array outside the destination is as it was. -/
theorem writeValues_read_elsewhere {a : Nat} {vs : List Int} (h : a + vs.length ≤ 2048) (s : State) {b : Nat}
    (hb : b < a ∨ a + vs.length ≤ b) : (writeValues a vs s).mem.read b = s.mem.read b := by
  induction vs generalizing a s with
  | nil => rfl
  | cons v vs ih =>
    rw [List.length_cons] at h hb
    obtain ⟨run, mem⟩ := writeValues_cons (a := a) (by omega) v vs s
    rw [run, ih (by omega) _ (by omega), mem, Memory.read_write_of_ne (by omega)]

/-- Each value is at its address. -/
theorem writeValues_read {a : Nat} {vs : List Int} (h : a + vs.length ≤ 2048) {s : State} (hwf : s.mem.wf = true) {k : Nat}
    {v : Int} (hk : vs[k]? = some v) : (writeValues a vs s).mem.read (a + k) = mask16 v := by
  induction vs generalizing a s k with
  | nil => simp at hk
  | cons x xs ih =>
    rw [List.length_cons] at h
    obtain ⟨run, mem⟩ := writeValues_cons (a := a) (by omega) x xs s
    rw [run]
    cases k with
    | zero =>
      obtain rfl : x = v := by simpa using hk
      rw [Nat.add_zero, writeValues_read_elsewhere (by omega) _ (by omega), mem, Memory.read_write_same hwf]
    | succ k =>
      rw [← Nat.succ_add_eq_add_succ]
      exact ih (by omega) (State.memWrite_wf hwf _ _) (by simpa using hk)

theorem writeFirst_eq {values : List Int} {v : Int} (h : values.head? = some v) (dest : BitVec 2) (s : State) :
    writeFirst dest values s = s.setGpr dest (mask16 v) := by
  cases values with
  | nil => simp at h
  | cons x xs =>
    obtain rfl : x = v := by simpa using h
    rfl

theorem commandConsoleSubmit_of_error {s : State} {p : PendingInput} {values : List Int} {e : Fault} (hp : s.pending = some p)
    (hn : p.count ≤ values.length) (he : destinationError p.base.toNat p.count = some e) :
    commandConsoleSubmit values s = .ran (.next { s.recordFault e s.pc with pending := none }) := by
  simp only [commandConsoleSubmit, hp, if_neg (Nat.not_lt.mpr hn), he, accept]

theorem commandConsoleSubmit_of_range {s : State} {p : PendingInput} {values : List Int} (hp : s.pending = some p)
    (hn : p.count ≤ values.length) (he : destinationError p.base.toNat p.count = none) :
    commandConsoleSubmit values s = .ran (.next
      { writeValues p.base.toNat (values.take p.count) (writeFirst p.dest (values.take p.count) s) with
        pending := none
        runState := if p.resumeRun then .running else .halted }) := by
  simp only [commandConsoleSubmit, hp, if_neg (Nat.not_lt.mpr hn), he, accept]

/-- What a state keeps beside memory, part by part. -/
theorem part_of_forgetMemory {α : Type} {s u : State} (h : u.forgetMemory = s.forgetMemory) (part : State → α) :
    part u.forgetMemory = part s.forgetMemory := congrArg part h

/-- Settles O52, by the destination: inside the array, from the protected region, or past the end. -/
theorem consoleSubmissionCompletes : Obligations.ConsoleSubmissionCompletes := by
  intro s p values hp hwf hcount
  refine ⟨fun few => ?rejected, fun hn h6 hend => ?completes, fun hn low => ?low, fun hn h6 past => ?past⟩
  case rejected => simp only [command, commandConsoleSubmit, hp, if_pos few]
  case low => exact commandConsoleSubmit_of_error hp hn (destinationError_of_low low hcount)
  case past => exact commandConsoleSubmit_of_error hp hn (destinationError_of_past h6 hcount past)
  case completes =>
    have length : (values.take p.count).length = p.count := List.length_take_of_le hn
    have fits : p.base.toNat + (values.take p.count).length ≤ 2048 := by omega
    obtain ⟨v, hv⟩ : ∃ v, values.head? = some v := by
      cases values with
      | nil => simp at hn; omega
      | cons x xs => exact ⟨x, rfl⟩
    have first : (values.take p.count).head? = some v := by rw [List.head?_take, if_neg (by omega), hv]
    have run := commandConsoleSubmit_of_range hp hn (destinationError_of_range h6 hend)
    rw [writeFirst_eq first] at run
    have beside := writeValues_forgetMemory p.base.toNat (values.take p.count) (s.setGpr p.dest (mask16 v))
    have same {α : Type} (part : State → α) := part_of_forgetMemory beside part
    have gprs := State.gpr_congr (same State.gprs)
    refine ⟨_, run, ?register, ?otherGprs, ?values, ?elsewhere, rfl, rfl,
      ⟨same State.ixrs, same State.frs, same State.cc, same State.carry⟩, same State.pc, same State.ir, same State.icount,
      same State.faults, same State.refused, same State.status, same State.bht, same State.predictions, same State.correct⟩
    case register =>
      intro x hx
      obtain rfl : v = x := by simpa [hv] using hx
      exact (gprs p.dest).trans ((State.gpr_setGpr ..).trans (if_pos rfl))
    case otherGprs => exact fun q hq => (gprs q).trans ((State.gpr_setGpr ..).trans (if_neg hq))
    case values =>
      intro k x hk hx
      exact writeValues_read fits (s := s.setGpr p.dest (mask16 v)) hwf (by rw [List.getElem?_take_of_lt hk, hx])
    case elsewhere => exact fun b hb => writeValues_read_elsewhere fits _ (by omega)

end Sys2Proof.Machine

/-! PROOFS. The statements on VADD and VSUB (spec/46_float_vector.md section 2): the instruction is its loop on the two
pointers, and the loop goes through every element before the first bad address. -/

namespace Sys2Proof.Machine

/-! ## Frames of a state that differs beside nothing but memory -/

theorem staysInPlace_of_forgetMemory {s u : State} (h : u.forgetMemory = s.forgetMemory) : StaysInPlace s u :=
  have same {α : Type} (part : State → α) := part_of_forgetMemory h part
  ⟨⟨same State.bht, same State.predictions, same State.correct, same State.runState, same State.pending, same State.faults,
    same State.refused, same State.status, same State.ir⟩, same State.pc, same State.icount⟩

theorem sameRegs_of_forgetMemory {s u : State} (h : u.forgetMemory = s.forgetMemory) :
    u.gprs = s.gprs ∧ SameOtherRegs s u :=
  have same {α : Type} (part : State → α) := part_of_forgetMemory h part
  ⟨same State.gprs, same State.ixrs, same State.frs, same State.cc, same State.carry⟩

/-! ## The instruction as its loop (R162 to R164) -/

/-- The element operation under the default `VEC_ELEM_OP`. -/
def vectorElement (subtract : Bool) (x y : Word) : Word := if subtract then x - y else x + y

theorem elementOp_int16Wrap (order : FpExpOrder) (subtract : Bool) :
    elementOp .int16Wrap order subtract = fun x y => .ok (vectorElement subtract x y) := rfl

theorem exec_vaddOrVsub (subtract : Bool) (r ix : BitVec 2) (ind : Bool) (addr : BitVec 5) (s : State) :
    exec (if subtract then .vsub r ix ind addr else .vadd r ix ind addr) s =
      vectorOp .int16Wrap .unsigned subtract r ix ind addr s := by
  cases subtract <;> rfl

/-- With both pointers in range the instruction is the loop on them, in a state that differs by reads alone. -/
theorem vectorOp_eq_vectorLoop {order : FpExpOrder} {subtract : Bool} {r ix : BitVec 2} {f : FloatReg} {ind : Bool}
    {addr : BitVec 5} {s : State} {ea : Address} (hf : FloatReg.ofSelector r = some f) (hinv : s.CacheInv)
    (hea : (s.resolveEA ix ind addr).1 = .ok ea) (hlt : ea.toNat < 2047) :
    ∃ u, u.forgetMemory = s.forgetMemory ∧ u.mem = s.mem ∧ u.CacheInv ∧
      vectorOp .int16Wrap order subtract r ix ind addr s =
        vectorLoop (fun x y => .ok (vectorElement subtract x y)) ((s.mem.read ea.toNat).toNat % 2048)
          ((s.mem.read (ea.toNat + 1)).toNat % 2048) (s.fr f).toNat 0 u := by
  have h6 := State.resolveEA_range hea
  obtain ⟨ea1, next⟩ : ∃ ea1, checkAddr (ea.toNat + 1) = .ok ea1 := ⟨_, checkAddr_of_range (by omega) (by omega)⟩
  obtain ⟨_, _, hea1⟩ := checkAddr_ok.mp next
  have resolved := State.resolveEA_cacheInv hinv ix ind addr
  have word1 : ((s.resolveEA ix ind addr).2.memRead ea).1 = s.mem.read ea.toNat :=
    State.memRead_resolveEA_value hinv ix ind addr ea
  have word2 : (((s.resolveEA ix ind addr).2.memRead ea).2.memRead ea1).1 = s.mem.read (ea.toNat + 1) := by
    rw [State.memRead_value (State.memRead_cacheInv resolved ea), State.memRead_word, State.word_resolveEA, State.word, hea1]
  refine ⟨(((s.resolveEA ix ind addr).2.memRead ea).2.memRead ea1).2, ?beside, by simp,
    State.memRead_cacheInv (State.memRead_cacheInv resolved ea) ea1, ?loop⟩
  case beside =>
    rw [State.forgetMemory_memRead, State.forgetMemory_memRead, State.forgetMemory_resolveEA]
  case loop =>
    rw [vectorOp, withFloatReg_some hf, withEA_ok hea]
    simp only [next, word1, word2, lowAddress_toNat, State.fr_resolveEA, reduceCtorEq, false_and, if_false,
      elementOp_int16Wrap]

/-- Settles O46: the loop goes through all elements. -/
theorem vectorElementsCombine : Obligations.VectorElementsCombine := by
  intro subtract r ix f ind addr s ea p1 p2 n i hi hf hinv hwf hea hlt hp1 hp2 hn hrange
  obtain ⟨u, beside, mem, cache, loop⟩ := vectorOp_eq_vectorLoop (order := .unsigned) (subtract := subtract) hf hinv hea hlt
  have run := (exec_vaddOrVsub subtract r ix ind addr s).trans loop
  rw [← hi, ← hp1, ← hp2, ← hn] at run
  obtain ⟨t, through, stored, combined⟩ := vectorLoop_through (vectorElement subtract) p1 p2 n 0 0 u cache (mem ▸ hwf)
    (fun k _ hk => by omega)
  simp only [Nat.add_zero, Nat.zero_add] at through stored combined
  have frame := stored.beside.trans beside
  obtain ⟨gprs, otherRegs⟩ := sameRegs_of_forgetMemory frame
  refine ⟨t.counted, run.trans through, ?elements, ?elsewhere, gprs,
    ⟨otherRegs.ixrs, otherRegs.frs, otherRegs.cc, otherRegs.carry⟩, (staysInPlace_of_forgetMemory frame).counted⟩
  case elements =>
    rintro k hk y rfl
    rw [← mem]
    exact combined k (Nat.zero_le k) hk
  case elsewhere => exact fun a ha => (stored.elsewhere a ha).trans (by rw [mem])

/-- One turn of the loop at a bad address of either vector. -/
theorem vectorLoop_fault {op : Word → Word → Except Refusal Word} {p1 p2 n i : Nat} {e : Fault} (s : State)
    (h : checkAddr (p1 + i) = .error e ∨ ((6 ≤ p1 + i ∧ p1 + i ≤ 2047) ∧ checkAddr (p2 + i) = .error e)) :
    vectorLoop op p1 p2 (n + 1) i s = .next (s.takeFault e) := by
  unfold vectorLoop
  rcases h with first | ⟨⟨h6, h2047⟩, second⟩
  · simp only [first, State.raise_eq]
  · simp only [checkAddr_of_range h6 (Nat.lt_succ_of_le h2047), second, State.raise_eq]

/-- Settles O47: a pair at 2047 faults before any read; otherwise the loop goes through the elements before `m` and its next
turn faults. -/
theorem vectorFaultKeepsPrefix : Obligations.VectorFaultKeepsPrefix := by
  intro subtract r ix f ind addr s ea i hi hf hinv hwf hea
  refine ⟨fun hlast => ?pair, fun hlt p1 p2 m e hp1 hp2 hm hprefix hbad => ?element⟩
  case pair =>
    have past : checkAddr (ea.toNat + 1) = .error .addressOutOfRange := checkAddr_error.mpr (.inl ⟨by omega, rfl⟩)
    refine ⟨_, ?_, State.resolveEA_takeFault_aborted ix ind addr s .addressOutOfRange⟩
    rw [hi, exec_vaddOrVsub, vectorOp, withFloatReg_some hf, withEA_ok hea]
    simp only [past, State.raise_eq]
  case element =>
    obtain ⟨u, beside, mem, cache, loop⟩ := vectorOp_eq_vectorLoop (order := .unsigned) (subtract := subtract) hf hinv hea hlt
    have run := (exec_vaddOrVsub subtract r ix ind addr s).trans loop
    obtain ⟨n, hn⟩ : ∃ n, (s.fr f).toNat = m + (n + 1) := ⟨(s.fr f).toNat - m - 1, by omega⟩
    rw [← hi, ← hp1, ← hp2, hn] at run
    obtain ⟨t, through, stored, combined⟩ := vectorLoop_through (vectorElement subtract) p1 p2 m (n + 1) 0 u cache (mem ▸ hwf)
      (fun k _ hk => hprefix k (by omega))
    simp only [Nat.add_zero, Nat.zero_add] at through stored combined
    have frame := stored.beside.trans beside
    obtain ⟨gprs, otherRegs⟩ := sameRegs_of_forgetMemory frame
    have same := staysInPlace_of_forgetMemory frame
    refine ⟨t.takeFault e, (run.trans through).trans (vectorLoop_fault t hbad), ?elements, ?elsewhere, gprs,
      ⟨otherRegs.ixrs, otherRegs.frs, otherRegs.cc, otherRegs.carry⟩, same.pc, same.ir, same.icount, rfl, ?fault, same.refused,
      same.pending, same.status, same.bht, same.predictions, same.correct⟩
    case elements =>
      rintro k hk y rfl
      rw [← mem]
      exact combined k (Nat.zero_le k) hk
    case elsewhere => exact fun a ha => (stored.elsewhere a ha).trans (by rw [mem])
    case fault => rw [State.takeFault_faults, same.faults, same.pc, same.ir]

end Sys2Proof.Machine

/-! PROOFS. The statements on MLT, DVD, SRC and RRC (spec/44_register_register.md, spec/45_shift_rotate.md): the arithmetic of
each as numbers, then the register and flag writes. -/

namespace Sys2Proof.Machine

/-! ## Register pairs (R145, R146) -/

theorem withPairs_of_legal {rx ry : BitVec 2} (hx : rx = 0 ∨ rx = 2) (hy : ry = 0 ∨ ry = 2) (s : State) (k : Result) :
    withPairs rx ry s k = k := by
  rcases hx with rfl | rfl <;> rcases hy with rfl | rfl <;> rfl

/-- Both words written to the pair of `rx`, and nothing else. -/
theorem setPair_frame (rx : BitVec 2) (hi lo : Word) {s t : State} (ht : t = ((s.setGpr rx hi).setGpr (oddOf rx) lo).counted) :
    t.gpr rx = hi ∧ t.gpr (rx + 1) = lo ∧ (∀ q, q ≠ rx → q ≠ rx + 1 → t.gpr q = s.gpr q) ∧
      SameOtherRegs s t ∧ SameMemorySide s t ∧ CompletesInPlace s t := by
  subst ht
  have odd : rx ≠ rx + 1 := by revert rx; decide
  refine ⟨?even, ?odd, fun q h1 h2 => ?others, ⟨rfl, rfl, rfl, rfl⟩,
    ⟨rfl, rfl, rfl, rfl⟩, ((State.setGpr_staysInPlace ..).trans (State.setGpr_staysInPlace ..)).counted⟩
  case even => rw [State.gpr_counted, State.gpr_setGpr, oddOf, if_neg odd, State.gpr_setGpr, if_pos rfl]
  case odd => rw [State.gpr_counted, State.gpr_setGpr, oddOf, if_pos rfl]
  case others => rw [State.gpr_counted, State.gpr_setGpr, oddOf, if_neg h2, State.gpr_setGpr, if_neg h1]

/-! ## MLT (R145), under both values of `MLT_SIGNED` -/

/-- The two words of a product are its digits in base 2^16. -/
theorem highWord_lowWord_toNat (p : BitVec 32) : (highWord p).toNat * 65536 + (lowWord p).toNat = p.toNat := by
  have bound : p.toNat < 4294967296 := p.isLt
  simp only [highWord, lowWord, BitVec.extractLsb'_toNat, Nat.shiftRight_eq_div_pow]
  omega

theorem product_signed_toNat (a b : Word) : ((product true a b).toNat : Int) = (s16 a * s16 b) % 2 ^ 32 := by
  simp only [product, if_true, BitVec.toNat_ofInt]
  exact Int.toNat_of_nonneg (Int.emod_nonneg _ (by decide))

theorem product_unsigned_toNat (a b : Word) : (product false a b).toNat = a.toNat * b.toNat := by
  have bound : a.toNat * b.toNat < 2 ^ 16 * 2 ^ 16 := Nat.mul_lt_mul'' a.isLt b.isLt
  simp only [product, Bool.false_eq_true, if_false, BitVec.toNat_ofNat]
  exact Nat.mod_eq_of_lt bound

theorem multiply_of_legal (signed : Bool) {rx ry : BitVec 2} (hx : rx = 0 ∨ rx = 2) (hy : ry = 0 ∨ ry = 2) (s : State) :
    multiply signed rx ry s =
      .next ((s.setGpr rx (highWord (product signed (s.gpr rx) (s.gpr ry)))).setGpr (oddOf rx)
        (lowWord (product signed (s.gpr rx) (s.gpr ry)))).counted :=
  withPairs_of_legal hx hy s _

/-- Settles O37: the pair holds the product's two digits, under either reading. -/
theorem mltMultiplies : Obligations.MltMultiplies := by
  intro rx ry s hx hy
  refine ⟨⟨_, multiply_of_legal true hx hy s, ?signed⟩, ⟨_, multiply_of_legal false hx hy s, ?unsigned⟩⟩
  case signed =>
    obtain ⟨high, low, frame⟩ := setPair_frame rx (highWord (product true (s.gpr rx) (s.gpr ry)))
      (lowWord (product true (s.gpr rx) (s.gpr ry))) rfl
    exact ⟨by rw [high, low, highWord_lowWord_toNat, product_signed_toNat], frame⟩
  case unsigned =>
    obtain ⟨high, low, frame⟩ := setPair_frame rx (highWord (product false (s.gpr rx) (s.gpr ry)))
      (lowWord (product false (s.gpr rx) (s.gpr ry))) rfl
    exact ⟨by rw [high, low, highWord_lowWord_toNat, product_unsigned_toNat], frame⟩

/-! ## DVD (R146) -/

theorem s16_ne_zero {w : Word} (h : w ≠ 0) : s16 w ≠ 0 :=
  fun hz => h (BitVec.toInt_inj.mp hz)

/-- Truncated division: the remainder is smaller than the divisor and has the dividend's sign. -/
theorem truncated_remainder {a b : Int} (hb : b ≠ 0) :
    a = a.tdiv b * b + (a - a.tdiv b * b) ∧ (a - a.tdiv b * b).natAbs < b.natAbs ∧ 0 ≤ (a - a.tdiv b * b) * a := by
  have remainder : a - a.tdiv b * b = a.tmod b := by rw [Int.tmod_def, Int.mul_comm]
  refine ⟨by omega, ?smaller, ?sign⟩
  case smaller =>
    rw [remainder, Int.natAbs_tmod]
    exact Nat.mod_lt _ (Int.natAbs_pos.mpr hb)
  case sign =>
    rw [remainder]
    rcases Int.le_total 0 a with ha | ha
    · exact Int.mul_nonneg (Int.tmod_nonneg b ha) ha
    · have flipped : 0 ≤ (-a).tmod b := Int.tmod_nonneg b (by omega)
      rw [Int.neg_tmod] at flipped
      exact Int.mul_nonneg_of_nonpos_of_nonpos (by omega) ha

theorem exec_dvd_of_ne {rx ry : BitVec 2} (hx : rx = 0 ∨ rx = 2) (hy : ry = 0 ∨ ry = 2) {s : State} (hb : s.gpr ry ≠ 0) :
    exec (.dvd rx ry) s =
      .next ((s.setGpr rx (quotient (s.gpr rx) (s.gpr ry))).setGpr (oddOf rx) (remainder (s.gpr rx) (s.gpr ry))).counted :=
  (withPairs_of_legal hx hy s _).trans (if_neg hb)

/-- Settles O38, by the divisor. -/
theorem dvdDivides : Obligations.DvdDivides := by
  intro rx ry s hx hy
  refine ⟨fun hb => ?divides, fun hb => (withPairs_of_legal hx hy s _).trans (if_pos hb)⟩
  obtain ⟨equation, smaller, sign⟩ := truncated_remainder (a := s16 (s.gpr rx)) (s16_ne_zero hb)
  exact ⟨_, _, _, exec_dvd_of_ne hx hy hb, equation, smaller, sign, setPair_frame rx _ _ rfl⟩

/-! ## SRC (R153) -/

theorem State.assignCarry_staysInPlace (b : Bool) (s : State) : StaysInPlace s (s.assignCarry b) :=
  ⟨by constructor <;> simp, by simp, by simp⟩

theorem mask16_natCast (k : Nat) : mask16 k = BitVec.ofNat 16 k := BitVec.ofInt_natCast 16 k

/-- R153's shifts as arithmetic. -/
theorem shiftResult_eq (al lr : Bool) (n : Nat) (v : Word) :
    shiftResult al lr n v =
      if lr then mask16 (v.toNat * 2 ^ n) else if al then mask16 (v.toNat / 2 ^ n) else mask16 (s16 v / 2 ^ n) := by
  have left : v <<< n = mask16 (v.toNat * 2 ^ n) := by
    have product : (v.toNat : Int) * 2 ^ n = ((v.toNat * 2 ^ n : Nat) : Int) := by push_cast; rfl
    rw [product, mask16_natCast]
    apply BitVec.eq_of_toNat_eq
    rw [BitVec.toNat_shiftLeft, Nat.shiftLeft_eq, BitVec.toNat_ofNat]
  have logical : v >>> n = mask16 (v.toNat / 2 ^ n) := by
    have quotient : (v.toNat : Int) / 2 ^ n = ((v.toNat / 2 ^ n : Nat) : Int) := by push_cast; rfl
    rw [quotient, mask16_natCast]
    apply BitVec.eq_of_toNat_eq
    rw [BitVec.toNat_ushiftRight, Nat.shiftRight_eq_div_pow, BitVec.toNat_ofNat,
      Nat.mod_eq_of_lt (Nat.lt_of_le_of_lt (Nat.div_le_self ..) v.isLt)]
  have arithmetic : v.sshiftRight n = mask16 (s16 v / 2 ^ n) := by
    rw [← BitVec.ofInt_toInt (x := v.sshiftRight n), BitVec.toInt_sshiftRight, Int.shiftRight_eq_div_pow]
    push_cast; rfl
  rw [shiftResult, left, logical, arithmetic]

theorem count_toNat_ne {count : BitVec 4} (h : count ≠ 0) : count.toNat ≠ 0 :=
  fun hz => h (BitVec.eq_of_toNat_eq hz)

theorem exec_src_of_ne {r : BitVec 2} {al lr : Bool} {count : BitVec 4} (h : count ≠ 0) (s : State) :
    exec (.src r al lr count) s =
      .next (((s.setGpr r (shiftResult al lr count.toNat (s.gpr r))).assignCarry
        (shiftedOut lr count.toNat (s.gpr r))).assignEqual (shiftResult al lr count.toNat (s.gpr r) == 0)).counted := by
  have run : exec (.src r al lr count) s = _ := if_neg (count_toNat_ne h)
  rw [run, if_neg (by simp [srcArithLeft])]
  rfl

/-- Settles O41, by the count. -/
theorem srcShifts : Obligations.SrcShifts := by
  intro r al lr count s
  refine ⟨fun h => by subst h; rfl, fun h => ⟨_, exec_src_of_ne h s, ?shifted, rfl, ?flags, ?otherGprs, rfl, rfl,
    ⟨rfl, rfl, rfl, rfl⟩, ?control⟩, fun h => ?refused⟩
  case shifted => simp [shiftResult_eq]
  case flags => simp [beq_eq_decide]
  case otherGprs => intro q hq; simp [hq]
  case control =>
    exact (((State.setGpr_staysInPlace ..).trans (State.assignCarry_staysInPlace ..)).trans
      (State.assignEqual_staysInPlace ..)).counted
  case refused =>
    rw [shiftRegister]
    exact (if_neg (count_toNat_ne h)).trans (if_pos rfl)

/-! ## RRC (R154) -/

/-- The two parts of a rotate share no bit, so their union is their sum. -/
theorem rotate_parts_toNat {x n m w : Nat} (hw : n + m = w) (hx : x < 2 ^ w) :
    x <<< n % 2 ^ w ||| x >>> m = x * 2 ^ n % 2 ^ w + x / 2 ^ m := by
  have width : 2 ^ w = 2 ^ m * 2 ^ n := by rw [← hw, Nat.add_comm, Nat.pow_add]
  have high : x * 2 ^ n % 2 ^ w = (x % 2 ^ m) <<< n := by rw [width, Nat.mul_mod_mul_right, Nat.shiftLeft_eq]
  have low : x / 2 ^ m < 2 ^ n := Nat.div_lt_of_lt_mul (width ▸ hx)
  rw [Nat.shiftLeft_eq, high, Nat.shiftRight_eq_div_pow, Nat.shiftLeft_add_eq_or_of_lt low]

theorem rotateLeft_toNat {w n : Nat} (hn : n < w) (x : BitVec w) :
    (x.rotateLeft n).toNat = x.toNat * 2 ^ n % 2 ^ w + x.toNat / 2 ^ (w - n) := by
  rw [BitVec.toNat_rotateLeft, Nat.mod_eq_of_lt hn, rotate_parts_toNat (by omega) x.isLt]

theorem rotateRight_toNat {w n : Nat} (hn : n < w) (x : BitVec w) :
    (x.rotateRight n).toNat = x.toNat / 2 ^ n + x.toNat * 2 ^ (w - n) % 2 ^ w := by
  rw [BitVec.toNat_rotateRight, Nat.mod_eq_of_lt hn, Nat.or_comm, rotate_parts_toNat (by omega) x.isLt, Nat.add_comm]

theorem rotateWord_toNat (lr : Bool) {n : Nat} (hn : n < 16) (v : Word) :
    (rotateWord lr n v).toNat =
      if lr then v.toNat * 2 ^ n % 65536 + v.toNat / 2 ^ (16 - n) else v.toNat / 2 ^ n + v.toNat * 2 ^ (16 - n) % 65536 := by
  cases lr with
  | true => exact rotateLeft_toNat hn v
  | false => exact rotateRight_toNat hn v

theorem rotateRing_toNat (lr : Bool) {n : Nat} (hn : n < 17) (c : Bool) (v : Word) :
    (rotateRing lr n c v).toNat =
      if lr then (c.toNat * 65536 + v.toNat) * 2 ^ n % 2 ^ 17 + (c.toNat * 65536 + v.toNat) / 2 ^ (17 - n)
      else (c.toNat * 65536 + v.toNat) / 2 ^ n + (c.toNat * 65536 + v.toNat) * 2 ^ (17 - n) % 2 ^ 17 := by
  have ring : (BitVec.ofBool c ++ v).toNat = c.toNat * 65536 + v.toNat := by
    rw [toNat_append_mul, BitVec.toNat_ofBool]; rfl
  rw [← ring]
  cases lr with
  | true => exact rotateLeft_toNat hn _
  | false => exact rotateRight_toNat hn _

/-- The ring's top bit and its low word make up the ring. -/
theorem ring_split_toNat (x : BitVec 17) : x.msb.toNat * 65536 + (x.setWidth 16).toNat = x.toNat := by
  have bound : x.toNat < 131072 := x.isLt
  rw [BitVec.msb_eq_decide, BitVec.toNat_setWidth]
  by_cases top : 2 ^ (17 - 1) ≤ x.toNat
  · rw [decide_eq_true top, Bool.toNat_true]; omega
  · rw [decide_eq_false top, Bool.toNat_false]; omega

theorem exec_rrc_plain {r : BitVec 2} {lr : Bool} {count : BitVec 4} (h : count ≠ 0) (s : State) :
    exec (.rrc r true lr count) s = .next (s.setGpr r (rotateWord lr count.toNat (s.gpr r))).counted :=
  if_neg (count_toNat_ne h)

theorem exec_rrc_ring {r : BitVec 2} {lr : Bool} {count : BitVec 4} (h : count ≠ 0) (s : State) :
    exec (.rrc r false lr count) s =
      .next ((s.setGpr r ((rotateRing lr count.toNat s.carry (s.gpr r)).setWidth 16)).assignCarry
        (rotateRing lr count.toNat s.carry (s.gpr r)).msb).counted :=
  if_neg (count_toNat_ne h)

/-- Settles O42, by the count and by A/L. -/
theorem rrcRotates : Obligations.RrcRotates := by
  intro r al lr count s
  have bound : count.toNat < 16 := count.isLt
  refine ⟨fun h => by subst h; rfl, fun h => ?rotates⟩
  cases al with
  | true =>
    obtain ⟨otherGprs, otherRegs, memorySide, control⟩ :=
      State.setGpr_counted_frame r (rotateWord lr count.toNat (s.gpr r)) s
    refine ⟨_, exec_rrc_plain h s, fun _ => ⟨?_, rfl⟩, nofun, otherGprs, rfl, rfl, rfl, memorySide, control⟩
    rw [State.gpr_setGpr_counted_same, rotateWord_toNat lr bound]
  | false =>
    refine ⟨_, exec_rrc_ring h s, nofun, fun _ => ?ring, ?otherGprs, rfl, rfl, rfl, ⟨rfl, rfl, rfl, rfl⟩,
      ((State.setGpr_staysInPlace ..).trans (State.assignCarry_staysInPlace ..)).counted⟩
    case ring =>
      rw [← rotateRing_toNat lr (by omega), ← ring_split_toNat]
      simp
    case otherGprs => intro q hq; simp [hq]

end Sys2Proof.Machine

/-! PROOFS. The statement on `FPAddCore` (spec/46_float_vector.md section 1, R155 to R158): the fields of a word, the aligned
sum, its renormalisation, and the two read together. -/

namespace Sys2Proof.Machine

/-! ## Fields (R155) and exponents (R156) -/

theorem sign_eq (w : Word) : sign w = decide (32768 ≤ w.toNat) := BitVec.msb_eq_decide w

theorem significand_eq (w : Word) : significand w = 256 + w.toNat % 256 := by
  rw [significand, BitVec.extractLsb'_toNat, Nat.shiftRight_zero]

theorem exponentField_toNat (w : Word) : (exponentField w).toNat = w.toNat / 256 % 128 := by
  rw [exponentField, BitVec.extractLsb'_toNat, Nat.shiftRight_eq_div_pow]

theorem significand_range (w : Word) : 256 ≤ significand w ∧ significand w ≤ 511 := by
  rw [significand_eq]; omega

/-- A word without its sign bit is all 0. -/
theorem isFloatZero_iff (w : Word) : isFloatZero w = true ↔ w.toNat % 32768 = 0 := by
  have low : (w.extractLsb' 0 15).toNat = w.toNat % 32768 := by rw [BitVec.extractLsb'_toNat, Nat.shiftRight_zero]
  rw [isFloatZero, beq_iff_eq, ← low, ← BitVec.toNat_inj]
  rfl

theorem isFloatZero_eq_false_iff (w : Word) : isFloatZero w = false ↔ w.extractLsb' 0 15 ≠ 0 := by
  rw [isFloatZero, beq_eq_false_iff_ne]

/-- X(e) in each reading, by the exponent bits as a number. -/
theorem exponentValue_eq (order : FpExpOrder) (f : BitVec 7) :
    exponentValue order f =
      match order with
      | .unsigned => (f.toNat : Int)
      | .signMagnitude => if f.toNat < 64 then (f.toNat : Int) else 64 - (f.toNat : Int)
      | .twosComplement => if f.toNat < 64 then (f.toNat : Int) else (f.toNat : Int) - 128 := by
  have bound : f.toNat < 128 := f.isLt
  cases order with
  | unsigned => rfl
  | signMagnitude =>
    have low : (f.extractLsb' 0 6).toNat = f.toNat % 64 := by rw [BitVec.extractLsb'_toNat, Nat.shiftRight_zero]
    simp only [exponentValue, BitVec.msb_eq_decide, decide_eq_true_eq, low]
    split_ifs <;> omega
  | twosComplement =>
    simp only [exponentValue, BitVec.toInt_eq_toNat_cond]
    split_ifs <;> omega

theorem ofInt7_toNat (x : Int) : ((BitVec.ofInt 7 x).toNat : Int) = x % 128 := by
  rw [BitVec.toNat_ofInt]
  exact Int.toNat_of_nonneg (Int.emod_nonneg x (by decide))

theorem exponentLegal_iff (order : FpExpOrder) (e : Int) :
    exponentLegal order e = true ↔
      match order with
      | .unsigned => 0 ≤ e ∧ e ≤ 127
      | .signMagnitude => -63 ≤ e ∧ e ≤ 63
      | .twosComplement => -64 ≤ e ∧ e ≤ 63 := by
  cases order <;> simp [exponentLegal]

/-- enc(X) in each reading, for a legal exponent. -/
theorem exponentEncode_toNat {order : FpExpOrder} {x : Int} (h : exponentLegal order x = true) :
    ((exponentEncode order x).toNat : Int) =
      match order with
      | .unsigned => x
      | .signMagnitude => if x < 0 then 64 - x else x
      | .twosComplement => if x < 0 then 128 + x else x := by
  rw [exponentLegal_iff] at h
  cases order <;> simp only [exponentEncode] at h ⊢
  case unsigned => rw [ofInt7_toNat]; omega
  case signMagnitude => split_ifs <;> rw [ofInt7_toNat] <;> omega
  case twosComplement => rw [ofInt7_toNat]; split_ifs <;> omega

/-- Encoding a legal exponent loses nothing. -/
theorem exponentValue_encode {order : FpExpOrder} {x : Int} (h : exponentLegal order x = true) :
    exponentValue order (exponentEncode order x) = x := by
  have value := exponentEncode_toNat h
  rw [exponentLegal_iff] at h
  rw [exponentValue_eq]
  cases order <;> simp only at h value ⊢
  case unsigned => exact value
  case signMagnitude => split_ifs at value ⊢ <;> omega
  case twosComplement => split_ifs at value ⊢ <;> omega

/-! ## The aligned sum (R158) -/

/-- A word's significand aligned to the exponent `top`, with a sign; `alignedSum_eq` ties it to the model. -/
def alignedTerm (order : FpExpOrder) (top : Int) (w : Word) (neg : Bool) : Int :=
  (if neg then -1 else 1) * ((significand w / 2 ^ (top - exponentValue order (exponentField w)).toNat : Nat) : Int)

/-- The sum treats its operands alike: both are aligned to the larger exponent, for one of them by nothing. -/
theorem alignedSum_eq (order : FpExpOrder) (a b : Word) (negateB : Bool) {top : Int}
    (htop : top = max (exponentValue order (exponentField a)) (exponentValue order (exponentField b))) :
    alignedSum order a b negateB =
      (alignedTerm order top a (sign a) + alignedTerm order top b (sign b != negateB), top) := by
  have signed (neg : Bool) (m : Nat) : (if neg = true then -(m : Int) else m) = (if neg = true then -1 else 1) * (m : Int) := by
    split <;> omega
  subst htop
  by_cases le : exponentValue order (exponentField b) ≤ exponentValue order (exponentField a)
  · simp only [alignedSum, alignedTerm, signed, if_pos le, max_eq_left le, Int.sub_self, Int.toNat_zero, Nat.pow_zero,
      Nat.div_one]
  · simp only [alignedSum, alignedTerm, signed, if_neg le, max_eq_right (Int.le_of_not_le le), Int.sub_self, Int.toNat_zero,
      Nat.pow_zero, Nat.div_one]

theorem alignedTerm_natAbs (order : FpExpOrder) (top : Int) (w : Word) (neg : Bool) :
    (alignedTerm order top w neg).natAbs ≤ 511 := by
  have bound := (Nat.div_le_self (significand w) (2 ^ (top - exponentValue order (exponentField w)).toNat)).trans
    (significand_range w).2
  have unit : (if neg = true then -1 else 1 : Int).natAbs = 1 := by cases neg <;> rfl
  rwa [alignedTerm, Int.natAbs_mul, unit, Nat.one_mul, Int.natAbs_natCast]

theorem alignedSum_natAbs (order : FpExpOrder) (a b : Word) (negateB : Bool) :
    (alignedSum order a b negateB).1.natAbs ≤ 1022 := by
  rw [alignedSum_eq order a b negateB rfl]
  exact (Int.natAbs_add_le _ _).trans (Nat.add_le_add (alignedTerm_natAbs ..) (alignedTerm_natAbs ..))

theorem alignedSum_comm (order : FpExpOrder) (a b : Word) : alignedSum order a b false = alignedSum order b a false := by
  rw [alignedSum_eq order a b false rfl, alignedSum_eq order b a false (max_comm _ _), Bool.bne_false, Bool.bne_false,
    Int.add_comm]

/-! ## Renormalisation (R158) -/

/-- What R158 says of a sum's magnitude `s` at exponent `e` renormalised to `m` and `x`. -/
def Renormalised (s : Nat) (e : Int) (m : Nat) (x : Int) : Prop :=
  (511 < s ∧ m = s / 2 ∧ x = e + 1) ∨ (s ≤ 511 ∧ 256 ≤ m ∧ m ≤ 511 ∧ ∃ k : Nat, m = s * 2 ^ k ∧ x = e - k)

theorem renormUp_spec {fuel m : Nat} (h511 : m ≤ 511) (h256 : 256 ≤ m * 2 ^ fuel) (e : Int) :
    ∃ k : Nat, renormUp fuel m e = (m * 2 ^ k, e - k) ∧ 256 ≤ m * 2 ^ k ∧ m * 2 ^ k ≤ 511 := by
  induction fuel generalizing m e with
  | zero => exact ⟨0, by simp [renormUp], by simpa using h256, by simpa using h511⟩
  | succ fuel ih =>
    unfold renormUp
    split
    next small =>
      obtain ⟨k, run, range⟩ := ih (m := m * 2) (by omega) (by rw [Nat.mul_assoc, ← Nat.pow_succ']; exact h256) (e - 1)
      rw [Nat.mul_assoc, ← Nat.pow_succ'] at run range
      refine ⟨k + 1, ?_, range⟩
      rw [run]
      push_cast
      congr 1
      omega
    next large => exact ⟨0, by simp, by simpa using large, by simpa using h511⟩

/-- The model's renormalisation satisfies R158's. -/
theorem renormalise_spec {s : Nat} (h1 : 1 ≤ s) (h : s ≤ 1022) (e : Int) :
    Renormalised s e (renormalise s e).1 (renormalise s e).2 := by
  by_cases large : 511 < s
  · have run : renormalise s e = (s / 2, e + 1) := by
      have done : ¬ s / 2 < 256 := by omega
      simp only [renormalise, renormDown, renormUp, if_pos large, if_neg done]
    exact .inl ⟨large, by rw [run], by rw [run]⟩
  · obtain ⟨k, run, h256, h511⟩ := renormUp_spec (fuel := 8) (m := s) (by omega) (by omega) e
    have same : renormalise s e = renormUp 8 s e := by simp only [renormalise, renormDown, if_neg large]
    rw [same, run]
    exact .inr ⟨by omega, h256, h511, k, rfl, rfl⟩

/-- Scaling by a power of two into 256..511 leaves no choice. -/
theorem scale_unique {s k j : Nat} (hk : 256 ≤ s * 2 ^ k) (hj : s * 2 ^ j ≤ 511) : j ≤ k := by
  by_contra hlt
  have double : 2 ^ (k + 1) ≤ 2 ^ j := Nat.pow_le_pow_right (by decide) (by omega)
  have grows : s * 2 ^ (k + 1) ≤ s * 2 ^ j := Nat.mul_le_mul_left s double
  rw [Nat.pow_succ, ← Nat.mul_assoc] at grows
  omega

theorem Renormalised.unique {s m n : Nat} {e x y : Int} (h1 : Renormalised s e m x) (h2 : Renormalised s e n y) :
    m = n ∧ x = y := by
  rcases h1 with ⟨_, rfl, rfl⟩ | ⟨_, hm, hm', k, rfl, rfl⟩ <;> rcases h2 with ⟨_, rfl, rfl⟩ | ⟨_, hn, hn', j, rfl, rfl⟩
  · exact ⟨rfl, rfl⟩
  · omega
  · omega
  · obtain rfl : k = j := Nat.le_antisymm (scale_unique hn hm') (scale_unique hm hn')
    exact ⟨rfl, rfl⟩

/-- A renormalised significand is in 256..511. -/
theorem Renormalised.range {s m : Nat} {e x : Int} (h : Renormalised s e m x) (hs : s ≤ 1022) : 256 ≤ m ∧ m ≤ 511 := by
  rcases h with ⟨_, rfl, _⟩ | ⟨_, h256, h511, _⟩
  · omega
  · exact ⟨h256, h511⟩

/-! ## The result word (R158) -/

theorem floatWord_toNat (order : FpExpOrder) (neg : Bool) (e : Int) {m : Nat} (h256 : 256 ≤ m) (h511 : m ≤ 511) :
    (floatWord order neg e m).toNat = neg.toNat * 32768 + (exponentEncode order e).toNat * 256 + (m - 256) := by
  have small : (m - 256) % 2 ^ 8 = m - 256 := Nat.mod_eq_of_lt (by omega)
  rw [floatWord, toNat_append_mul, toNat_append_mul, BitVec.toNat_ofBool, BitVec.toNat_ofNat, small]
  omega

theorem sign_floatWord (order : FpExpOrder) (neg : Bool) (e : Int) {m : Nat} (h256 : 256 ≤ m) (h511 : m ≤ 511) :
    sign (floatWord order neg e m) = neg := by
  have bound : (exponentEncode order e).toNat < 128 := (exponentEncode order e).isLt
  rw [sign_eq, floatWord_toNat order neg e h256 h511]
  cases neg
  · rw [Bool.toNat_false, decide_eq_false]; omega
  · rw [Bool.toNat_true, decide_eq_true]; omega

theorem significand_floatWord (order : FpExpOrder) (neg : Bool) (e : Int) {m : Nat} (h256 : 256 ≤ m) (h511 : m ≤ 511) :
    significand (floatWord order neg e m) = m := by
  rw [significand_eq, floatWord_toNat order neg e h256 h511]
  omega

theorem exponentField_floatWord (order : FpExpOrder) (neg : Bool) (e : Int) {m : Nat} (h256 : 256 ≤ m) (h511 : m ≤ 511) :
    exponentField (floatWord order neg e m) = exponentEncode order e := by
  have bound : (exponentEncode order e).toNat < 128 := (exponentEncode order e).isLt
  apply BitVec.eq_of_toNat_eq
  rw [exponentField_toNat, floatWord_toNat order neg e h256 h511]
  omega

/-- The result can be an operand again unless it is R157's case (d). -/
theorem isFloatZero_floatWord (order : FpExpOrder) (neg : Bool) (e : Int) {m : Nat} (h256 : 256 ≤ m) (h511 : m ≤ 511)
    (hne : ¬ (exponentEncode order e = 0 ∧ m = 256)) : isFloatZero (floatWord order neg e m) = false := by
  have bound : (exponentEncode order e).toNat < 128 := (exponentEncode order e).isLt
  rw [Bool.eq_false_iff, ne_eq, isFloatZero_iff, floatWord_toNat order neg e h256 h511]
  intro zero
  refine hne ⟨BitVec.eq_of_toNat_eq (y := 0) ?_, ?_⟩
  · show _ = 0; omega
  · omega

/-! ## When there is an answer (R157) -/

/-- The conditions under which `FPAddCore` answers, and the word it answers. -/
theorem fpAddCore_eq_ok_iff (order : FpExpOrder) (a b : Word) (negateB : Bool) (w : Word) :
    fpAddCore order a b negateB = .ok w ↔
      isFloatZero a = false ∧ isFloatZero b = false ∧ (alignedSum order a b negateB).1 ≠ 0 ∧
        ∃ m x, Renormalised (alignedSum order a b negateB).1.natAbs (alignedSum order a b negateB).2 m x ∧
          exponentLegal order x = true ∧ ¬ (exponentEncode order x = 0 ∧ m = 256) ∧
          w = floatWord order (decide ((alignedSum order a b negateB).1 < 0)) x m := by
  have bound := alignedSum_natAbs order a b negateB
  unfold fpAddCore
  dsimp only
  generalize alignedSum order a b negateB = sum at bound ⊢
  split_ifs with hz hs hl he
  · simp only [false_iff]
    rintro ⟨ha, hb, _⟩
    simp [ha, hb] at hz
  · simp only [false_iff]
    rintro ⟨_, _, nonzero, _⟩
    exact nonzero hs
  all_goals
    have spec := renormalise_spec (s := sum.1.natAbs) (by omega) bound sum.2
  · simp only [false_iff]
    rintro ⟨_, _, _, m, x, hr, legal, _⟩
    obtain ⟨-, rfl⟩ := hr.unique spec
    simp [legal] at hl
  · simp only [false_iff]
    rintro ⟨_, _, _, m, x, hr, _, hne, _⟩
    obtain ⟨rfl, rfl⟩ := hr.unique spec
    exact hne he
  · simp only [Bool.not_eq_true, Bool.or_eq_false_iff] at hz
    simp only [Bool.not_eq_true', Bool.not_eq_false] at hl
    constructor
    · rintro ⟨⟩
      exact ⟨hz.1, hz.2, hs, _, _, spec, hl, he, rfl⟩
    · rintro ⟨_, _, _, m, x, hr, _, _, rfl⟩
      obtain ⟨rfl, rfl⟩ := hr.unique spec
      rfl

/-- Where it does not answer it refuses as a floating-point corner. -/
theorem fpAddCore_eq_error {order : FpExpOrder} {a b : Word} {negateB : Bool}
    (h : ¬ ∃ w, fpAddCore order a b negateB = .ok w) : fpAddCore order a b negateB = .error .floatingPointCorner := by
  unfold fpAddCore at h ⊢
  dsimp only at h ⊢
  split_ifs at h ⊢ <;> simp_all

/-- The answer depends on the operands through R157's zero test and the aligned sum. -/
theorem fpAddCore_congr {order : FpExpOrder} {a b c d : Word} {m n : Bool}
    (hz : (isFloatZero a || isFloatZero b) = (isFloatZero c || isFloatZero d))
    (hs : alignedSum order a b m = alignedSum order c d n) : fpAddCore order a b m = fpAddCore order c d n := by
  unfold fpAddCore; rw [hz, hs]

theorem fpAddCore_comm (order : FpExpOrder) (a b : Word) : fpAddCore order a b false = fpAddCore order b a false :=
  fpAddCore_congr (Bool.or_comm _ _) (alignedSum_comm order a b)

/-! ## Subtraction (R160) -/

/-- Flipping the sign bit leaves exponent, significand and the zero test. -/
theorem flip_sign (w : Word) : sign (w ^^^ 0x8000) = !sign w ∧ exponentField (w ^^^ 0x8000) = exponentField w ∧
    significand (w ^^^ 0x8000) = significand w ∧ isFloatZero (w ^^^ 0x8000) = isFloatZero w := by
  have field {i n : Nat} (h : (0x8000 : Word).extractLsb' i n = 0) : (w ^^^ 0x8000).extractLsb' i n = w.extractLsb' i n := by
    rw [BitVec.extractLsb'_xor, h]; exact BitVec.xor_zero
  refine ⟨?_, field (by decide), ?_, ?_⟩
  · rw [sign, BitVec.msb_xor, sign]; exact Bool.xor_true _
  · rw [significand, field (by decide), significand]
  · rw [isFloatZero, field (by decide), isFloatZero]

theorem fpAddCore_subtract (order : FpExpOrder) (a b : Word) :
    fpAddCore order a b true = fpAddCore order a (b ^^^ 0x8000) false := by
  obtain ⟨signFlipped, sameExponent, sameSignificand, sameZero⟩ := flip_sign b
  refine fpAddCore_congr (by rw [sameZero]) ?_
  rw [alignedSum_eq order a b true rfl, alignedSum_eq order a (b ^^^ 0x8000) false (by rw [sameExponent])]
  simp only [alignedTerm, sameExponent, sameSignificand, signFlipped, Bool.bne_true, Bool.bne_false]

/-- Settles O44. -/
theorem floatSumIsExactUpToTruncation : Obligations.FloatSumIsExactUpToTruncation := by
  intro order a b
  refine ⟨fun w => ⟨sign_eq w, significand_eq w, exponentField_toNat w⟩, exponentValue_eq order, ?encode, ?aligned,
    fun negateB => ⟨?answers, fpAddCore_eq_error⟩, fun negateB w hw => ?result, fpAddCore_comm order a b,
    fpAddCore_subtract order a b⟩
  case encode =>
    cases order with
    | unsigned => exact fun x h1 h2 => exponentEncode_toNat ((exponentLegal_iff .unsigned x).mpr ⟨h1, h2⟩)
    | signMagnitude => exact fun x h1 h2 => exponentEncode_toNat ((exponentLegal_iff .signMagnitude x).mpr ⟨h1, h2⟩)
    | twosComplement => exact fun x h1 h2 => exponentEncode_toNat ((exponentLegal_iff .twosComplement x).mpr ⟨h1, h2⟩)
  case aligned =>
    rintro negateB ea eb sa sb hea heb rfl rfl
    rw [alignedSum_eq order a b negateB rfl, alignedTerm, alignedTerm, ← hea, ← heb]
    refine ⟨fun le => ?_, fun lt => ?_⟩
    · have gap : (ea - eb).toNat = (ea - eb).natAbs := by omega
      rw [max_eq_left le, Int.sub_self, Int.toNat_zero, Nat.pow_zero, Nat.div_one, gap]
      exact ⟨rfl, rfl⟩
    · have gap : (eb - ea).toNat = (ea - eb).natAbs := by omega
      rw [max_eq_right lt.le, Int.sub_self, Int.toNat_zero, Nat.pow_zero, Nat.div_one, gap]
      exact ⟨rfl, rfl⟩
  case answers =>
    simp only [fpAddCore_eq_ok_iff, isFloatZero_eq_false_iff]
    constructor
    · rintro ⟨w, ha, hb, hs, m, e, hr, legal, hne, -⟩
      exact ⟨ha, hb, hs, m, e, hr, (exponentLegal_iff order e).mp legal, hne⟩
    · rintro ⟨ha, hb, hs, m, e, hr, legal, hne⟩
      exact ⟨_, ha, hb, hs, m, e, hr, (exponentLegal_iff order e).mpr legal, hne, rfl⟩
  case result =>
    obtain ⟨_, _, _, m, e, hr, legal, hne, rfl⟩ := (fpAddCore_eq_ok_iff order a b negateB w).mp hw
    obtain ⟨h256, h511⟩ := hr.range (alignedSum_natAbs order a b negateB)
    rw [significand_floatWord order _ e h256 h511, exponentField_floatWord order _ e h256 h511, exponentValue_encode legal]
    refine ⟨isFloatZero_floatWord order _ e h256 h511 hne, sign_floatWord order _ e h256 h511, ?magnitude, rfl⟩
    rcases hr with ⟨large, hm, he⟩ | ⟨small, _, _, scaled⟩
    · rw [if_pos large]; exact ⟨hm, he⟩
    · rw [if_neg (by omega)]; exact scaled

end Sys2Proof.Machine

/-! PROOFS. The statements on what every instruction writes and how it ends (spec/10_state.md sections 1 to 4,
spec/40_execution_cycle.md sections 2 and 3): one inversion of `exec` into the operations that its mnemonic may use, and
what each operation leaves alone. -/

namespace Sys2Proof.Machine

/-! ## The protected region (20_memory.md section 4) -/

/-- Accesses leave the words 0..5. -/
theorem Accesses.read_protected {s t : State} (h : Accesses s t) {a : Nat} (ha : a ≤ 5) : t.mem.read a = s.mem.read a := by
  induction h with
  | refl => rfl
  | read b _ ih => rw [State.memRead_mem]; exact ih
  | write b v h6 _ ih => rw [State.memWrite_mem, Memory.read_write_of_ne (by omega)]; exact ih
  | other _ hm _ ih => rw [hm]; exact ih

/-- Settles O58. -/
theorem protectedWordsNeverWritten : Obligations.ProtectedWordsNeverWritten := by
  intro i s t a h ha
  obtain ⟨u, hu, acc⟩ := exec_onlyAccesses i s
  obtain rfl : u = t := by simpa [hu] using h
  exact acc.read_protected ha

/-! ## The operations of an instruction, by its mnemonic -/

/-- The instructions that write a general register. -/
def gprWriters : List Mnemonic :=
  [.ldr, .lda, .amr, .smr, .air, .sir, .jsr, .rfs, .sob, .mlt, .dvd, .and, .orr, .not, .src, .rrc, .cnvrt]

/-- The instructions that write a floating-point register. -/
def frWriters : List Mnemonic := [.fadd, .fsub, .cnvrt, .ldfr]

/-- The instructions that write memory. -/
def memWriters : List Mnemonic := [.str, .stx, .stfr, .vadd, .vsub]

/-- The instructions that write UNDERFLOW. -/
def underflowWriters : List Mnemonic := [.smr, .sir]

/-- The instructions that write Carry. -/
def carryWriters : List Mnemonic := [.src, .rrc]

/-- `t` is `s` after operations that the spec gives to the instruction `m`, before it ends; `exec_answers` ties it to
`exec`. -/
inductive Runs (m : Mnemonic) (s : State) : State → Prop where
  | start : Runs m s s
  | memRead {t : State} (a : Address) : Runs m s t → Runs m s (t.memRead a).2
  | memWrite {t : State} (a : Address) (v : Word) : m ∈ memWriters → Runs m s t → Runs m s (t.memWrite a v)
  | setGpr {t : State} (r : BitVec 2) (v : Word) : m ∈ gprWriters → Runs m s t → Runs m s (t.setGpr r v)
  | setIxr {t : State} (x : IndexReg) (v : Word) : m = .ldx → Runs m s t → Runs m s (t.setIxr x v)
  | setFr {t : State} (f : FloatReg) (v : Word) : m ∈ frWriters → Runs m s t → Runs m s (t.setFr f v)
  | noteOverflow {t : State} (b : Bool) : m = .amr → Runs m s t → Runs m s (t.noteOverflow b)
  | noteUnderflow {t : State} (b : Bool) : m ∈ underflowWriters → Runs m s t → Runs m s (t.noteUnderflow b)
  | setDivZero {t : State} : m = .dvd → Runs m s t → Runs m s t.setDivZero
  | assignEqual {t : State} (b : Bool) : m = .src ∨ (m = .trr ∧ (b = t.cc.equal ∨ b = true)) → Runs m s t →
      Runs m s (t.assignEqual b)
  | assignCarry {t : State} (b : Bool) : m ∈ carryWriters → Runs m s t → Runs m s (t.assignCarry b)

theorem Runs.resolveEA {m : Mnemonic} {s t : State} (h : Runs m s t) (ix : BitVec 2) (ind : Bool) (addr : BitVec 5) :
    Runs m s (t.resolveEA ix ind addr).2 := by
  rcases State.resolveEA_cases ix ind addr t with he | ⟨a, _, _, he⟩
  · rw [he]; exact h
  · rw [he]; exact h.memRead a

/-- The operations leave control alone. -/
theorem Runs.staysInPlace {m : Mnemonic} {s t : State} (h : Runs m s t) : StaysInPlace s t := by
  induction h with
  | start => exact .refl s
  | memRead a _ ih => exact ih.trans (State.memRead_staysInPlace a _)
  | memWrite a v _ _ ih => exact ih.trans (State.memWrite_staysInPlace a v _)
  | setGpr r v _ _ ih => exact ih.trans (State.setGpr_staysInPlace r v _)
  | setIxr x v _ _ ih => exact ih.trans (State.setIxr_staysInPlace x v _)
  | setFr f v _ _ ih => exact ih.trans (State.setFr_staysInPlace f v _)
  | noteOverflow b _ _ ih => exact ih.trans (State.noteOverflow_staysInPlace b _)
  | noteUnderflow b _ _ ih => exact ih.trans (State.noteUnderflow_staysInPlace b _)
  | setDivZero _ _ ih => exact { ih with }
  | assignEqual b _ _ ih => exact ih.trans (State.assignEqual_staysInPlace b _)
  | assignCarry b _ _ ih => exact ih.trans (State.assignCarry_staysInPlace b _)

/-! ## What the operations write, part by part -/

theorem Runs.overflow {m : Mnemonic} {s t : State} (h : Runs m s t) :
    t.cc.overflow = s.cc.overflow ∨ (m = .amr ∧ t.cc.overflow = true) := by
  induction h with
  | start => exact .inl rfl
  | @noteOverflow t b hm _ ih => cases b <;> simp_all
  | _ => simpa

theorem Runs.underflow {m : Mnemonic} {s t : State} (h : Runs m s t) :
    t.cc.underflow = s.cc.underflow ∨ (m ∈ underflowWriters ∧ t.cc.underflow = true) := by
  induction h with
  | start => exact .inl rfl
  | @noteUnderflow t b hm _ ih => cases b <;> simp_all
  | _ => simpa

theorem Runs.divZero {m : Mnemonic} {s t : State} (h : Runs m s t) :
    t.cc.divZero = s.cc.divZero ∨ (m = .dvd ∧ t.cc.divZero = true) := by
  induction h with
  | start => exact .inl rfl
  | setDivZero hm => exact .inr ⟨hm, rfl⟩
  | _ => simpa

theorem Runs.equal {m : Mnemonic} {s t : State} (h : Runs m s t) :
    t.cc.equal = s.cc.equal ∨ m = .src ∨ (m = .trr ∧ t.cc.equal = true) := by
  induction h with
  | start => exact .inl rfl
  | assignEqual b hm _ ih =>
    rcases hm with hsrc | ⟨htrr, same | set⟩
    · exact .inr (.inl hsrc)
    · rw [same]; exact ih
    · exact .inr (.inr ⟨htrr, set⟩)
  | _ => simpa

theorem Runs.carry {m : Mnemonic} {s t : State} (h : Runs m s t) : t.carry = s.carry ∨ m ∈ carryWriters := by
  induction h with
  | start => exact .inl rfl
  | assignCarry b hm => exact .inr hm
  | _ => simpa

theorem Runs.ixrs {m : Mnemonic} {s t : State} (h : Runs m s t) : t.ixrs = s.ixrs ∨ m = .ldx := by
  induction h with
  | start => exact .inl rfl
  | setIxr x v hm => exact .inr hm
  | _ => simpa

theorem Runs.frs {m : Mnemonic} {s t : State} (h : Runs m s t) : t.frs = s.frs ∨ m ∈ frWriters := by
  induction h with
  | start => exact .inl rfl
  | setFr f v hm => exact .inr hm
  | _ => simpa

theorem Runs.gprs {m : Mnemonic} {s t : State} (h : Runs m s t) : t.gprs = s.gprs ∨ m ∈ gprWriters := by
  induction h with
  | start => exact .inl rfl
  | setGpr r v hm => exact .inr hm
  | _ => simpa

theorem Runs.mem {m : Mnemonic} {s t : State} (h : Runs m s t) : t.mem = s.mem ∨ m ∈ memWriters := by
  induction h with
  | start => exact .inl rfl
  | memWrite a v hm => exact .inr hm
  | _ => simpa

/-! ## How an instruction ends (R104, R108, R110) -/

/-- `u` has the registers, flags, memory, IR and logs of `t`: the end of a branch, of HLT, IN or OUT. -/
structure SameData (t u : State) : Prop where
  gprs : u.gprs = t.gprs
  ixrs : u.ixrs = t.ixrs
  frs : u.frs = t.frs
  cc : u.cc = t.cc
  carry : u.carry = t.carry
  mem : u.mem = t.mem
  ir : u.ir = t.ir
  icount : u.icount = t.icount
  faults : u.faults = t.faults
  refused : u.refused = t.refused

theorem SameData.refl (t : State) : SameData t t := ⟨rfl, rfl, rfl, rfl, rfl, rfl, rfl, rfl, rfl, rfl⟩

/-- After its operations the instruction completes, faults or refuses. -/
def Answers (m : Mnemonic) (s : State) (r : Result) : Prop :=
  ∃ t, Runs m s t ∧
    ((∃ u, SameData t u ∧ r = .next u.counted) ∨ (∃ e, r = .next (t.takeFault e)) ∨ ∃ why, r = .next (t.takeRefusal why))

theorem Answers.ended {m : Mnemonic} {s t u : State} (h : Runs m s t) (hd : SameData t u) : Answers m s u.completed :=
  ⟨t, h, .inl ⟨u, hd, rfl⟩⟩

theorem Answers.completed {m : Mnemonic} {s t : State} (h : Runs m s t) : Answers m s t.completed := .ended h (.refl t)

theorem Answers.raise {m : Mnemonic} {s t : State} (h : Runs m s t) (e : Fault) : Answers m s (t.raise e) :=
  ⟨t, h, .inr (.inl ⟨e, rfl⟩)⟩

theorem Answers.refuse {m : Mnemonic} {s t : State} (h : Runs m s t) (why : Refusal) : Answers m s (t.refuse why) :=
  ⟨t, h, .inr (.inr ⟨why, rfl⟩)⟩

/-- A branch's end writes the PC and the predictor only. -/
theorem Answers.commit {m : Mnemonic} {s t : State} (h : Runs m s t) (taken : Bool) (target : Nat) :
    Answers m s (commit taken target t) :=
  .ended h ⟨rfl, rfl, rfl, rfl, rfl, rfl, rfl, rfl, rfl, rfl⟩

theorem Answers.withEA {m : Mnemonic} {s t : State} (h : Runs m s t) (ix : BitVec 2) (ind : Bool) (addr : BitVec 5)
    {k : Address → State → Result} (hk : ∀ ea u, Runs m s u → Answers m s (k ea u)) :
    Answers m s (withEA ix ind addr t k) := by
  rcases withEA_cases ix ind addr t k with ⟨ea, _, he⟩ | ⟨e, _, he⟩
  · rw [he]; exact hk _ _ (h.resolveEA ..)
  · rw [he]; exact .raise (h.resolveEA ..) e

theorem Answers.withFloatReg {m : Mnemonic} {s : State} (r : BitVec 2) {k : FloatReg → Result}
    (hk : ∀ f, Answers m s (k f)) : Answers m s (withFloatReg r s k) := by
  rcases withFloatReg_cases r s k with ⟨f, _, he⟩ | ⟨_, he⟩
  · rw [he]; exact hk f
  · rw [he]; exact .raise .start _

theorem Answers.withIndexReg {m : Mnemonic} {s : State} (ix : BitVec 2) {k : IndexReg → Result}
    (hk : ∀ x, Answers m s (k x)) : Answers m s (withIndexReg ix s k) := by
  rcases withIndexReg_cases ix s k with ⟨x, _, he⟩ | ⟨_, he⟩
  · rw [he]; exact hk x
  · rw [he]; exact .raise .start _

theorem Answers.withPairs {m : Mnemonic} {s : State} (rx ry : BitVec 2) {k : Result} (hk : Answers m s k) :
    Answers m s (withPairs rx ry s k) := by
  rcases withPairs_cases rx ry s k with ⟨_, he⟩ | ⟨_, he⟩
  · rw [he]; exact hk
  · rw [he]; exact .raise .start _

theorem Answers.vectorLoop {m : Mnemonic} {s t : State} (hm : m ∈ memWriters) (h : Runs m s t)
    (op : Word → Word → Except Refusal Word) (p1 p2 n i : Nat) : Answers m s (vectorLoop op p1 p2 n i t) := by
  induction n generalizing i t with
  | zero => exact .completed h
  | succ n ih =>
    unfold Machine.vectorLoop
    cases checkAddr (p1 + i) with
    | error e => exact .raise h e
    | ok a1 =>
      cases checkAddr (p2 + i) with
      | error e => exact .raise h e
      | ok a2 =>
        dsimp only
        cases op (t.memRead a1).1 ((t.memRead a1).2.memRead a2).1 with
        | error why => exact .refuse ((h.memRead a1).memRead a2) why
        | ok v => exact ih (((h.memRead a1).memRead a2).memWrite a1 v hm) (i + 1)

theorem floatAdd_answers {m : Mnemonic} (hm : m ∈ frWriters) (order : FpExpOrder) (negateB : Bool) (r ix : BitVec 2)
    (ind : Bool) (addr : BitVec 5) (s : State) : Answers m s (floatAdd order negateB r ix ind addr s) := by
  refine .withFloatReg r fun f => .withEA .start _ _ _ fun ea u hu => ?_
  dsimp only
  cases fpAddCore order (u.fr f) (u.memRead ea).1 negateB with
  | ok w => exact .completed ((hu.memRead ea).setFr f w hm)
  | error why => exact .refuse (hu.memRead ea) why

theorem vectorOp_answers {m : Mnemonic} (hm : m ∈ memWriters) (elem : VecElemOp) (order : FpExpOrder) (negateB : Bool)
    (r ix : BitVec 2) (ind : Bool) (addr : BitVec 5) (s : State) :
    Answers m s (vectorOp elem order negateB r ix ind addr s) := by
  refine .withFloatReg r fun f => .withEA .start _ _ _ fun ea u hu => ?_
  cases checkAddr (ea.toNat + 1) with
  | error e => exact .raise hu e
  | ok ea1 =>
    have read := (hu.memRead ea).memRead ea1
    dsimp only; split
    · exact .refuse read _
    · exact .vectorLoop hm read ..

/-- Every instruction uses the operations of its mnemonic and ends in one of the three ways. -/
theorem exec_answers (i : Instr) (s : State) : Answers i.mnemonic s (exec i s) := by
  cases i <;> dsimp only [Instr.mnemonic]
  case hlt => exact .ended .start ⟨rfl, rfl, rfl, rfl, rfl, rfl, rfl, rfl, rfl, rfl⟩
  case ldr r ix ind addr =>
    exact .withEA .start _ _ _ fun ea u hu => .completed ((hu.memRead ea).setGpr _ _ (by decide))
  case str r ix ind addr => exact .withEA .start _ _ _ fun ea u hu => .completed (hu.memWrite ea _ (by decide))
  case lda r ix ind addr => exact .withEA .start _ _ _ fun ea u hu => .completed (hu.setGpr _ _ (by decide))
  case amr r ix ind addr =>
    exact .withEA .start _ _ _ fun ea u hu =>
      .completed (((hu.memRead ea).setGpr _ _ (by decide)).noteOverflow _ rfl)
  case smr r ix ind addr =>
    exact .withEA .start _ _ _ fun ea u hu =>
      .completed (((hu.memRead ea).setGpr _ _ (by decide)).noteUnderflow _ (by decide))
  case air r immed => rw [exec_air]; exact .completed (.setGpr _ _ (by decide) .start)
  case sir r immed =>
    rw [exec_sir]; exact .completed (.noteUnderflow _ (by decide) (.setGpr _ _ (by decide) .start))
  case jz r ix ind addr => exact .withEA .start _ _ _ fun ea u hu => .commit hu _ _
  case jne r ix ind addr => exact .withEA .start _ _ _ fun ea u hu => .commit hu _ _
  case jcc cc ix ind addr => exact .withEA .start _ _ _ fun ea u hu => .commit hu _ _
  case jma ix ind addr => exact .withEA .start _ _ _ fun ea u hu => .commit hu _ _
  case jsr ix ind addr => exact .withEA .start _ _ _ fun ea u hu => .commit (hu.setGpr _ _ (by decide)) _ _
  case rfs immed =>
    simp only [exec, execRfs]; split
    · exact .raise .start _
    · exact .commit (.setGpr _ _ (by decide) .start) _ _
  case sob r ix ind addr => exact .withEA .start _ _ _ fun ea u hu => .commit (hu.setGpr _ _ (by decide)) _ _
  case jge r ix ind addr => exact .withEA .start _ _ _ fun ea u hu => .commit hu _ _
  case mlt rx ry => exact .withPairs _ _ (.completed (.setGpr _ _ (by decide) (.setGpr _ _ (by decide) .start)))
  case dvd rx ry =>
    refine .withPairs _ _ ?_
    split
    · exact .raise (.setDivZero rfl .start) _
    · exact .completed (.setGpr _ _ (by decide) (.setGpr _ _ (by decide) .start))
  case trr rx ry =>
    refine .completed (.assignEqual _ (.inr ⟨rfl, ?_⟩) .start)
    cases s.gpr rx == s.gpr ry <;> simp [trrEqual, trrEqualMode]
  case and rx ry => exact .completed (.setGpr _ _ (by decide) .start)
  case orr rx ry => exact .completed (.setGpr _ _ (by decide) .start)
  case not rx => exact .completed (.setGpr _ _ (by decide) .start)
  case src r al lr count =>
    simp only [exec, execSrc, shiftRegister]; split
    · exact .completed .start
    · split
      · exact .refuse .start _
      · exact .completed (.assignEqual _ (.inl rfl) (.assignCarry _ (by decide) (.setGpr _ _ (by decide) .start)))
  case rrc r al lr count =>
    simp only [exec, execRrc, rotateRegister]; split
    · exact .completed .start
    · split
      · exact .completed (.setGpr _ _ (by decide) .start)
      · exact .completed (.assignCarry _ (by decide) (.setGpr _ _ (by decide) .start))
  case fadd r ix ind addr => exact floatAdd_answers (by decide) ..
  case fsub r ix ind addr => exact floatAdd_answers (by decide) ..
  case vadd r ix ind addr => exact vectorOp_answers (by decide) ..
  case vsub r ix ind addr => exact vectorOp_answers (by decide) ..
  case cnvrt r ix ind addr =>
    refine .withEA .start _ _ _ fun ea u hu => ?_
    dsimp only; split
    · exact .completed ((hu.memRead ea).setGpr _ _ (by decide))
    · exact .completed ((hu.memRead ea).setFr _ _ (by decide))
  case ldx ix ind addr =>
    exact .withIndexReg _ fun x => .withEA .start _ _ _ fun ea u hu => .completed ((hu.memRead ea).setIxr x _ rfl)
  case stx ix ind addr =>
    exact .withIndexReg _ fun x => .withEA .start _ _ _ fun ea u hu => .completed (hu.memWrite ea _ (by decide))
  case ldfr r ix ind addr =>
    exact .withFloatReg _ fun f => .withEA .start _ _ _ fun ea u hu =>
      .completed ((hu.memRead ea).setFr f _ (by decide))
  case stfr r ix ind addr =>
    exact .withFloatReg _ fun f => .withEA .start _ _ _ fun ea u hu => .completed (hu.memWrite ea _ (by decide))
  case inp r devid =>
    simp only [exec, execInp]; split
    · exact .refuse .start _
    · split
      · exact .refuse .start _
      · exact .ended .start ⟨rfl, rfl, rfl, rfl, rfl, rfl, rfl, rfl, rfl, rfl⟩
  case out r devid =>
    simp only [exec, execOut]; split
    · exact .refuse .start _
    · exact .ended .start ⟨rfl, rfl, rfl, rfl, rfl, rfl, rfl, rfl, rfl, rfl⟩

/-- Settles O56: the operations leave control alone, so the end decides. -/
theorem everyInstructionCompletesFaultsOrIsRefused : Obligations.EveryInstructionCompletesFaultsOrIsRefused := by
  intro i s
  obtain ⟨t, runs, ends⟩ := exec_answers i s
  have same := runs.staysInPlace
  rcases ends with ⟨u, data, run⟩ | ⟨e, run⟩ | ⟨why, run⟩
  · refine ⟨_, run, data.ir.trans same.ir, .inl ⟨?_, data.faults.trans same.faults, data.refused.trans same.refused⟩⟩
    rw [State.counted_icount, data.icount, same.icount]
  · refine ⟨_, run, same.ir, .inr (.inl ⟨e, same.icount, ?_, same.refused, rfl, same.pc, same.pending⟩)⟩
    rw [State.takeFault_faults, same.faults, same.pc, same.ir]
  · exact ⟨_, run, same.ir, .inr (.inr ⟨same.icount, same.faults, rfl, rfl, same.pc, same.pending⟩)⟩

/-- The answered state has the registers, flags and memory that the operations left. -/
theorem exec_runs {i : Instr} {s t : State} (h : exec i s = .next t) :
    ∃ u, Runs i.mnemonic s u ∧ t.gprs = u.gprs ∧ SameOtherRegs u t ∧ t.mem = u.mem := by
  obtain ⟨u, runs, ⟨v, data, run⟩ | ⟨e, run⟩ | ⟨why, run⟩⟩ := exec_answers i s <;> rw [run] at h <;> cases h
  · exact ⟨u, runs, data.gprs, ⟨data.ixrs, data.frs, data.cc, data.carry⟩, data.mem⟩
  · exact ⟨u, runs, rfl, ⟨rfl, rfl, rfl, rfl⟩, rfl⟩
  · exact ⟨u, runs, rfl, ⟨rfl, rfl, rfl, rfl⟩, rfl⟩

/-- Settles O57: a part that differs was written by an operation, which only the listed instructions use. -/
theorem onlyListedInstructionsWriteEachPart : Obligations.OnlyListedInstructionsWriteEachPart := by
  intro i s t h
  obtain ⟨u, runs, gprs, ⟨ixrs, frs, cc, carry⟩, mem⟩ := exec_runs h
  rw [gprs, ixrs, frs, cc, carry, mem]
  exact ⟨runs.overflow.resolve_left, runs.underflow.resolve_left, runs.divZero.resolve_left, runs.equal.resolve_left,
    runs.carry.resolve_left, runs.ixrs.resolve_left, runs.frs.resolve_left, runs.gprs.resolve_left, runs.mem.resolve_left⟩

end Sys2Proof.Machine

/-! PROOFS. The two noninterference statements (spec/43_branches.md section 3, spec/20_memory.md section 2): a relation that
every primitive operation keeps is kept by every instruction and every step, once for both; then the two relations. -/

namespace Sys2Proof.Machine

/-! ## Relations that the primitive operations keep -/

/-- The state with memory, cache, latches and predictor forgotten: what an instruction reads and writes directly. -/
def State.outer (s : State) : State := s.forgetMemory.forgetPredictor

/-- `t` has the memory, cache, latches and predictor of `s`. -/
structure SameInner (s t : State) : Prop extends SameMemorySide s t where
  bht : t.bht = s.bht
  predictions : t.predictions = s.predictions
  correct : t.correct = s.correct

/-- `R` relates states that agree beside memory, cache, latches and predictor, and the fetch, data accesses and predictor
protocol keep it, with equal values read. -/
structure Lockstep (R : State → State → Prop) : Prop where
  outer {s u : State} : R s u → s.outer = u.outer
  congr {s u s' u' : State} : R s u → SameInner s s' → SameInner u u' → s'.outer = u'.outer → R s' u'
  advance {s u : State} (a : Address) : R s u → s.word a = u.word a ∧ R (s.advance a) (u.advance a)
  read {s u : State} (a : Address) : R s u → (s.memRead a).1 = (u.memRead a).1 ∧ R (s.memRead a).2 (u.memRead a).2
  write {s u : State} (a : Address) (v : Word) : R s u → R (s.memWrite a v) (u.memWrite a v)
  predict {s u : State} (ia : Nat) (taken : Bool) (target actual : Nat) : R s u →
    R (s.predictorProtocol ia taken target actual) (u.predictorProtocol ia taken target actual)

/-- Both results are next states, related. -/
def Agree (R : State → State → Prop) (r r' : Result) : Prop := ∃ t v, r = .next t ∧ r' = .next v ∧ R t v

section
variable {R : State → State → Prop} {s u : State}

/-! ## Direct reads and writes -/

theorem Lockstep.part {α : Type} (L : Lockstep R) (h : R s u) (part : State → α) : part s.outer = part u.outer :=
  congrArg part (L.outer h)

theorem Lockstep.gpr (L : Lockstep R) (h : R s u) (r : BitVec 2) : s.gpr r = u.gpr r :=
  State.gpr_congr (L.part h State.gprs) r

theorem Lockstep.ixr (L : Lockstep R) (h : R s u) (x : IndexReg) : s.ixr x = u.ixr x :=
  State.ixr_congr (L.part h State.ixrs) x

theorem Lockstep.fr (L : Lockstep R) (h : R s u) (f : FloatReg) : s.fr f = u.fr f :=
  State.fr_congr (L.part h State.frs) f

theorem Lockstep.ccBit (L : Lockstep R) (h : R s u) (k : BitVec 2) : s.ccBit k = u.ccBit k :=
  State.ccBit_congr (L.part h State.cc) k

theorem Lockstep.nextPc (L : Lockstep R) (h : R s u) : s.nextPc = u.nextPc :=
  State.nextPc_congr (L.part h State.pc)

/-- A direct write computed from what is direct keeps the relation. -/
theorem Lockstep.put (L : Lockstep R) (h : R s u) {f : State → State} (inner : ∀ t, SameInner t (f t))
    (outer : ∀ t, (f t).outer = f t.outer) : R (f s) (f u) :=
  L.congr h (inner s) (inner u) (by rw [outer, outer, L.outer h])

theorem Lockstep.setGpr (L : Lockstep R) (h : R s u) (r : BitVec 2) (v : Word) : R (s.setGpr r v) (u.setGpr r v) :=
  L.put h (fun _ => ⟨⟨rfl, rfl, rfl, rfl⟩, rfl, rfl, rfl⟩) fun _ => rfl

theorem Lockstep.setIxr (L : Lockstep R) (h : R s u) (x : IndexReg) (v : Word) : R (s.setIxr x v) (u.setIxr x v) :=
  L.put h (f := State.setIxr x v) (fun _ => ⟨by constructor <;> simp, by simp, by simp, by simp⟩)
    fun _ => by cases x <;> rfl

theorem Lockstep.setFr (L : Lockstep R) (h : R s u) (f : FloatReg) (v : Word) : R (s.setFr f v) (u.setFr f v) :=
  L.put h (f := State.setFr f v) (fun _ => ⟨by constructor <;> simp, by simp, by simp, by simp⟩)
    fun _ => by cases f <;> rfl

theorem Lockstep.noteOverflow (L : Lockstep R) (h : R s u) (b : Bool) : R (s.noteOverflow b) (u.noteOverflow b) :=
  L.put h (fun _ => ⟨⟨rfl, rfl, rfl, rfl⟩, rfl, rfl, rfl⟩) fun _ => rfl

theorem Lockstep.noteUnderflow (L : Lockstep R) (h : R s u) (b : Bool) : R (s.noteUnderflow b) (u.noteUnderflow b) :=
  L.put h (fun _ => ⟨⟨rfl, rfl, rfl, rfl⟩, rfl, rfl, rfl⟩) fun _ => rfl

theorem Lockstep.setDivZero (L : Lockstep R) (h : R s u) : R s.setDivZero u.setDivZero :=
  L.put h (fun _ => ⟨⟨rfl, rfl, rfl, rfl⟩, rfl, rfl, rfl⟩) fun _ => rfl

theorem Lockstep.assignEqual (L : Lockstep R) (h : R s u) (b : Bool) : R (s.assignEqual b) (u.assignEqual b) :=
  L.put h (fun _ => ⟨⟨rfl, rfl, rfl, rfl⟩, rfl, rfl, rfl⟩) fun _ => rfl

theorem Lockstep.assignCarry (L : Lockstep R) (h : R s u) (b : Bool) : R (s.assignCarry b) (u.assignCarry b) :=
  L.put h (fun _ => ⟨⟨rfl, rfl, rfl, rfl⟩, rfl, rfl, rfl⟩) fun _ => rfl

/-! ## How an instruction ends -/

theorem Lockstep.completed (L : Lockstep R) (h : R s u) : Agree R s.completed u.completed :=
  ⟨_, _, rfl, rfl, L.put h (fun _ => ⟨⟨rfl, rfl, rfl, rfl⟩, rfl, rfl, rfl⟩) fun _ => rfl⟩

theorem Lockstep.raise (L : Lockstep R) (h : R s u) (e : Fault) : Agree R (s.raise e) (u.raise e) :=
  ⟨_, _, rfl, rfl, L.put h (f := State.takeFault e) (fun _ => ⟨⟨rfl, rfl, rfl, rfl⟩, rfl, rfl, rfl⟩) fun _ => rfl⟩

theorem Lockstep.refuse (L : Lockstep R) (h : R s u) (why : Refusal) : Agree R (s.refuse why) (u.refuse why) :=
  ⟨_, _, rfl, rfl, L.put h (f := State.takeRefusal why) (fun _ => ⟨⟨rfl, rfl, rfl, rfl⟩, rfl, rfl, rfl⟩) fun _ => rfl⟩

/-- A direct write, then completion. -/
theorem Lockstep.putCompleted (L : Lockstep R) (h : R s u) {f : State → State} (inner : ∀ t, SameInner t (f t))
    (outer : ∀ t, (f t).outer = f t.outer) : Agree R (f s).completed (f u).completed :=
  L.completed (L.put h inner outer)

theorem Lockstep.commit (L : Lockstep R) (h : R s u) (taken : Bool) (target : Nat) :
    Agree R (commit taken target s) (commit taken target u) := by
  unfold Machine.commit State.instrAddr
  rw [L.nextPc h]
  exact L.putCompleted (L.predict _ taken target _ h) (f := fun t => { t with pc := _ })
    (fun _ => ⟨⟨rfl, rfl, rfl, rfl⟩, rfl, rfl, rfl⟩) fun _ => rfl

/-! ## Operand forms -/

theorem Lockstep.resolveEA (L : Lockstep R) (h : R s u) (ix : BitVec 2) (ind : Bool) (addr : BitVec 5) :
    (s.resolveEA ix ind addr).1 = (u.resolveEA ix ind addr).1 ∧
      R (s.resolveEA ix ind addr).2 (u.resolveEA ix ind addr).2 := by
  have address : s.indexedAddress ix addr = u.indexedAddress ix addr := by
    rw [indexedAddress_eq, indexedAddress_eq]
    exact congrArg (fun ixrs : IndexFile => addr.toNat + if ix = 1 then ixrs.x1.toNat else if ix = 2 then ixrs.x2.toNat
      else if ix = 3 then ixrs.x3.toNat else 0) (L.part h State.ixrs)
  cases check : checkAddr (s.indexedAddress ix addr) with
  | error e =>
    rw [resolveEA_of_error check, resolveEA_of_error (address ▸ check)]
    exact ⟨rfl, h⟩
  | ok a =>
    cases ind with
    | false =>
      rw [resolveEA_direct check, resolveEA_direct (address ▸ check)]
      exact ⟨rfl, h⟩
    | true =>
      obtain ⟨value, related⟩ := L.read a h
      rw [resolveEA_indirect check, resolveEA_indirect (address ▸ check), value]
      exact ⟨rfl, related⟩

theorem Lockstep.withEA (L : Lockstep R) (h : R s u) (ix : BitVec 2) (ind : Bool) (addr : BitVec 5)
    {k k' : Address → State → Result} (hk : ∀ ea t v, R t v → Agree R (k ea t) (k' ea v)) :
    Agree R (withEA ix ind addr s k) (withEA ix ind addr u k') := by
  obtain ⟨same, related⟩ := L.resolveEA h ix ind addr
  cases hs : (s.resolveEA ix ind addr).1 with
  | ok ea => rw [withEA_ok hs, withEA_ok (same ▸ hs)]; exact hk ea _ _ related
  | error e => rw [withEA_error hs, withEA_error (same ▸ hs)]; exact L.raise related e

theorem Lockstep.withFloatReg (L : Lockstep R) (h : R s u) (r : BitVec 2) {k k' : FloatReg → Result}
    (hk : ∀ f, Agree R (k f) (k' f)) : Agree R (withFloatReg r s k) (withFloatReg r u k') := by
  unfold Machine.withFloatReg
  cases FloatReg.ofSelector r with
  | some f => exact hk f
  | none => exact L.raise h _

theorem Lockstep.withIndexReg (L : Lockstep R) (h : R s u) (ix : BitVec 2) {k k' : IndexReg → Result}
    (hk : ∀ x, Agree R (k x) (k' x)) : Agree R (withIndexReg ix s k) (withIndexReg ix u k') := by
  unfold Machine.withIndexReg
  cases IndexReg.ofSelector ix with
  | some x => exact hk x
  | none => exact L.raise h _

theorem Lockstep.withPairs (L : Lockstep R) (h : R s u) (rx ry : BitVec 2) {k k' : Result} (hk : Agree R k k') :
    Agree R (withPairs rx ry s k) (withPairs rx ry u k') := by
  unfold Machine.withPairs
  split
  · exact hk
  · exact L.raise h _

/-! ## Floating point and vectors -/

theorem Lockstep.floatAdd (L : Lockstep R) (h : R s u) (order : FpExpOrder) (negateB : Bool) (r ix : BitVec 2) (ind : Bool)
    (addr : BitVec 5) : Agree R (floatAdd order negateB r ix ind addr s) (floatAdd order negateB r ix ind addr u) := by
  refine L.withFloatReg h r fun f => L.withEA h ix ind addr fun ea t v htv => ?_
  obtain ⟨value, related⟩ := L.read ea htv
  dsimp only
  rw [value, L.fr htv f]
  cases fpAddCore order (v.fr f) (v.memRead ea).1 negateB with
  | ok w => exact L.completed (L.setFr related f w)
  | error why => exact L.refuse related why

theorem Lockstep.vectorLoop (L : Lockstep R) (h : R s u) (op : Word → Word → Except Refusal Word) (p1 p2 n i : Nat) :
    Agree R (vectorLoop op p1 p2 n i s) (vectorLoop op p1 p2 n i u) := by
  induction n generalizing i s u with
  | zero => exact L.completed h
  | succ n ih =>
    unfold Machine.vectorLoop
    cases checkAddr (p1 + i) with
    | error e => exact L.raise h e
    | ok a1 =>
      cases checkAddr (p2 + i) with
      | error e => exact L.raise h e
      | ok a2 =>
        obtain ⟨first, h1⟩ := L.read a1 h
        obtain ⟨second, h2⟩ := L.read a2 h1
        dsimp only
        rw [first, second]
        cases op (u.memRead a1).1 ((u.memRead a1).2.memRead a2).1 with
        | error why => exact L.refuse h2 why
        | ok v => exact ih (L.write a1 v h2) (i + 1)

theorem Lockstep.vectorOp (L : Lockstep R) (h : R s u) (elem : VecElemOp) (order : FpExpOrder) (negateB : Bool)
    (r ix : BitVec 2) (ind : Bool) (addr : BitVec 5) :
    Agree R (vectorOp elem order negateB r ix ind addr s) (vectorOp elem order negateB r ix ind addr u) := by
  refine L.withFloatReg h r fun f => L.withEA h ix ind addr fun ea t v htv => ?_
  cases checkAddr (ea.toNat + 1) with
  | error e => exact L.raise htv e
  | ok ea1 =>
    obtain ⟨first, h1⟩ := L.read ea htv
    obtain ⟨second, h2⟩ := L.read ea1 h1
    dsimp only
    rw [first, second, L.fr htv f]
    split
    · exact L.refuse h2 _
    · exact L.vectorLoop h2 ..

/-! ## Every instruction and every step -/

/-- Related states run every instruction to related states. -/
theorem Lockstep.exec (L : Lockstep R) (h : R s u) (i : Instr) : Agree R (exec i s) (exec i u) := by
  cases i with
  | hlt =>
    exact L.putCompleted h (f := fun t => { t with runState := .halted })
      (fun _ => ⟨⟨rfl, rfl, rfl, rfl⟩, rfl, rfl, rfl⟩) fun _ => rfl
  | ldr r ix ind addr =>
    refine L.withEA h _ _ _ fun ea t v htv => ?_
    obtain ⟨value, related⟩ := L.read ea htv
    dsimp only
    rw [value]
    exact L.completed (L.setGpr related r _)
  | str r ix ind addr =>
    refine L.withEA h _ _ _ fun ea t v htv => ?_
    rw [L.gpr htv r]
    exact L.completed (L.write ea _ htv)
  | lda r ix ind addr => exact L.withEA h _ _ _ fun ea t v htv => L.completed (L.setGpr htv r _)
  | amr r ix ind addr =>
    refine L.withEA h _ _ _ fun ea t v htv => ?_
    obtain ⟨value, related⟩ := L.read ea htv
    dsimp only
    rw [value, L.gpr htv r]
    exact L.completed (L.noteOverflow (L.setGpr related r _) _)
  | smr r ix ind addr =>
    refine L.withEA h _ _ _ fun ea t v htv => ?_
    obtain ⟨value, related⟩ := L.read ea htv
    dsimp only
    rw [value, L.gpr htv r]
    exact L.completed (L.noteUnderflow (L.setGpr related r _) _)
  | air r immed =>
    rw [exec_air, exec_air, L.gpr h r]
    exact L.completed (L.setGpr h r _)
  | sir r immed =>
    rw [exec_sir, exec_sir, State.subtractFromGpr, State.subtractFromGpr, L.gpr h r]
    exact L.completed (L.noteUnderflow (L.setGpr h r _) _)
  | jz r ix ind addr =>
    refine L.withEA h _ _ _ fun ea t v htv => ?_
    rw [L.gpr htv r]
    exact L.commit htv _ _
  | jne r ix ind addr =>
    refine L.withEA h _ _ _ fun ea t v htv => ?_
    rw [L.gpr htv r]
    exact L.commit htv _ _
  | jcc cc ix ind addr =>
    refine L.withEA h _ _ _ fun ea t v htv => ?_
    rw [L.ccBit htv cc]
    exact L.commit htv _ _
  | jma ix ind addr => exact L.withEA h _ _ _ fun ea t v htv => L.commit htv _ _
  | jsr ix ind addr =>
    refine L.withEA h _ _ _ fun ea t v htv => ?_
    rw [L.nextPc htv]
    exact L.commit (L.setGpr htv 3 _) _ _
  | rfs immed =>
    simp only [Machine.exec, execRfs, L.gpr h 3]
    split
    · exact L.raise h _
    · exact L.commit (L.setGpr h 0 _) _ _
  | sob r ix ind addr =>
    refine L.withEA h _ _ _ fun ea t v htv => ?_
    dsimp only
    rw [L.gpr htv r]
    exact L.commit (L.setGpr htv r _) _ _
  | jge r ix ind addr =>
    refine L.withEA h _ _ _ fun ea t v htv => ?_
    rw [L.gpr htv r]
    exact L.commit htv _ _
  | mlt rx ry =>
    refine L.withPairs h _ _ ?_
    rw [L.gpr h rx, L.gpr h ry]
    exact L.completed (L.setGpr (L.setGpr h _ _) _ _)
  | dvd rx ry =>
    refine L.withPairs h _ _ ?_
    rw [L.gpr h rx, L.gpr h ry]
    split
    · exact L.raise (L.setDivZero h) _
    · exact L.completed (L.setGpr (L.setGpr h _ _) _ _)
  | trr rx ry =>
    simp only [Machine.exec, execTrr, testEqual, L.gpr h rx, L.gpr h ry]
    exact L.putCompleted h (f := fun t => t.assignEqual (trrEqual trrEqualMode t.cc.equal _))
      (fun _ => ⟨⟨rfl, rfl, rfl, rfl⟩, rfl, rfl, rfl⟩) fun _ => rfl
  | and rx ry =>
    rw [exec_and, exec_and, L.gpr h rx, L.gpr h ry]
    exact L.completed (L.setGpr h rx _)
  | orr rx ry =>
    rw [exec_orr, exec_orr, L.gpr h rx, L.gpr h ry]
    exact L.completed (L.setGpr h rx _)
  | not rx =>
    rw [exec_not, exec_not, L.gpr h rx]
    exact L.completed (L.setGpr h rx _)
  | src r al lr count =>
    simp only [Machine.exec, execSrc, shiftRegister, L.gpr h r]
    split
    · exact L.completed h
    · split
      · exact L.refuse h _
      · exact L.completed (L.assignEqual (L.assignCarry (L.setGpr h r _) _) _)
  | rrc r al lr count =>
    have carry : s.carry = u.carry := L.part h State.carry
    simp only [Machine.exec, execRrc, rotateRegister, L.gpr h r, carry]
    split
    · exact L.completed h
    · split
      · exact L.completed (L.setGpr h r _)
      · exact L.completed (L.assignCarry (L.setGpr h r _) _)
  | fadd r ix ind addr => exact L.floatAdd h ..
  | fsub r ix ind addr => exact L.floatAdd h ..
  | vadd r ix ind addr => exact L.vectorOp h ..
  | vsub r ix ind addr => exact L.vectorOp h ..
  | cnvrt r ix ind addr =>
    refine L.withEA h _ _ _ fun ea t v htv => ?_
    obtain ⟨value, related⟩ := L.read ea htv
    dsimp only
    rw [value, L.gpr htv r]
    split
    · exact L.completed (L.setGpr related r _)
    · exact L.completed (L.setFr related .f0 _)
  | ldx ix ind addr =>
    refine L.withIndexReg h _ fun x => L.withEA h _ _ _ fun ea t v htv => ?_
    obtain ⟨value, related⟩ := L.read ea htv
    dsimp only
    rw [value]
    exact L.completed (L.setIxr related x _)
  | stx ix ind addr =>
    refine L.withIndexReg h _ fun x => L.withEA h _ _ _ fun ea t v htv => ?_
    rw [L.ixr htv x]
    exact L.completed (L.write ea _ htv)
  | ldfr r ix ind addr =>
    refine L.withFloatReg h _ fun f => L.withEA h _ _ _ fun ea t v htv => ?_
    obtain ⟨value, related⟩ := L.read ea htv
    dsimp only
    rw [value]
    exact L.completed (L.setFr related f _)
  | stfr r ix ind addr =>
    refine L.withFloatReg h _ fun f => L.withEA h _ _ _ fun ea t v htv => ?_
    rw [L.fr htv f]
    exact L.completed (L.write ea _ htv)
  | inp r devid =>
    have pending : s.pending = u.pending := L.part h State.pending
    simp only [Machine.exec, execInp, pending]
    split
    · exact L.refuse h _
    · split
      · exact L.refuse h _
      · exact L.putCompleted h (f := fun t => { t with
            pending := some
              { dest := r, base := t.gpr r, count := inputCount (t.gpr 3), resumeRun := decide (t.runState = .running) }
            runState := .waitingForInput })
          (fun _ => ⟨⟨rfl, rfl, rfl, rfl⟩, rfl, rfl, rfl⟩) fun _ => rfl
  | out r devid =>
    simp only [Machine.exec, execOut]
    split
    · exact L.refuse h _
    · exact L.putCompleted h (f := fun t => { t with status := t.status ++ [.guidance (t.gpr 0) (t.gpr 3)] })
        (fun _ => ⟨⟨rfl, rfl, rfl, rfl⟩, rfl, rfl, rfl⟩) fun _ => rfl

/-- Related states step to related states: the PC and the word fetched are the same. -/
theorem Lockstep.step (L : Lockstep R) (h : R s u) : Agree R (step s) (step u) := by
  have run : s.runState = u.runState := L.part h State.runState
  have pc : s.pc = u.pc := L.part h State.pc
  by_cases waiting : u.runState = .waitingForInput
  · rw [step_of_waiting waiting, step_of_waiting (run.trans waiting)]
    exact ⟨s, u, rfl, rfl, h⟩
  · have waiting' : s.runState ≠ .waitingForInput := run ▸ waiting
    cases hf : fetchAddress u.pc with
    | error e =>
      rw [step_of_fetchFault waiting hf, step_of_fetchFault waiting' (pc ▸ hf), pc]
      exact ⟨_, _, rfl, rfl, L.put h (f := State.recordFault e u.pc)
        (fun _ => ⟨⟨rfl, rfl, rfl, rfl⟩, rfl, rfl, rfl⟩) fun _ => rfl⟩
    | ok a =>
      obtain ⟨word, fetched⟩ := L.advance a h
      cases hd : decode (u.word a) with
      | instr i =>
        rw [step_of_instr waiting hf hd, step_of_instr waiting' (pc ▸ hf) (word ▸ hd)]
        exact L.exec fetched i
      | inert op =>
        rw [step_of_inert waiting hf hd, step_of_inert waiting' (pc ▸ hf) (word ▸ hd), word]
        exact L.putCompleted fetched (f := fun t => { t with status := t.status ++ [.inert (u.word a)] })
          (fun _ => ⟨⟨rfl, rfl, rfl, rfl⟩, rfl, rfl, rfl⟩) fun _ => rfl

end

/-! ## The predictor (R142) -/

/-- What is read of a state after forgetting its predictor is the same in both. -/
theorem part_of_forgetPredictor {α : Type} {s u : State} (h : s.forgetPredictor = u.forgetPredictor) (part : State → α) :
    part s.forgetPredictor = part u.forgetPredictor :=
  congrArg part h

/-- A read does not look at the predictor. -/
theorem memRead_forgetPredictor (a : Address) (s : State) :
    (s.forgetPredictor.memRead a).1 = (s.memRead a).1 ∧
      (s.forgetPredictor.memRead a).2 = (s.memRead a).2.forgetPredictor := by
  unfold State.memRead
  cases hl : s.cache.lookup a with
  | some i =>
    rw [State.cacheLoad_of_hit hl, State.cacheLoad_of_hit (s := s.forgetPredictor) hl]
    exact ⟨rfl, rfl⟩
  | none =>
    rw [State.cacheLoad_of_miss hl, State.cacheLoad_of_miss (s := s.forgetPredictor) hl]
    exact ⟨rfl, rfl⟩

theorem memWrite_forgetPredictor (a : Address) (v : Word) (s : State) :
    s.forgetPredictor.memWrite a v = (s.memWrite a v).forgetPredictor := by
  unfold State.memWrite
  cases hl : s.cache.lookup a with
  | some i =>
    rw [State.cacheStore_eq v (State.allocate_of_hit hl), State.cacheStore_eq v (State.allocate_of_hit (s := s.forgetPredictor) hl)]
    rfl
  | none =>
    rw [State.cacheStore_eq v (State.allocate_of_miss hl),
      State.cacheStore_eq v (State.allocate_of_miss (s := s.forgetPredictor) hl)]
    rfl

/-- What a state is without its predictor: the direct parts and the memory side. -/
theorem forgetPredictor_eq (s : State) :
    s.forgetPredictor = { s.outer with mem := s.mem, cache := s.cache, mar := s.mar, mbr := s.mbr } := rfl

/-- States that differ in the predictor alone run in lockstep. -/
theorem predictor_lockstep : Lockstep fun s u => s.forgetPredictor = u.forgetPredictor where
  outer h := part_of_forgetPredictor h State.forgetMemory
  congr {s u s' u'} h hs hu ho := by
    have mem : s.mem = u.mem := part_of_forgetPredictor h State.mem
    have cache : s.cache = u.cache := part_of_forgetPredictor h State.cache
    have mar : s.mar = u.mar := part_of_forgetPredictor h State.mar
    have mbr : s.mbr = u.mbr := part_of_forgetPredictor h State.mbr
    rw [forgetPredictor_eq, forgetPredictor_eq, ho, hs.mem, hs.cache, hs.mar, hs.mbr, hu.mem, hu.cache, hu.mar, hu.mbr, mem,
      cache, mar, mbr]
  advance {s u} a h := ⟨State.word_congr (part_of_forgetPredictor h State.mem) a, part_of_forgetPredictor h (State.advance a)⟩
  read {s u} a h := by
    obtain ⟨valueS, stateS⟩ := memRead_forgetPredictor a s
    obtain ⟨valueU, stateU⟩ := memRead_forgetPredictor a u
    rw [← valueS, ← valueU, ← stateS, ← stateU, h]
    exact ⟨rfl, rfl⟩
  write {s u} a v h := by rw [← memWrite_forgetPredictor, ← memWrite_forgetPredictor, h]
  predict _ _ _ _ h := h

/-- Settles O59. -/
theorem predictorNeverMatters : Obligations.PredictorNeverMatters := fun _ _ h => predictor_lockstep.step h

/-! ## The cache and the latches (R42, R58) -/

/-- Both caches are coherent, and the states differ in them and in the latches alone. -/
def SameButCache (s u : State) : Prop :=
  (s.CacheInv ∧ s.mem.wf = true) ∧ (u.CacheInv ∧ u.mem.wf = true) ∧ s.forgetCache = u.forgetCache

/-- What is read of a state after forgetting its cache and latches is the same in both. -/
theorem part_of_forgetCache {α : Type} {s u : State} (h : s.forgetCache = u.forgetCache) (part : State → α) :
    part s.forgetCache = part u.forgetCache :=
  congrArg part h

/-- What a state is without its cache and latches. -/
theorem forgetCache_eq (s : State) :
    s.forgetCache = { s.outer with mem := s.mem, bht := s.bht, predictions := s.predictions, correct := s.correct } := rfl

theorem forgetCache_memWrite (a : Address) (v : Word) (s : State) :
    (s.memWrite a v).forgetCache = { s.forgetCache with mem := s.forgetCache.mem.write a.toNat v } := by
  simp [State.forgetCache]

theorem forgetCache_advance (a : Address) (s : State) :
    (s.advance a).forgetCache = { s.forgetCache with ir := some (s.forgetCache.word a), pc := some (a.toNat + 1) } := rfl

/-- The invariants depend on the array and the cache only. -/
theorem cacheInv_wf_of_sameInner {s t : State} (h : SameInner s t) (hs : s.CacheInv ∧ s.mem.wf = true) :
    t.CacheInv ∧ t.mem.wf = true :=
  ⟨(State.cacheInv_congr h.mem h.cache).mpr hs.1, by rw [h.mem]; exact hs.2⟩

/-- States with coherent caches that differ in the cache and the latches alone run in lockstep. -/
theorem cache_lockstep : Lockstep SameButCache where
  outer := fun ⟨_, _, h⟩ => part_of_forgetCache h State.outer
  congr {s u s' u'} := fun ⟨hs, hu, h⟩ ss uu ho => by
    have mem : s.mem = u.mem := part_of_forgetCache h State.mem
    have bht : s.bht = u.bht := part_of_forgetCache h State.bht
    have predictions : s.predictions = u.predictions := part_of_forgetCache h State.predictions
    have correct : s.correct = u.correct := part_of_forgetCache h State.correct
    refine ⟨cacheInv_wf_of_sameInner ss hs, cacheInv_wf_of_sameInner uu hu, ?_⟩
    rw [forgetCache_eq, forgetCache_eq, ho, ss.mem, ss.bht, ss.predictions, ss.correct, uu.mem, uu.bht, uu.predictions,
      uu.correct, mem, bht, predictions, correct]
  advance {s u} a := fun ⟨hs, hu, h⟩ =>
    ⟨State.word_congr (part_of_forgetCache h State.mem) a, hs, hu, by rw [forgetCache_advance, forgetCache_advance, h]⟩
  read {s u} a := fun ⟨hs, hu, h⟩ => by
    have word : s.word a = u.word a := State.word_congr (part_of_forgetCache h State.mem) a
    refine ⟨by rw [State.memRead_value hs.1, State.memRead_value hu.1, word],
      ⟨State.memRead_cacheInv hs.1 a, by rw [State.memRead_mem]; exact hs.2⟩,
      ⟨State.memRead_cacheInv hu.1 a, by rw [State.memRead_mem]; exact hu.2⟩, ?_⟩
    rw [forgetCache_memRead, forgetCache_memRead, h]
  write {s u} a v := fun ⟨hs, hu, h⟩ =>
    ⟨⟨State.memWrite_cacheInv hs.1 hs.2 a v, State.memWrite_wf hs.2 a v⟩,
      ⟨State.memWrite_cacheInv hu.1 hu.2 a v, State.memWrite_wf hu.2 a v⟩,
      by rw [forgetCache_memWrite, forgetCache_memWrite, h]⟩
  predict ia taken target actual := fun ⟨hs, hu, h⟩ =>
    ⟨hs, hu, part_of_forgetCache h (State.predictorProtocol ia taken target actual)⟩

/-- Settles O60. -/
theorem cacheNeverMatters : Obligations.CacheNeverMatters := by
  intro s u hs hu h
  obtain ⟨swf, scache, _⟩ := hs
  obtain ⟨uwf, ucache, _⟩ := hu
  obtain ⟨t, v, ht, hv, _, _, same⟩ := cache_lockstep.step ⟨⟨scache, swf⟩, ⟨ucache, uwf⟩, h⟩
  exact ⟨t, v, ht, hv, same⟩

end Sys2Proof.Machine
